-- ==== Sys2Proof/Word.lean ====
section
/-! DEFINITION. The byte, the only datum the block stores or moves (R8), and sequences of bytes. -/

namespace Sys2Proof

/-- A byte: 8 bits, an unsigned value 0..255, bit 0 the least significant (R8). -/
abbrev Byte := BitVec 8

/-- A byte sequence, indexed from 0 (R8); a Message is one of length 2..21 (R80). -/
abbrev ByteSeq := List Byte

end Sys2Proof
end

