-- ==== Sys2Proof/Syntax.lean ====
section
/-! DEFINITION. The operations of the block, one constructor per row of spec/opcode_table.json (R84, R85, R91, R95),
and the names their operands use. -/

namespace Sys2Proof

/-- The two BitTimer instances (R29): the end-of-message timer `EOMT` and the backoff timer `COLT`. -/
inductive TimerId where
  | eomt
  | colt
deriving DecidableEq, Repr

/-- The two MessageQueue instances (R30, R31): `INQ` (bus to host) and `OUTQ` (host to bus). -/
inductive QueueId where
  | inq
  | outq
deriving DecidableEq, Repr

/-- The four byte stores of R60, a queue's by the index of the slot. -/
inductive Store where
  | rxbuf
  | txmsg
  | slot (q : QueueId) (k : Nat)
deriving DecidableEq, Repr

/-- The operations. The names in the docstrings are the mnemonics of spec/opcode_table.json. -/
inductive Instr where
  /-- `RESET` (R198). -/
  | reset
  /-- `TICK` (R115). -/
  | tick
  /-- `TICKS n` (R116), the operand a 16-bit unsigned value (R86). -/
  | ticks (n : BitVec 16)
  /-- `RX_BYTE b` (R156). -/
  | rxByte (b : Byte)
  /-- `TX_DONE` (R127). -/
  | txDone
  /-- `WRITE_MSG m` (R195), `m` of any length 0..255 (R86). -/
  | writeMsg (m : ByteSeq)
  /-- `READ_MSG` (R196). -/
  | readMsg
  /-- `MSG_AVAIL` (R197). -/
  | msgAvail
  /-- `SEND b`, an output (R125). -/
  | send (b : Byte)
  /-- `RSP_MSG m`, an output (R85, R196); the empty sequence is the empty answer. -/
  | rspMsg (m : ByteSeq)
  /-- `RSP_AVAIL v`, an output (R85, R197). -/
  | rspAvail (v : Byte)
  /-- `T_CONFIGURE(t, ticks)` (R110). -/
  | tConfigure (t : TimerId) (ticks : Nat)
  /-- `T_RESTART(t)` (R111). -/
  | tRestart (t : TimerId)
  /-- `T_STOP(t)` (R112). -/
  | tStop (t : TimerId)
  /-- `T_TICK(t) -> bool` (R113). -/
  | tTick (t : TimerId)
  /-- `Q_PUSH(Q, m)` (R140). -/
  | qPush (q : QueueId) (m : ByteSeq)
  /-- `Q_POP(Q) -> Message | empty` (R141). -/
  | qPop (q : QueueId)
  /-- `Q_PEEK(Q) -> Message | empty` (R142). -/
  | qPeek (q : QueueId)
  /-- `Q_ISEMPTY(Q) -> bool` (R143). -/
  | qIsEmpty (q : QueueId)
  /-- `rx_store(b)` (R155). -/
  | rxStore (b : Byte)
  /-- `on_eom_fire()` (R157). -/
  | onEomFire
  /-- `try_start()` (R170). -/
  | tryStart
  /-- `send_next()` (R171). -/
  | sendNext
  /-- `echo_compare(b)` (R172). -/
  | echoCompare (b : Byte)
  /-- `collision()` (R174). -/
  | collision
  /-- `priority(mid) -> 1..8` (R175). -/
  | priority (mid : Byte)
  /-- `on_col_fire()` (R177). -/
  | onColFire
  /-- `validate_echo(n, taint, frame)` (R178). -/
  | validateEcho (n : Nat) (taint : Bool) (frame : ByteSeq)
  /-- `tx_complete()` (R179). -/
  | txComplete
  /-- `give_up()` (R180). -/
  | giveUp
  /-- `frame_encode(b)`, a codec function of the Transport (R128). -/
  | frameEncode (b : Byte)
  /-- `frame_decode(w)`, `w` the ten sampled line values, first in time first (R129). -/
  | frameDecode (w : List Bool)
  /-- `hex_encode(M)`, a codec function of the HostBridge (R210). -/
  | hexEncode (m : ByteSeq)
  /-- `hex_decode(s)`, `s` a character string (R211). -/
  | hexDecode (s : List Char)
deriving DecidableEq, Repr

/-- What a row of the table is: the "direction" column of spec/opcode_table.json. -/
inductive Direction where
  | stimulus
  | output
  | internal
  | codec
deriving DecidableEq, Repr

/-- The direction of each operation (R10, R84, R85, R91). -/
def Instr.direction : Instr → Direction
  | .reset => .stimulus
  | .tick => .stimulus
  | .ticks _ => .stimulus
  | .rxByte _ => .stimulus
  | .txDone => .stimulus
  | .writeMsg _ => .stimulus
  | .readMsg => .stimulus
  | .msgAvail => .stimulus
  | .send _ => .output
  | .rspMsg _ => .output
  | .rspAvail _ => .output
  | .tConfigure _ _ => .internal
  | .tRestart _ => .internal
  | .tStop _ => .internal
  | .tTick _ => .internal
  | .qPush _ _ => .internal
  | .qPop _ => .internal
  | .qPeek _ => .internal
  | .qIsEmpty _ => .internal
  | .rxStore _ => .internal
  | .onEomFire => .internal
  | .tryStart => .internal
  | .sendNext => .internal
  | .echoCompare _ => .internal
  | .collision => .internal
  | .priority _ => .internal
  | .onColFire => .internal
  | .validateEcho _ _ _ => .internal
  | .txComplete => .internal
  | .giveUp => .internal
  | .frameEncode _ => .codec
  | .frameDecode _ => .codec
  | .hexEncode _ => .codec
  | .hexDecode _ => .codec

/-- The operation is a stimulus: it can be applied from outside (R10, R84). -/
abbrev Instr.isStimulus (i : Instr) : Prop := i.direction = .stimulus

/-- The operation has an encoding: a stimulus or an output record (R84, R85; R91: the others have none). -/
abbrev Instr.isRecord (i : Instr) : Prop := i.direction = .stimulus ∨ i.direction = .output

/-- Why a byte stream is ill-formed (R85, R87). -/
inductive DecodeError where
  /-- An opcode byte that neither R84 nor R85 lists. -/
  | reservedOpcode (op : Byte)
  /-- The stream ends in the middle of an operation. -/
  | truncated
  /-- An output record with an operand value R85 does not allow. -/
  | illegalOutput
  /-- An output record where a stimulus must stand. -/
  | outputAsStimulus
deriving DecidableEq, Repr

/-- What a decoder answers: an operation and the rest of the stream, or a refusal by name. -/
inductive DecodeResult where
  | ok (i : Instr) (rest : List Byte)
  | refuse (e : DecodeError)
deriving DecidableEq, Repr

end Sys2Proof
end

