-- ==== Sys2Proof/Config.lean ====
section
/-! DEFINITION. The implementation parameters (R5, R6) and the free value.

The parameters of R5 are constants. Those of R6 are the fields of `Config`; a value of `Config` carries the proof that it is
legal, so that illegal parameters are unrepresentable (93_implementation_defined.md U6). -/

namespace Sys2Proof

namespace Config

/-- `BAUD`, bits per second on the wire (R5). -/
abbrev baud : Nat := 9600

/-- `DATA_BITS` (R5). -/
abbrev dataBits : Nat := 8

/-- `STOP_BITS` (R5); there is no parity bit. -/
abbrev stopBits : Nat := 1

/-- `MSG_MIN`, the least valid Message length (R5). -/
abbrev msgMin : Nat := 2

/-- `MSG_MAX`, the greatest valid Message length and the size of every byte store (R5, R60). -/
abbrev msgMax : Nat := 21

/-- The saturation value of `RXCNT`, "22 or more" (R22). -/
abbrev rxCntMax : Nat := 22

/-- `EOM_BITS`, the silence window in bit-times: exactly 11 (R5; 90_conflicts.md C5). -/
abbrev eomBits : Nat := 11

/-- `DEFAULT_PRIO` (R5). -/
abbrev defaultPrio : Nat := 8

/-- `PRIO_MIN` (R5). -/
abbrev prioMin : Nat := 1

/-- `PRIO_MAX` (R5). -/
abbrev prioMax : Nat := 8

/-- The greatest length a `WRITE_MSG` can offer (R41, R86). -/
abbrev writeMax : Nat := 255

end Config

/-- `PRIO_MODE` (R6, R175). -/
inductive PrioMode where
  | fixed
  | midClz
deriving DecidableEq, Repr

/-- The parameters of R6 with their legality. The defaults are those R6 gives; `T`, `N_IN` and `N_OUT` are OPEN. -/
structure Config where
  /-- `T`, timer ticks per bit-time. -/
  ticksPerBit : Nat
  /-- `N_IN`, the capacity of `INQ`. -/
  nIn : Nat
  /-- `N_OUT`, the capacity of `OUTQ`. -/
  nOut : Nat
  /-- `PRIO_MODE`, default `FIXED`. -/
  prioMode : PrioMode := .fixed
  /-- `RETRY_LIMIT`, 0 (the default) meaning no bound. -/
  retryLimit : Nat := 0
  /-- `TIMER_WIDTH`, bits of each timer's fields. -/
  timerWidth : Nat := 16
  ticksPerBit_pos : 1 ≤ ticksPerBit := by decide
  nIn_pos : 1 ≤ nIn := by decide
  nOut_pos : 1 ≤ nOut := by decide
  retryLimit_le : retryLimit ≤ 255 := by decide
  periods_fit : (Config.eomBits + 2 * Config.prioMax) * ticksPerBit ≤ 2 ^ timerWidth - 1 := by decide
deriving DecidableEq, Repr

/-- The reference values of R6, used by the vectors of 95_test_vectors.md.
DESIGN CHOICE (unsafe, notes/assumptions/1.md): `State.reset` carries them; no rule depends on them. -/
def Config.reference : Config where
  ticksPerBit := 1
  nIn := 4
  nOut := 4

/-- The free value: what a read of a cell that holds no value gives (93_implementation_defined.md U2, "any value").
It has no body, so nothing can be proved of it. No rule reads such a cell in a state that meets the invariant of R39.
DESIGN CHOICE (notes/assumptions/4.md). -/
opaque Config.noValue : Store → Nat → Byte

end Sys2Proof
end

