-- ==== Sys2Proof/WellFormed.lean ====
section
/-! DEFINITION. Which operations are well-formed: the operand ranges of R6, R41, R80, R85, R110, R129, R178. -/

namespace Sys2Proof

/-- The length of a Message: 2..21 inclusive (R80). -/
abbrev validLength (n : Nat) : Prop := Config.msgMin ≤ n ∧ n ≤ Config.msgMax

/-- The operands of the operation are in the ranges the spec gives them.
The upper bound of `T_CONFIGURE`'s count depends on `TIMER_WIDTH` and is checked against the configuration by its meaning. -/
abbrev Instr.wf : Instr → Prop
  | .reset => True
  | .tick => True
  | .ticks _ => True
  | .rxByte _ => True
  | .txDone => True
  | .writeMsg m => m.length ≤ Config.writeMax
  | .readMsg => True
  | .msgAvail => True
  | .send _ => True
  | .rspMsg m => m.length = 0 ∨ validLength m.length
  | .rspAvail v => v.toNat ≤ 1
  | .tConfigure _ k => 1 ≤ k
  | .tRestart _ => True
  | .tStop _ => True
  | .tTick _ => True
  | .qPush _ m => validLength m.length
  | .qPop _ => True
  | .qPeek _ => True
  | .qIsEmpty _ => True
  | .rxStore _ => True
  | .onEomFire => True
  | .tryStart => True
  | .sendNext => True
  | .echoCompare _ => True
  | .collision => True
  | .priority _ => True
  | .onColFire => True
  | .validateEcho n _ frame => n ≤ Config.rxCntMax ∧ frame.length = min n Config.msgMax
  | .txComplete => True
  | .giveUp => True
  | .frameEncode _ => True
  | .frameDecode w => w.length = 10 ∧ w.head? = some false
  | .hexEncode m => validLength m.length
  | .hexDecode _ => True

end Sys2Proof
end

