-- ==== Sys2Proof/Decode.lean ====
section
/-! DEFINITION. The byte-stream encoding of stimuli and outputs (R83 to R88): the record decoder, the stimulus decoder, the
encoder.

R85 lets one trace hold both directions, so `decode` reads records of both; R87 refuses an output record in a stimulus
stream, so `decodeStimulus`, which the machine's fetch uses, refuses it.
DESIGN CHOICE (safe, notes/assumptions/2.md). -/

namespace Sys2Proof

/-- A 16-bit operand, low byte first: `zext_16(byte1) + 256 * zext_16(byte2)` (R86, format H). -/
def le16 (lo hi : Byte) : BitVec 16 := lo.setWidth 16 + 256#16 * hi.setWidth 16

/-- The low byte of a 16-bit operand. -/
def lo8 (n : BitVec 16) : Byte := n.setWidth 8

/-- The high byte of a 16-bit operand. -/
def hi8 (n : BitVec 16) : Byte := (n >>> 8).setWidth 8

/-- The sequence operand of format M: a length byte `n`, then `n` bytes (R83, R86). -/
def takeSeq : List Byte → Option (ByteSeq × List Byte)
  | [] => none
  | n :: t => if n.toNat ≤ t.length then some (t.take n.toNat, t.drop n.toNat) else none

/-- The record decoder: the operation at the head of a stream and the rest of the stream, or a refusal (R83 to R88). -/
def decode : List Byte → DecodeResult
  | [] => .refuse .truncated
  | op :: t =>
    if op = 0x01#8 then .ok .reset t
    else if op = 0x10#8 then .ok .tick t
    else if op = 0x11#8 then
      match t with
      | lo :: hi :: r => .ok (.ticks (le16 lo hi)) r
      | _ => .refuse .truncated
    else if op = 0x20#8 then
      match t with
      | b :: r => .ok (.rxByte b) r
      | _ => .refuse .truncated
    else if op = 0x21#8 then .ok .txDone t
    else if op = 0x30#8 then
      match takeSeq t with
      | some (m, r) => .ok (.writeMsg m) r
      | none => .refuse .truncated
    else if op = 0x31#8 then .ok .readMsg t
    else if op = 0x32#8 then .ok .msgAvail t
    else if op = 0x80#8 then
      match t with
      | b :: r => .ok (.send b) r
      | _ => .refuse .truncated
    else if op = 0x90#8 then
      match takeSeq t with
      | some (m, r) => if (Instr.rspMsg m).wf then .ok (.rspMsg m) r else .refuse .illegalOutput
      | none => .refuse .truncated
    else if op = 0x91#8 then
      match t with
      | v :: r => if (Instr.rspAvail v).wf then .ok (.rspAvail v) r else .refuse .illegalOutput
      | _ => .refuse .truncated
    else .refuse (.reservedOpcode op)

/-- The decoder of the stimulus stream: an output opcode is refused at that byte (R87). -/
def decodeStimulus : List Byte → DecodeResult
  | [] => .refuse .truncated
  | op :: t =>
    if op = 0x80#8 ∨ op = 0x90#8 ∨ op = 0x91#8 then .refuse .outputAsStimulus
    else decode (op :: t)

/-- The encoder: the bytes of a well-formed record; none for an operation that has no encoding (R91) or is ill-formed. -/
def encode : Instr → Option (List Byte)
  | .reset => some [0x01#8]
  | .tick => some [0x10#8]
  | .ticks n => some [0x11#8, lo8 n, hi8 n]
  | .rxByte b => some [0x20#8, b]
  | .txDone => some [0x21#8]
  | .writeMsg m =>
    if (Instr.writeMsg m).wf then some (0x30#8 :: BitVec.ofNat 8 m.length :: m) else none
  | .readMsg => some [0x31#8]
  | .msgAvail => some [0x32#8]
  | .send b => some [0x80#8, b]
  | .rspMsg m =>
    if (Instr.rspMsg m).wf then some (0x90#8 :: BitVec.ofNat 8 m.length :: m) else none
  | .rspAvail v => if (Instr.rspAvail v).wf then some [0x91#8, v] else none
  | .tConfigure _ _ => none
  | .tRestart _ => none
  | .tStop _ => none
  | .tTick _ => none
  | .qPush _ _ => none
  | .qPop _ => none
  | .qPeek _ => none
  | .qIsEmpty _ => none
  | .rxStore _ => none
  | .onEomFire => none
  | .tryStart => none
  | .sendNext => none
  | .echoCompare _ => none
  | .collision => none
  | .priority _ => none
  | .onColFire => none
  | .validateEcho _ _ _ => none
  | .txComplete => none
  | .giveUp => none
  | .frameEncode _ => none
  | .frameDecode _ => none
  | .hexEncode _ => none
  | .hexDecode _ => none

/-- The bytes of a stream of operations, none if one of them has no encoding. -/
def encodeAll : List Instr → Option (List Byte)
  | [] => some []
  | i :: is =>
    match encode i, encodeAll is with
    | some a, some b => some (a ++ b)
    | _, _ => none

/-- The first `k` bytes of a number, the least significant first. -/
def bytesOf : Nat → Nat → List Byte
  | 0, _ => []
  | k + 1, w => BitVec.ofNat 8 w :: bytesOf k (w / 256)

/-- The longest record: opcode, length byte and 255 bytes (R83). -/
abbrev maxRecordBytes : Nat := 2 + Config.writeMax

/-- The bytes of a table word: bit 0 of the word is the least significant bit of the first byte; bits from `nbits` on are 0. -/
def tableBytes (nbits w : Nat) : List Byte := bytesOf maxRecordBytes (w % 2 ^ nbits)

/-- The operation the record decoder reads from a table word. -/
def decodeTableWord (nbits w : Nat) : Option Instr :=
  match decode (tableBytes nbits w) with
  | .ok i _ => some i
  | .refuse _ => none

end Sys2Proof
end

