-- ==== Sys2Proof/Machine/Params.lean ====
section
/-! DEFINITION. The derived constants of R7. -/

namespace Sys2Proof

/-- `TICK_HZ = BAUD * T` (R7). -/
def Config.tickHz (c : Config) : Nat := Config.baud * c.ticksPerBit

/-- `CHAR_BITS = 1 + DATA_BITS + STOP_BITS`, bit-times per character (R7). -/
def Config.charBits : Nat := 1 + Config.dataBits + Config.stopBits

/-- `EOM_TICKS = EOM_BITS * T` (R7). -/
def Config.eomTicks (c : Config) : Nat := Config.eomBits * c.ticksPerBit

/-- `COLLISION_BITS(p) = EOM_BITS + 2*p` (R7; `EOM_TICKS_IN_BITS` is `EOM_BITS`, 90_conflicts.md C5). -/
def Config.collisionBits (p : Nat) : Nat := Config.eomBits + 2 * p

/-- `COLLISION_TICKS(p) = COLLISION_BITS(p) * T` (R7, R176). -/
def Config.collisionTicks (c : Config) (p : Nat) : Nat := Config.collisionBits p * c.ticksPerBit

/-- The greatest tick count a timer can hold, `2^TIMER_WIDTH - 1` (R6, R110). -/
def Config.maxTicks (c : Config) : Nat := 2 ^ c.timerWidth - 1

/-- The capacity of a queue: `N_IN` or `N_OUT` (R30, R31). -/
def Config.capacity (c : Config) : QueueId → Nat
  | .inq => c.nIn
  | .outq => c.nOut

end Sys2Proof
end

