-- ==== Sys2Proof/Machine/State.lean ====
section
/-! DEFINITION. The state of the block: the record `S` of R20, and beside it the model's own fields (the parameters, the
stimulus stream, the outputs emitted, the value a procedure returned). A cell that "holds no value" (R22, R24, R30; 93_implementation_defined.md
U2) is not held: byte stores are lists of the right length, the queues the lists of their occupied slots. -/

namespace Sys2Proof.Machine

/-- `ST`, the sequencing register (R21). -/
inductive EngineState where
  | idle
  | receiving
  | transmitting
  | collisionWait
deriving DecidableEq, Repr

/-- A BitTimer (R28): `PERIOD`, `CNT`, `RUN`. -/
structure Timer where
  period : Nat
  cnt : Nat
  run : Bool
deriving DecidableEq, Repr

/-- A MessageQueue (R30): the occupied slots, oldest first (the abstract view of R32), and the two indices.
`COUNT` is the length of `content`. DEDUCED (safe, notes/assumptions/7.md). -/
structure Queue where
  content : List ByteSeq
  oldest : Nat
  newest : Nat
deriving DecidableEq, Repr

/-- An output record (R85). -/
inductive Output where
  /-- `SEND b`: byte `b` is handed to the Transport (R125). -/
  | send (b : Byte)
  /-- `RSP_MSG m`: the answer of `READ_MSG`, the empty sequence for "empty" (R196). -/
  | rspMsg (m : ByteSeq)
  /-- `RSP_AVAIL v`: the answer of `MSG_AVAIL` (R197). -/
  | rspAvail (v : Byte)
deriving DecidableEq, Repr

/-- What a procedure or a codec function returns. -/
inductive Result where
  /-- Nothing has been returned yet. -/
  | none
  /-- `T_TICK`, `Q_ISEMPTY`. -/
  | bool (b : Bool)
  /-- `Q_POP`, `Q_PEEK`: a Message, or `empty`. -/
  | message (m : Option ByteSeq)
  /-- `priority`. -/
  | prio (p : Nat)
  /-- `frame_encode`: line values, first in time first. -/
  | line (w : List Bool)
  /-- `frame_decode`. -/
  | byte (b : Byte)
  /-- `hex_encode`. -/
  | text (s : List Char)
  /-- `hex_decode`: a byte sequence, or `reject`. -/
  | bytes (m : Option ByteSeq)
deriving DecidableEq, Repr

/-- The faults of the machine: there is none (R12, R230), so the type has no constructor and no operation can fault. -/
inductive Fault where
deriving DecidableEq, Repr

/-- The refusals of the machine. Each is safe: the machine stops where the spec gives no meaning.
That it stops so is its own convention (DESIGN CHOICE, safe, notes/assumptions/6.md). -/
inductive Refusal where
  /-- Raised by `exec` for an instruction that has no meaning yet; none is left. Safe. -/
  | notModelled (mnemonic : String)
  /-- Raised by `step`: the stimulus stream is ill-formed from here on (R87). Safe. -/
  | illFormedStream (e : DecodeError)
  /-- Raised by `T_CONFIGURE` for a count outside `1..2^TIMER_WIDTH-1` (R110; U6 "refuse"). Safe. -/
  | ticksOutOfRange
  /-- Raised by `Q_PUSH` for an operand that is no Message (R140; U7 "unrepresentable"). Safe. -/
  | notAMessage
  /-- Raised by `RSP_MSG` and `RSP_AVAIL` for an operand no output record can have (R85). Safe. -/
  | illegalOutput
  /-- Raised by `frame_decode` for a sequence that is not ten line values (R129). Safe. -/
  | notACharacter
deriving DecidableEq, Repr

/-- The state. Field names are the spec's in lower case; counts are naturals with their bounds in `State.Inv`
(DEDUCED, safe, notes/assumptions/14.md). -/
structure State where
  /-- The parameters (R6). The model's own field: no operation writes it. -/
  cfg : Config
  /-- `ST` (R21). -/
  st : EngineState
  /-- `RXBUF`: the cells that hold a value, index 0 first (R22). -/
  rxbuf : ByteSeq
  /-- `RXCNT`, 0..22 (R22). -/
  rxcnt : Nat
  /-- `RXTAINT` (R23). -/
  rxtaint : Bool
  /-- `TXVALID` (R24). -/
  txvalid : Bool
  /-- `TXMSG`: the cells that hold a value; its length is `TXLEN` (R24). -/
  txmsg : ByteSeq
  /-- `TXCUR`, 0..21 (R25). -/
  txcur : Nat
  /-- `TXLAST`, 0..20 (R25). -/
  txlast : Nat
  /-- `RETRYCNT`, 0..255 (R27). -/
  retrycnt : Nat
  /-- `EOMT` (R29). -/
  eomt : Timer
  /-- `COLT` (R29). -/
  colt : Timer
  /-- `INQ` (R30). -/
  inq : Queue
  /-- `OUTQ` (R31). -/
  outq : Queue
  /-- The outputs emitted so far, oldest first (R13). The model's own field: the output ports
  (DESIGN CHOICE, safe, notes/assumptions/3.md). -/
  out : List Output
  /-- What the last directly executed procedure or codec function returned. The model's own field
  (DESIGN CHOICE, safe, notes/assumptions/5.md). -/
  ret : Result
  /-- The bytes of the stimulus stream not yet applied (R83). The model's own field: the input ports
  (DESIGN CHOICE, safe, notes/assumptions/2.md). -/
  stim : List Byte
deriving DecidableEq, Repr

/-- An empty queue of capacity `n` after reset: `OLDEST 0`, `NEWEST n-1`, `COUNT 0` (R40). -/
def Queue.empty (n : Nat) : Queue := { content := [], oldest := 0, newest := n - 1 }

/-- The state after reset for parameters `c` (R40), with nothing emitted, returned or waiting.
The cells of `RXBUF` and `TXMSG` and the slots hold no value; `TXCUR` and `TXLAST`, to which R40 gives no value, are 0.
DESIGN CHOICE (unsafe, notes/assumptions/4.md). -/
def State.resetWith (c : Config) : State where
  cfg := c
  st := .idle
  rxbuf := []
  rxcnt := 0
  rxtaint := false
  txvalid := false
  txmsg := []
  txcur := 0
  txlast := 0
  retrycnt := 0
  eomt := { period := c.eomTicks, cnt := 0, run := false }
  colt := { period := c.collisionTicks Config.defaultPrio, cnt := 0, run := false }
  inq := Queue.empty c.nIn
  outq := Queue.empty c.nOut
  out := []
  ret := .none
  stim := []

/-- The state after reset with the reference parameters of R6 (DESIGN CHOICE, unsafe, notes/assumptions/1.md). -/
def State.reset : State := State.resetWith Config.reference

end Sys2Proof.Machine
end

