-- ==== Sys2Proof/Machine/Operands.lean ====
section
/-! DEFINITION. The primitives of R9 over the byte stores of R60 and over timers and queues by name, and `clz8`. -/

namespace Sys2Proof.Machine

/-- A timer by its name (R29). -/
def State.timer (t : TimerId) (s : State) : Timer :=
  match t with
  | .eomt => s.eomt
  | .colt => s.colt

/-- Write of a timer. -/
def State.setTimer (t : TimerId) (v : Timer) (s : State) : State :=
  match t with
  | .eomt => { s with eomt := v }
  | .colt => { s with colt := v }

/-- A queue by its name (R30, R31). -/
def State.queue (q : QueueId) (s : State) : Queue :=
  match q with
  | .inq => s.inq
  | .outq => s.outq

/-- Write of a queue. -/
def State.setQueue (q : QueueId) (v : Queue) (s : State) : State :=
  match q with
  | .inq => { s with inq := v }
  | .outq => { s with outq := v }

/-- `TXLEN` (R24): `txmsg` holds exactly the cells `0..TXLEN-1`. -/
def State.txlen (s : State) : Nat := s.txmsg.length

/-- The Message in the slot of index `k` of a ring of capacity `n`, if the slot is occupied: the occupied slots are
`OLDEST, OLDEST+1, ..., OLDEST+COUNT-1` modulo `n` (R30, R32). -/
def Queue.slot (n : Nat) (q : Queue) (k : Nat) : Option ByteSeq :=
  if k < n ∧ q.oldest < n then q.content[(k + n - q.oldest) % n]? else none

/-- The byte that cell `i` of a store holds, or none where the cell holds no value (R60, U2). -/
def State.cell (st : Store) (i : Nat) (s : State) : Option Byte :=
  match st with
  | .rxbuf => s.rxbuf[i]?
  | .txmsg => s.txmsg[i]?
  | .slot q k => ((s.queue q).slot (s.cfg.capacity q) k).bind fun m => m[i]?

/-- `MemRead(space, i, 1)` (R9). A cell that holds no value reads as the free value (U2). -/
def State.memRead (st : Store) (i : Nat) (s : State) : Byte := (s.cell st i).getD (Config.noValue st i)

/-- `space[0 .. n-1]` (R9). -/
def State.memSlice (st : Store) (n : Nat) (s : State) : ByteSeq := (List.range n).map fun i => s.memRead st i

/-- `RXBUF[i] <- b` (R9), keeping the other cells. -/
def State.writeRxbuf (i : Nat) (b : Byte) (s : State) : State :=
  { s with rxbuf := s.memSlice .rxbuf i ++ b :: s.rxbuf.drop (i + 1) }

/-- The number of leading `false`s. -/
def leadingZeros : List Bool → Nat
  | [] => 0
  | true :: _ => 0
  | false :: t => leadingZeros t + 1

/-- The bits of a byte, bit 0 first. -/
def bitsOf (b : Byte) : List Bool := (List.range 8).map fun i => b.getLsbD i

/-- `clz8(b)`: the leading zero bits, counted from bit 7 downwards (R9). -/
def clz8 (b : Byte) : Nat := leadingZeros (bitsOf b).reverse

end Sys2Proof.Machine
end

