-- ==== Sys2Proof/Machine/Flags.lean ====
section
/-! DEFINITION. The derived signals: no bit is stored for them (R26, R35, R200, R13), and the 2-bit code of `ST` (R82). -/

namespace Sys2Proof.Machine

/-- The 2-bit code of `ST` (R82). -/
def EngineState.code : EngineState → BitVec 2
  | .idle => 0b00#2
  | .receiving => 0b01#2
  | .transmitting => 0b10#2
  | .collisionWait => 0b11#2

/-- `COUNT` (R30, R32). -/
def Queue.count (q : Queue) : Nat := q.content.length

/-- The empty flag of a queue (R35, R143). -/
def Queue.isEmpty (q : Queue) : Bool := q.count == 0

/-- `TXIE`, "transmit-side interrupt enabled" (R26). -/
def State.txie (s : State) : Bool := s.st == .transmitting

/-- The level output `inq_nonempty` (R200). -/
def State.inqNonempty (s : State) : Bool := !s.inq.isEmpty

/-- The block is quiescent (R13). -/
def State.quiescent (s : State) : Bool := s.st == .idle

end Sys2Proof.Machine
end

