-- ==== Sys2Proof/Machine/Ops.lean ====
section
/-! DEFINITION. The internal procedures (R91), each written once from its pseudocode; the meanings of the instructions, the
stimuli among them, call them. Every procedure is total on every state (R39). The block takes no exception and returns from
none (R230, R239, R240), so there is no operation for either.
DESIGN CHOICE (notes/assumptions/8.md): a procedure executed directly off its precondition does what its pseudocode says. Where 91_not_in_source.md
lists a point that a rule states, and in 90_conflicts.md, the rule and the choice are followed (DEDUCED, notes/assumptions/16.md). -/

namespace Sys2Proof.Machine

/-- `emit`: append a record to the outputs (R9, R125). -/
def emit (o : Output) (s : State) : State := { s with out := s.out ++ [o] }

/-- Record what a directly executed procedure returns. -/
def returning (r : Result) (s : State) : State := { s with ret := r }

/-! ## BitTimer -/

/-- `T_CONFIGURE(t, ticks)` (R110). -/
def tConfigure (t : TimerId) (ticks : Nat) (s : State) : State :=
  s.setTimer t { period := ticks, cnt := 0, run := false }

/-- `T_RESTART(t)` (R111). -/
def tRestart (t : TimerId) (s : State) : State :=
  s.setTimer t { s.timer t with cnt := 0, run := true }

/-- `T_STOP(t)` (R112). -/
def tStop (t : TimerId) (s : State) : State :=
  s.setTimer t { s.timer t with cnt := 0, run := false }

/-- The timer expires on this tick (R113). -/
def Timer.expires (t : Timer) : Bool := t.run && t.cnt + 1 == t.period

/-- The timer after one tick (R113). -/
def Timer.ticked (t : Timer) : Timer :=
  if t.run = false then t
  else if t.cnt + 1 = t.period then { t with run := false, cnt := 0 }
  else { t with cnt := t.cnt + 1 }

/-- `T_TICK(t) -> bool` (R113). -/
def tTick (t : TimerId) (s : State) : State × Bool :=
  (s.setTimer t (s.timer t).ticked, (s.timer t).expires)

/-! ## MessageQueue -/

/-- `Q_PUSH` on a ring of capacity `n` (R140). -/
def Queue.push (n : Nat) (m : ByteSeq) (q : Queue) : Queue :=
  if q.count = n then
    { content := q.content.tail ++ [m], oldest := (q.oldest + 1) % n, newest := (q.newest + 1) % n }
  else
    { content := q.content ++ [m], oldest := q.oldest, newest := (q.newest + 1) % n }

/-- `Q_POP` on a ring of capacity `n` (R141). -/
def Queue.pop (n : Nat) (q : Queue) : Option ByteSeq × Queue :=
  match q.content with
  | [] => (none, q)
  | m :: rest => (some m, { q with content := rest, oldest := (q.oldest + 1) % n })

/-- `Q_PEEK` (R142). -/
def Queue.peek (q : Queue) : Option ByteSeq := q.content.head?

/-- `Q_PUSH(Q, m)` (R140). -/
def qPush (q : QueueId) (m : ByteSeq) (s : State) : State :=
  s.setQueue q ((s.queue q).push (s.cfg.capacity q) m)

/-- `Q_POP(Q)` (R141): the Message or `empty`, and the state after. -/
def qPop (q : QueueId) (s : State) : Option ByteSeq × State :=
  (((s.queue q).pop (s.cfg.capacity q)).1, s.setQueue q ((s.queue q).pop (s.cfg.capacity q)).2)

/-! ## Transmit side -/

/-- `send_next()` (R171). -/
def sendNext (s : State) : State :=
  { emit (.send (s.memRead .txmsg s.txcur)) s with txlast := s.txcur, txcur := s.txcur + 1 }

/-- `try_start()` (R170). The Message copied to `TXMSG` fixes `TXLEN`. -/
def tryStart (s : State) : State :=
  if s.st = .idle ∧ s.txvalid = false ∧ s.outq.isEmpty = false then
    match qPop .outq s with
    | (none, _) => s
    | (some m, s1) =>
      sendNext { s1 with txmsg := m, txvalid := true, txcur := 0, retrycnt := 0, st := .transmitting }
  else s

/-- `priority(mid)` (R175) for a priority mode. -/
def priorityOf (mode : PrioMode) (mid : Byte) : Nat :=
  match mode with
  | .fixed => Config.defaultPrio
  | .midClz => max Config.prioMin (min Config.prioMax (clz8 mid + 1))

/-- The session ends: `TXVALID <- 0; RETRYCNT <- 0`, and `TXMSG`, `TXLEN`, `TXCUR`, `TXLAST` hold no value from here on (R179, R24).
They are put at the values they have at reset. DESIGN CHOICE (unsafe, notes/assumptions/4.md). -/
def endSession (s : State) : State :=
  { s with txvalid := false, retrycnt := 0, txmsg := [], txcur := 0, txlast := 0 }

/-- `tx_complete()` (R179). -/
def txComplete (s : State) : State := endSession s

/-- `give_up()` (R180). -/
def giveUp (s : State) : State :=
  { endSession s with st := if s.eomt.run then .receiving else .idle }

/-- `collision()` (R174). -/
def collision (s : State) : State :=
  if s.cfg.retryLimit ≠ 0 ∧ s.retrycnt ≥ s.cfg.retryLimit then giveUp s
  else
    let s1 := { s with retrycnt := if s.cfg.retryLimit ≠ 0 then s.retrycnt + 1 else s.retrycnt }
    let p := priorityOf s.cfg.prioMode (s.memRead .txmsg 0)
    let s2 := tRestart .colt (tConfigure .colt (s.cfg.collisionTicks p) s1)
    { s2 with txcur := 0, st := .collisionWait }

/-- `echo_compare(b)` (R172). -/
def echoCompare (b : Byte) (s : State) : State :=
  if b = s.memRead .txmsg s.txlast then
    if s.txcur < s.txlen then sendNext s else s
  else collision { s with rxtaint := true }

/-- `on_col_fire()` (R177). -/
def onColFire (s : State) : State :=
  if s.st = .collisionWait then sendNext { s with st := .transmitting } else s

/-- `validate_echo(n, taint, frame)` (R178). -/
def validateEcho (n : Nat) (taint : Bool) (frame : ByteSeq) (s : State) : State :=
  if taint = false ∧ n = s.txlen ∧ frame = s.memSlice .txmsg s.txlen then
    { txComplete (qPush .inq frame s) with st := .idle }
  else collision s

/-! ## Receive side -/

/-- `rx_store(b)` (R155). -/
def rxStore (b : Byte) (s : State) : State :=
  let s1 := if s.rxcnt < Config.msgMax then s.writeRxbuf s.rxcnt b else s
  let s2 := { s1 with rxcnt := if s.rxcnt < Config.rxCntMax then s.rxcnt + 1 else s.rxcnt }
  tRestart .eomt s2

/-- Deliver a frame to `INQ` if and only if its length is in 2..21 and it is not tainted; drop any other (R157, R158, R159). -/
def deliver (n : Nat) (taint : Bool) (frame : ByteSeq) (s : State) : State :=
  if validLength n ∧ taint = false then qPush .inq frame s else s

/-- The assembly is emptied and the taint cleared (R157). -/
def clearAssembly (s : State) : State := { s with rxbuf := [], rxcnt := 0, rxtaint := false }

/-- `on_eom_fire()` (R157). -/
def onEomFire (s : State) : State :=
  let n := s.rxcnt
  let taint := s.rxtaint
  let frame := s.memSlice .rxbuf (min n Config.msgMax)
  let s1 := clearAssembly s
  let s2 :=
    match s.st with
    | .receiving => { deliver n taint frame s1 with st := .idle }
    | .collisionWait => deliver n taint frame s1
    | .transmitting => validateEcho n taint frame s1
    | .idle => s1
  tryStart s2

/-- `RX_BYTE b` (R156). -/
def rxByte (b : Byte) (s : State) : State :=
  let s1 := rxStore b s
  match s1.st with
  | .idle => { s1 with st := .receiving }
  | .receiving => s1
  | .transmitting => echoCompare b s1
  | .collisionWait => s1

/-! ## Ticks -/

/-- `TICK` (R115): both timers are advanced, then the fire procedures of those that expired run, `on_eom_fire` first. -/
def tick (s : State) : State :=
  let r1 := tTick .eomt s
  let r2 := tTick .colt r1.1
  let s3 := if r1.2 then onEomFire r2.1 else r2.1
  if r2.2 then onColFire s3 else s3

/-- `n` ticks in a row (R116). -/
def tickN : Nat → State → State
  | 0, s => s
  | n + 1, s => tickN n (tick s)

/-! ## Host boundary and reset -/

/-- `WRITE_MSG m` (R195). -/
def writeMsg (m : ByteSeq) (s : State) : State :=
  if validLength m.length then tryStart (qPush .outq m s) else s

/-- `READ_MSG` (R196). -/
def readMsg (s : State) : State :=
  match qPop .inq s with
  | (none, s1) => emit (.rspMsg []) s1
  | (some m, s1) => emit (.rspMsg m) s1

/-- `MSG_AVAIL` (R197). -/
def msgAvail (s : State) : State :=
  emit (.rspAvail (if s.inq.isEmpty then 0x00#8 else 0x01#8)) s

/-- `RESET` (R198). The parameters, the outputs already emitted, the last returned value and the stimuli still waiting
are no part of `S` and stay. -/
def resetState (s : State) : State :=
  let s1 := { endSession (clearAssembly s) with st := .idle }
  let s2 := tStop .eomt (tConfigure .eomt s.cfg.eomTicks s1)
  let s3 := tStop .colt (tConfigure .colt (s.cfg.collisionTicks Config.defaultPrio) s2)
  { s3 with inq := Queue.empty s.cfg.nIn, outq := Queue.empty s.cfg.nOut }

end Sys2Proof.Machine
end

