-- ==== Sys2Proof/Machine/HostBridge.lean ====
section
/-! DEFINITION. The HostBridge's ASCII-hex framing (46_hostbridge_framing.md): `hex_encode`, `hex_decode`, and what the
HostBridge does with them at the block's boundary (R212, R214). Outside the block: no field of `S` is read or written.
UNVERIFIED (notes/assumptions/11.md): the character codes. DESIGN CHOICE (notes/assumptions/12.md): `hex_encode` runs on any sequence. -/

namespace Sys2Proof.Machine

/-- `digit(v)`: '0'..'9' for 0..9, 'A'..'F' for 10..15 (R210). -/
def hexDigit (v : Nat) : Char := if v < 10 then Char.ofNat (0x30 + v) else Char.ofNat (0x41 + (v - 10))

/-- `hex2(b)`: high nibble first (R210). -/
def hex2 (b : Byte) : List Char := [hexDigit (b.toNat / 16), hexDigit (b.toNat % 16)]

/-- `hex_encode(M)` (R210). -/
def hexEncode (m : ByteSeq) : List Char := '$' :: (m.flatMap hex2 ++ ['*'])

/-- `val(c)` of a hex digit of either case, none for any other character (R211). -/
def hexVal (c : Char) : Option Nat :=
  if 0x30 ≤ c.toNat ∧ c.toNat ≤ 0x39 then some (c.toNat - 0x30)
  else if 0x41 ≤ c.toNat ∧ c.toNat ≤ 0x46 then some (c.toNat - 0x41 + 10)
  else if 0x61 ≤ c.toNat ∧ c.toNat ≤ 0x66 then some (c.toNat - 0x61 + 10)
  else none

/-- The bytes of the interior of a host frame, two digits a byte; none for an odd length or a character that is no hex digit (R211). -/
def hexBody : List Char → Option ByteSeq
  | [] => some []
  | [_] => none
  | a :: b :: t =>
    match hexVal a, hexVal b, hexBody t with
    | some hi, some lo, some r => some (BitVec.ofNat 8 (16 * hi + lo) :: r)
    | _, _, _ => none

/-- `hex_decode(s)`, none for `reject` (R211). -/
def hexDecode (s : List Char) : Option ByteSeq :=
  if s.length < 2 ∨ s.head? ≠ some '$' ∨ s.getLast? ≠ some '*' then none
  else hexBody (s.drop 1).dropLast

/-- `hex_encode(M)` (R210): the frame is what it returns. -/
def execHexEncode (m : ByteSeq) (s : State) : Host.Outcome State Fault Refusal :=
  .next (returning (.text (hexEncode m)) s)

/-- `hex_decode(s)` (R211): the byte sequence, or `reject`, is what it returns. -/
def execHexDecode (w : List Char) (s : State) : Host.Outcome State Fault Refusal :=
  .next (returning (.bytes (hexDecode w)) s)

/-- From the host to the block (R212): the stimulus a host frame causes, none for a rejected frame.
A frame that decodes to more than 255 bytes, which no `WRITE_MSG` record can carry (R86, R195) and which the spec leaves open (U10, N15),
still causes a `WRITE_MSG` of all its bytes, which is dropped for its length. DESIGN CHOICE (safe, notes/assumptions/18.md). -/
def bridgeIn (w : List Char) : Option Instr := (hexDecode w).map .writeMsg

/-- From the block to the host (R214): the frame the HostBridge sends for an answer, none for any other output. -/
def bridgeOut : Output → Option (List Char)
  | .rspMsg (b :: m) => some (hexEncode (b :: m))
  | _ => none

end Sys2Proof.Machine
end

