-- ==== Sys2Proof/Machine/HostOps.lean ====
section
/-! DEFINITION. The host boundary and reset (45_host_ops.md): `WRITE_MSG`, `READ_MSG`, `MSG_AVAIL`, `RESET`, and the two
answers `RSP_MSG`, `RSP_AVAIL`. -/

namespace Sys2Proof.Machine

/-- `WRITE_MSG m` (R195): any length; one outside 2..21 is dropped. -/
def execWriteMsg (m : ByteSeq) (s : State) : Host.Outcome State Fault Refusal :=
  .next (writeMsg m s)

/-- `READ_MSG` (R196). -/
def execReadMsg (s : State) : Host.Outcome State Fault Refusal :=
  .next (readMsg s)

/-- `MSG_AVAIL` (R197). -/
def execMsgAvail (s : State) : Host.Outcome State Fault Refusal :=
  .next (msgAvail s)

/-- `RESET` (R198). -/
def execReset (s : State) : Host.Outcome State Fault Refusal :=
  .next (resetState s)

/-- `RSP_MSG m`: the record is appended to the outputs (R85, R196); an operand the block never produces is illegal (R85). -/
def execRspMsg (m : ByteSeq) (s : State) : Host.Outcome State Fault Refusal :=
  if m.length = 0 ∨ validLength m.length then .next (emit (.rspMsg m) s) else .refused .illegalOutput

/-- `RSP_AVAIL v`: the record is appended to the outputs (R85, R197); `v` above 1 is illegal (R85). -/
def execRspAvail (v : Byte) (s : State) : Host.Outcome State Fault Refusal :=
  if v.toNat ≤ 1 then .next (emit (.rspAvail v) s) else .refused .illegalOutput

end Sys2Proof.Machine
end

