-- ==== Sys2Proof/Machine/Queues.lean ====
section
/-! DEFINITION. The MessageQueue operations (42_msgqueue.md): `Q_PUSH`, `Q_POP`, `Q_PEEK`, `Q_ISEMPTY`. -/

namespace Sys2Proof.Machine

/-- `Q_PUSH(Q, m)` (R140): the operand is a Message; any other sequence is refused (U7). -/
def execQPush (q : QueueId) (m : ByteSeq) (s : State) : Host.Outcome State Fault Refusal :=
  if validLength m.length then .next (qPush q m s) else .refused .notAMessage

/-- `Q_POP(Q) -> Message | empty` (R141). -/
def execQPop (q : QueueId) (s : State) : Host.Outcome State Fault Refusal :=
  .next (returning (.message (qPop q s).1) (qPop q s).2)

/-- `Q_PEEK(Q) -> Message | empty` (R142). -/
def execQPeek (q : QueueId) (s : State) : Host.Outcome State Fault Refusal :=
  .next (returning (.message (s.queue q).peek) s)

/-- `Q_ISEMPTY(Q) -> bool` (R143). -/
def execQIsEmpty (q : QueueId) (s : State) : Host.Outcome State Fault Refusal :=
  .next (returning (.bool (s.queue q).isEmpty) s)

end Sys2Proof.Machine
end

