-- ==== Sys2Proof/Machine/Receive.lean ====
section
/-! DEFINITION. The receive side (43_engine_rx.md): `RX_BYTE`, `rx_store`, `on_eom_fire`. -/

namespace Sys2Proof.Machine

/-- `RX_BYTE b` (R156). -/
def execRxByte (b : Byte) (s : State) : Host.Outcome State Fault Refusal :=
  .next (rxByte b s)

/-- `rx_store(b)` (R155). -/
def execRxStore (b : Byte) (s : State) : Host.Outcome State Fault Refusal :=
  .next (rxStore b s)

/-- `on_eom_fire()` (R157). -/
def execOnEomFire (s : State) : Host.Outcome State Fault Refusal :=
  .next (onEomFire s)

end Sys2Proof.Machine
end

