-- ==== Sys2Proof/Machine/Timers.lean ====
section
/-! DEFINITION. The BitTimer operations (40_bittimer.md): `T_CONFIGURE`, `T_RESTART`, `T_STOP`, `T_TICK`, `TICK`, `TICKS`. -/

namespace Sys2Proof.Machine

/-- `T_CONFIGURE(t, ticks)` (R110): a count outside `1..2^TIMER_WIDTH-1` is refused (U6). -/
def execTConfigure (t : TimerId) (k : Nat) (s : State) : Host.Outcome State Fault Refusal :=
  if 1 ≤ k ∧ k ≤ s.cfg.maxTicks then .next (tConfigure t k s) else .refused .ticksOutOfRange

/-- `T_RESTART(t)` (R111). -/
def execTRestart (t : TimerId) (s : State) : Host.Outcome State Fault Refusal :=
  .next (tRestart t s)

/-- `T_STOP(t)` (R112). -/
def execTStop (t : TimerId) (s : State) : Host.Outcome State Fault Refusal :=
  .next (tStop t s)

/-- `T_TICK(t) -> bool` (R113). -/
def execTTick (t : TimerId) (s : State) : Host.Outcome State Fault Refusal :=
  .next (returning (.bool (tTick t s).2) (tTick t s).1)

/-- `TICK` (R115). -/
def execTick (s : State) : Host.Outcome State Fault Refusal :=
  .next (tick s)

/-- `TICKS n` (R116). -/
def execTicks (n : BitVec 16) (s : State) : Host.Outcome State Fault Refusal :=
  .next (tickN n.toNat s)

end Sys2Proof.Machine
end

