-- ==== Sys2Proof/Machine/Transmit.lean ====
section
/-! DEFINITION. The transmit side (44_engine_tx.md): `try_start`, `send_next`, `echo_compare`, `collision`, `priority`,
`on_col_fire`, `validate_echo`, `tx_complete`, `give_up`. -/

namespace Sys2Proof.Machine

/-- `try_start()` (R170). -/
def execTryStart (s : State) : Host.Outcome State Fault Refusal :=
  .next (tryStart s)

/-- `send_next()` (R171). -/
def execSendNext (s : State) : Host.Outcome State Fault Refusal :=
  .next (sendNext s)

/-- `echo_compare(b)` (R172). -/
def execEchoCompare (b : Byte) (s : State) : Host.Outcome State Fault Refusal :=
  .next (echoCompare b s)

/-- `collision()` (R174). -/
def execCollision (s : State) : Host.Outcome State Fault Refusal :=
  .next (collision s)

/-- `priority(mid) -> 1..8` (R175). -/
def execPriority (mid : Byte) (s : State) : Host.Outcome State Fault Refusal :=
  .next (returning (.prio (priorityOf s.cfg.prioMode mid)) s)

/-- `on_col_fire()` (R177). -/
def execOnColFire (s : State) : Host.Outcome State Fault Refusal :=
  .next (onColFire s)

/-- `validate_echo(n, taint, frame)` (R178). -/
def execValidateEcho (n : Nat) (taint : Bool) (frame : ByteSeq) (s : State) : Host.Outcome State Fault Refusal :=
  .next (validateEcho n taint frame s)

/-- `tx_complete()` (R179). -/
def execTxComplete (s : State) : Host.Outcome State Fault Refusal :=
  .next (txComplete s)

/-- `give_up()` (R180). -/
def execGiveUp (s : State) : Host.Outcome State Fault Refusal :=
  .next (giveUp s)

end Sys2Proof.Machine
end

