-- ==== Sys2Proof/Machine/Transport.lean ====
section
/-! DEFINITION. The Transport's operations (41_transport.md): `SEND`, `TX_DONE`, the character codec, and
what the Transport does with it at the block's boundary (R126, R129).
UNVERIFIED (unsafe for claims about the codec, notes/assumptions/11.md): the levels and the order of the bits (R81).
DESIGN CHOICE (notes/assumptions/12.md): the codec runs on every operand its formula can be applied to. -/

namespace Sys2Proof.Machine

/-- `SEND b`: the record is appended to the outputs; no field of `S` changes (R125). -/
def execSend (b : Byte) (s : State) : Host.Outcome State Fault Refusal :=
  .next (emit (.send b) s)

/-- `TX_DONE`: nothing, in every state (R127; 90_conflicts.md C1). -/
def execTxDone (s : State) : Host.Outcome State Fault Refusal :=
  .next s

/-- The level at which the line rests when no character is on it: the mark, logic 1 (R62, R81, R128). -/
def idleLevel : Bool := true

/-- `frame_encode(b)`: start bit 0, the data bits least significant first, stop bit 1 (R128). -/
def frameEncode (b : Byte) : List Bool := false :: bitsOf b ++ [true]

/-- The number whose bits are given, the least significant first. -/
def natOfBits : List Bool → Nat
  | [] => 0
  | b :: t => b.toNat + 2 * natOfBits t

/-- `frame_decode(w)`: the sum of `w[i+1] * 2^i` for `i` in 0..7, whatever the stop bit (R129). -/
def frameDecode (w : List Bool) : Byte := BitVec.ofNat 8 (natOfBits ((w.drop 1).take 8))

/-- From the wire to the block (R126, R129): the stimulus the Transport issues for ten sampled line values that begin at a start bit,
`RX_BYTE frame_decode(w)` whatever the stop bit; none for any other sequence, which is no character. -/
def lineIn (w : List Bool) : Option Instr :=
  if w.length = Config.charBits ∧ w.head? = some false then some (.rxByte (frameDecode w)) else none

/-- From the block to the wire (R125, R128): the line values of the character sent for a `SEND`, none for an answer to the host. -/
def lineOut : Output → Option (List Bool)
  | .send b => some (frameEncode b)
  | .rspMsg _ => none
  | .rspAvail _ => none

/-- The line, one value a bit-time, when characters are sent: before each the line rests for the given number of bit-times, which may be 0
(R62, R128). -/
def lineWave : List (Nat × Byte) → List Bool
  | [] => []
  | (n, b) :: cs => List.replicate n idleLevel ++ (frameEncode b ++ lineWave cs)

/-- What a Transport makes of the line: the stimuli it issues, and the values to which it gives no meaning. -/
structure LineRead where
  stimuli : List Instr
  rest : List Bool
deriving DecidableEq, Repr

/-- Reading the line, one value a bit-time: the idle level is passed over, the first other value is a start bit, and the ten values from
there are a character (R62, R129). `got` is the character under way, empty between characters. A character whose stop bit is at the idle
level is followed by the line at rest or the next start bit (R128); one whose stop bit is not is still delivered, and as where a receiver
resynchronises then is open (R129, U4), nothing is read after it. DESIGN CHOICE (safe, notes/assumptions/19.md). -/
def lineRead (got : List Bool) : List Bool → LineRead
  | [] => { stimuli := [], rest := got }
  | v :: ws =>
    if got = [] ∧ v = idleLevel then lineRead [] ws
    else if got.length + 1 < Config.charBits then lineRead (got ++ [v]) ws
    else if v = idleLevel then
      { lineRead [] ws with stimuli := (lineIn (got ++ [v])).toList ++ (lineRead [] ws).stimuli }
    else { stimuli := (lineIn (got ++ [v])).toList, rest := ws }

/-- `frame_encode(b)` (R128): pure; the line values are what it returns. -/
def execFrameEncode (b : Byte) (s : State) : Host.Outcome State Fault Refusal :=
  .next (returning (.line (frameEncode b)) s)

/-- `frame_decode(w)` (R129): pure; the stimulus that follows it is `lineIn`. The formula needs ten line values; it does not read `w[0]` or
`w[9]`. -/
def execFrameDecode (w : List Bool) (s : State) : Host.Outcome State Fault Refusal :=
  if w.length = 10 then .next (returning (.byte (frameDecode w)) s) else .refused .notACharacter

end Sys2Proof.Machine
end

