-- ==== Sys2Proof/Machine/Dispatch.lean ====
section
/-! DEFINITION. The meaning of every operation, one arm per constructor of Instr. -/

namespace Sys2Proof.Machine

def exec (i : Instr) (s : State) : Host.Outcome State Fault Refusal :=
  match i with
  -- stimuli (R84)
  | .reset => Sys2Proof.Machine.execReset s
  | .tick => Sys2Proof.Machine.execTick s
  | .ticks n => Sys2Proof.Machine.execTicks n s
  | .rxByte b => Sys2Proof.Machine.execRxByte b s
  | .txDone => Sys2Proof.Machine.execTxDone s
  | .writeMsg m => Sys2Proof.Machine.execWriteMsg m s
  | .readMsg => Sys2Proof.Machine.execReadMsg s
  | .msgAvail => Sys2Proof.Machine.execMsgAvail s
  -- outputs (R85)
  | .send b => Sys2Proof.Machine.execSend b s
  | .rspMsg m => Sys2Proof.Machine.execRspMsg m s
  | .rspAvail v => Sys2Proof.Machine.execRspAvail v s
  -- internal procedures (R91)
  | .tConfigure t k => Sys2Proof.Machine.execTConfigure t k s
  | .tRestart t => Sys2Proof.Machine.execTRestart t s
  | .tStop t => Sys2Proof.Machine.execTStop t s
  | .tTick t => Sys2Proof.Machine.execTTick t s
  | .qPush q m => Sys2Proof.Machine.execQPush q m s
  | .qPop q => Sys2Proof.Machine.execQPop q s
  | .qPeek q => Sys2Proof.Machine.execQPeek q s
  | .qIsEmpty q => Sys2Proof.Machine.execQIsEmpty q s
  | .rxStore b => Sys2Proof.Machine.execRxStore b s
  | .onEomFire => Sys2Proof.Machine.execOnEomFire s
  | .tryStart => Sys2Proof.Machine.execTryStart s
  | .sendNext => Sys2Proof.Machine.execSendNext s
  | .echoCompare b => Sys2Proof.Machine.execEchoCompare b s
  | .collision => Sys2Proof.Machine.execCollision s
  | .priority mid => Sys2Proof.Machine.execPriority mid s
  | .onColFire => Sys2Proof.Machine.execOnColFire s
  | .validateEcho n taint frame => Sys2Proof.Machine.execValidateEcho n taint frame s
  | .txComplete => Sys2Proof.Machine.execTxComplete s
  | .giveUp => Sys2Proof.Machine.execGiveUp s
  -- codec functions of the collaborators (R91)
  | .frameEncode b => Sys2Proof.Machine.execFrameEncode b s
  | .frameDecode w => Sys2Proof.Machine.execFrameDecode w s
  | .hexEncode m => Sys2Proof.Machine.execHexEncode m s
  | .hexDecode w => Sys2Proof.Machine.execHexDecode w s

end Sys2Proof.Machine
end

