-- ==== Sys2Proof/Machine/Fetch.lean ====
section
/-! DEFINITION. Where the next stimulus comes from: the stream `stim` (R83, R87, R88), one operation at a time (R10). -/

namespace Sys2Proof.Machine

/-- What the stimulus stream offers next. -/
def fetch (s : State) : DecodeResult := decodeStimulus s.stim

/-- The bytes of the record at the head of a byte list; the whole list where no record stands there. -/
def recordAtHead (bs : List Byte) : List Byte :=
  match decode bs with
  | .ok _ rest => bs.take (bs.length - rest.length)
  | .refuse _ => bs

/-- Offer bytes as the next stimulus, before those already waiting. -/
def offer (bs : List Byte) (s : State) : State := { s with stim := bs ++ s.stim }

/-- One operation of the block: with no stimulus waiting nothing happens (R10, R247); a stream the decoder refuses is refused
and left as it is (R87); else the stimulus at its head is taken and applied. -/
def applyNext (s : State) : Host.Outcome State Fault Refusal :=
  if s.stim = [] then .next s
  else
    match fetch s with
    | .ok i rest => exec i { s with stim := rest }
    | .refuse e => .refused (.illFormedStream e)

/-- A list of operations applied one after another, stopping at the first that does not answer a next state (R10, R68). -/
def execAll : List Instr → State → Host.Outcome State Fault Refusal
  | [], s => .next s
  | i :: is, s =>
    match exec i s with
    | .next t => execAll is t
    | .fault e => .fault e
    | .refused e => .refused e

end Sys2Proof.Machine
end

