-- ==== Sys2Proof/Machine/Step.lean ====
section
/-! DEFINITION. One step: one operation taken from the stimulus stream and applied to the whole state (R10, R12). -/

namespace Sys2Proof.Machine

/-- One step of the machine (Machine/Fetch.lean says what it does). -/
def step (s : State) : Host.Outcome State Fault Refusal := applyNext s

/-- `s` with the record of a table word offered as the next stimulus (notes/assumptions/2.md). -/
def State.withFetchWord (s : State) (nbits w : Nat) : State := offer (recordAtHead (tableBytes nbits w)) s

end Sys2Proof.Machine
end

