-- ==== Sys2Proof/Machine/Instant.lean ====
section
/-! DEFINITION. Stimuli that fall at the same instant and the order in which they are applied (R70, R238), the macros of the
test syntax (R90; notes/assumptions/13.md) and the test Transports, loopback and faulting (R133; notes/assumptions/17.md). DEDUCED (safe, notes/assumptions/15.md). -/

namespace Sys2Proof.Machine

/-- The operations the host can apply; it issues one at a time (R238, U12). -/
inductive HostOp where
  | write (m : ByteSeq)
  | read
  | avail
deriving DecidableEq, Repr

/-- The stimuli presented at one instant, at most one of each kind (R238, U12). -/
structure Instant where
  reset : Bool := false
  rx : Option Byte := none
  txDone : Bool := false
  tick : Bool := false
  host : Option HostOp := none
deriving DecidableEq, Repr

/-- The stimulus of a host operation. -/
def HostOp.stimulus : HostOp → Instr
  | .write m => .writeMsg m
  | .read => .readMsg
  | .avail => .msgAvail

/-- The order in which the stimuli of one instant are applied: `RESET`, `RX_BYTE`, `TX_DONE`, `TICK`, the host operation (R238). -/
def Instant.order (n : Instant) : List Instr :=
  (if n.reset then [.reset] else []) ++ (n.rx.map .rxByte).toList ++ (if n.txDone then [.txDone] else [])
    ++ (if n.tick then [.tick] else []) ++ (n.host.map HostOp.stimulus).toList

/-- All stimuli of one instant, applied one after another (R70, R238). -/
def applyInstant (n : Instant) (s : State) : Host.Outcome State Fault Refusal := execAll n.order s

/-- `n` ticks as stimuli: `TICKS n`, in pieces where `n` does not fit its 16-bit operand (R86, R116). -/
def ticksOf (n : Nat) : List Instr :=
  List.replicate (n / 65535) (.ticks 65535#16) ++ [.ticks (BitVec.ofNat 16 (n % 65535))]

/-- The macro `GAP k`: `k` bit-times pass (R90). -/
def macroGap (c : Config) (k : Nat) : List Instr := ticksOf (k * c.ticksPerBit)

/-- The macro `ECHO b` (R90). -/
def macroEcho (c : Config) (b : Byte) : List Instr := macroGap c Config.charBits ++ [.rxByte b, .txDone]

/-- The macro `FRAME b0 .. bk`: a foreign frame arrives back to back (R90). -/
def macroFrame (c : Config) : List Byte → List Instr
  | [] => []
  | [b] => [.rxByte b]
  | b :: t => .rxByte b :: (macroGap c Config.charBits ++ macroFrame c t)

/-- The macro `EOM` (R90). -/
def macroEom (c : Config) : List Instr := macroGap c Config.eomBits

/-- The macro `BACKOFF p` (R90). -/
def macroBackoff (c : Config) (p : Nat) : List Instr := ticksOf (c.collisionTicks p)

/-! ## Test Transports (R133): environment, no part of the state -/

/-- What the loopback Transport answers to an output: the echo and the transmit-complete of every `SEND`, and nothing else (R133). -/
def loopback : Output → List Instr
  | .send b => [.rxByte b, .txDone]
  | .rspMsg _ => []
  | .rspAvail _ => []

/-- The echo of the `SEND` of number `k` (from 0) for a list of replaced echoes: the value the list gives for `k`, else the byte sent
(R126, R133). -/
def echoOf (faults : List (Nat × Byte)) (k : Nat) (b : Byte) : Byte := (faults.lookup k).getD b

/-- What the faulting Transport answers to the outputs of an operation, `k` `SEND`s having come before: it is the loopback with the chosen
echoes replaced by other values (R133). -/
def faulting (faults : List (Nat × Byte)) : Nat → List Output → List Instr
  | _, [] => []
  | k, .send b :: os => loopback (.send (echoOf faults k b)) ++ faulting faults (k + 1) os
  | k, .rspMsg _ :: os => faulting faults k os
  | k, .rspAvail _ :: os => faulting faults k os

/-- The number of `SEND`s among some outputs. -/
def sendCount : List Output → Nat
  | [] => 0
  | .send _ :: os => sendCount os + 1
  | .rspMsg _ :: os => sendCount os
  | .rspAvail _ :: os => sendCount os

/-- A test run of the block with a simulated Transport (R133): the replaced echoes, the `SEND`s that have come, the Transport's answers not
yet applied, the stimuli of the script not yet applied, the block. -/
structure TestRun where
  faults : List (Nat × Byte) := []
  sends : Nat := 0
  pending : List Instr := []
  script : List Instr
  state : State
deriving DecidableEq, Repr

/-- The stimulus that comes next, and the run without it: the Transport's oldest answer, else the script's next stimulus. -/
def TestRun.next? (r : TestRun) : Option (Instr × TestRun) :=
  match r.pending, r.script with
  | i :: ps, _ => some (i, { r with pending := ps })
  | [], i :: is => some (i, { r with script := is })
  | [], [] => none

/-- The run after an operation led the block to `t`: the Transport answers the outputs it emitted. -/
def TestRun.answered (t : State) (r : TestRun) : TestRun :=
  { r with
    sends := r.sends + sendCount (t.out.drop r.state.out.length)
    pending := r.pending ++ faulting r.faults r.sends (t.out.drop r.state.out.length)
    state := t }

/-- The first `n` stimuli of a test run; fewer if no more come. -/
def TestRun.run : Nat → TestRun → Host.Outcome TestRun Fault Refusal
  | 0, r => .next r
  | n + 1, r =>
    match r.next? with
    | none => .next r
    | some (i, r') =>
      match exec i r.state with
      | .next t => TestRun.run n (r'.answered t)
      | .fault e => .fault e
      | .refused e => .refused e

end Sys2Proof.Machine
end

