-- ==== Sys2Proof/Safety.lean ====
section
/-! DEFINITION. What a good state is (the invariants V1 to V11 of R39 and the legal values of R20), what runs are, and the
anomaly classes of R231. -/

namespace Sys2Proof.Machine

/-! ## The invariants of R39 -/

/-- V1. -/
abbrev State.V1 (s : State) : Prop :=
  (s.eomt.run = false ↔ s.rxcnt = 0) ∧ (s.eomt.run = false → s.rxtaint = false)

/-- V2. -/
abbrev State.V2 (s : State) : Prop :=
  s.txvalid = true ↔ s.st = .transmitting ∨ s.st = .collisionWait

/-- V3. -/
abbrev State.V3 (s : State) : Prop := s.colt.run = true ↔ s.st = .collisionWait

/-- V4. -/
abbrev State.V4 (s : State) : Prop :=
  s.st = .idle → s.rxcnt = 0 ∧ s.rxtaint = false ∧ s.eomt.run = false ∧ s.colt.run = false ∧
    s.txvalid = false ∧ s.outq.count = 0

/-- V5. -/
abbrev State.V5 (s : State) : Prop :=
  s.st = .receiving → s.eomt.run = true ∧ 1 ≤ s.rxcnt ∧ s.txvalid = false

/-- V6. -/
abbrev State.V6 (s : State) : Prop :=
  s.st = .transmitting →
    1 ≤ s.txcur ∧ s.txcur ≤ s.txlen ∧ s.txlast = s.txcur - 1 ∧ 2 ≤ s.txlen ∧ s.txlen ≤ 21

/-- V7. -/
abbrev State.V7 (s : State) : Prop :=
  s.st = .collisionWait →
    s.txcur = 0 ∧ s.colt.period = s.cfg.collisionTicks (priorityOf s.cfg.prioMode (s.memRead .txmsg 0))

/-- V8. -/
abbrev State.V8 (s : State) : Prop :=
  (s.eomt.cnt < s.eomt.period ∧ (s.eomt.run = false → s.eomt.cnt = 0)) ∧
  (s.colt.cnt < s.colt.period ∧ (s.colt.run = false → s.colt.cnt = 0)) ∧
  s.eomt.period = s.cfg.eomTicks

/-- V9 for one queue of capacity `n`. -/
abbrev Queue.V9 (n : Nat) (q : Queue) : Prop :=
  q.count ≤ n ∧
  (0 < q.count → q.newest = (q.oldest + q.count - 1) % n) ∧
  (q.count = 0 → q.newest = (q.oldest + n - 1) % n) ∧
  ∀ m ∈ q.content, validLength m.length

/-- V9. -/
abbrev State.V9 (s : State) : Prop := s.inq.V9 s.cfg.nIn ∧ s.outq.V9 s.cfg.nOut

/-- V10. -/
abbrev State.V10 (s : State) : Prop := s.rxtaint = true → 1 ≤ s.rxcnt

/-- V11. -/
abbrev State.V11 (s : State) : Prop :=
  (s.cfg.retryLimit = 0 → s.retrycnt = 0) ∧ (s.cfg.retryLimit ≠ 0 → s.retrycnt ≤ s.cfg.retryLimit)

/-- The canonical form of the byte stores: exactly the cells that hold a value are held, and counts are in range
(R20, R22, R24, R30; U2). -/
abbrev State.storesWf (s : State) : Prop :=
  s.rxcnt ≤ 22 ∧ s.rxbuf.length = min s.rxcnt 21 ∧
  (s.txvalid = true → validLength s.txlen ∧ s.txlast < s.txlen) ∧
  (s.txvalid = false → s.txmsg = [] ∧ s.txcur = 0 ∧ s.txlast = 0) ∧
  s.txcur ≤ 21 ∧
  s.inq.oldest < s.cfg.nIn ∧ s.inq.newest < s.cfg.nIn ∧
  s.outq.oldest < s.cfg.nOut ∧ s.outq.newest < s.cfg.nOut

/-- The timers' periods fit their width (R20, R28). -/
abbrev State.periodsFit (s : State) : Prop :=
  s.eomt.period ≤ s.cfg.maxTicks ∧ s.colt.period ≤ s.cfg.maxTicks

/-- The invariant of the block: V1 to V11 (R39), the legal values and canonical form of the stores (R20, U2), the width of the
timers (R20, R28). -/
structure State.Inv (s : State) : Prop where
  v1 : s.V1
  v2 : s.V2
  v3 : s.V3
  v4 : s.V4
  v5 : s.V5
  v6 : s.V6
  v7 : s.V7
  v8 : s.V8
  v9 : s.V9
  v10 : s.V10
  v11 : s.V11
  stores : s.storesWf
  periods : s.periodsFit

/-! ## Runs -/

/-- The state `n` steps after reset with parameters `c`, the stimulus stream `bs` offered. -/
def runFromReset (c : Config) (bs : List Byte) (n : Nat) : Host.Outcome State Fault Refusal :=
  Sys2Proof.core.run n (offer bs (State.resetWith c))

/-- The stream is well-formed as far as it goes: the machine does not refuse it at its next step (R87). -/
def State.streamOk (s : State) : Prop := s.stim = [] ∨ ∃ i rest, fetch s = .ok i rest

/-! ## Anomaly classes (R231): names for a reader or an event log; the hardware stores none of them -/

/-- The classes. -/
inductive Anomaly where
  | malformedFrame
  | collision
  | queueOverflow
  | invalidHostFrame
  | taintedFrame
  | giveUp
deriving DecidableEq, Repr

/-- The class codes 1 to 4 of the source; (2a) and (2b) belong to class 2 (R231). -/
def Anomaly.code : Anomaly → Nat
  | .malformedFrame => 1
  | .collision => 2
  | .queueOverflow => 3
  | .invalidHostFrame => 4
  | .taintedFrame => 2
  | .giveUp => 2

/-- A frame of illegal length is dropped at this EOM fire (class 1). -/
def State.malformedAtFire (s : State) : Prop :=
  (s.st = .receiving ∨ s.st = .collisionWait) ∧ ¬ validLength s.rxcnt

/-- A tainted frame is dropped at this EOM fire (class 2a). -/
def State.taintedAtFire (s : State) : Prop := s.rxtaint = true

/-- Byte `b` is a byte-level collision (class 2). -/
def State.collidesAtByte (b : Byte) (s : State) : Prop :=
  s.st = .transmitting ∧ b ≠ s.memRead .txmsg s.txlast

/-- This EOM fire is a frame-level collision (class 2). -/
def State.collidesAtFire (s : State) : Prop :=
  s.st = .transmitting ∧
    ¬ (s.rxtaint = false ∧ s.rxcnt = s.txlen ∧ s.memSlice .rxbuf (min s.rxcnt 21) = s.memSlice .txmsg s.txlen)

/-- A collision now abandons the Message (class 2b). -/
def State.givesUp (s : State) : Prop := s.cfg.retryLimit ≠ 0 ∧ s.cfg.retryLimit ≤ s.retrycnt

/-- A push on this queue evicts its oldest entry (class 3). -/
def State.overflows (q : QueueId) (s : State) : Prop := (s.queue q).count = s.cfg.capacity q

/-- This `WRITE_MSG` is dropped for its length (class 4). -/
def invalidWrite (m : ByteSeq) : Prop := ¬ validLength m.length

/-- This host frame is rejected (class 4). -/
def invalidFrame (w : List Char) : Prop := hexDecode w = none

end Sys2Proof.Machine
end

