-- ==== Sys2Proof/Certificates/Slice0/Obligations.lean ====
section
/-! DEFINITION. The statements for the provers. Each docstring names the rules it formalises; a convention of the model's that a
statement rests on is named with its log entry. Everywhere, emitted records stand at the end of `out` (log entry 3), a procedure's result stands
in `ret` (log entry 5), the parameters in `cfg` (log entry 1), the waiting stimuli in `stim` (log entry 2). -/

section
open Sys2Proof Sys2Proof.Machine

/-! ## Encoding -/

/-- Every well-formed record (stimulus or output) encodes, and its bytes, whatever follows them, decode to it; a stimulus also
through the stimulus decoder (R83 to R88). -/
def Obligations.DecodeOfEncode : Prop :=
  ∀ i : Instr, i.isRecord → i.wf →
    ∃ bs, encode i = some bs ∧ ∀ rest, decode (bs ++ rest) = .ok i rest ∧
      (i.isStimulus → decodeStimulus (bs ++ rest) = .ok i rest)

/-- Whatever the record decoder accepts is a well-formed record, and the bytes it took are exactly that record's encoding (R83 to
R88): no two byte strings stand for one operation and none for two. -/
def Obligations.EncodeOfDecode : Prop :=
  ∀ (bs rest : List Byte) (i : Instr), decode bs = .ok i rest →
    i.isRecord ∧ i.wf ∧ ∃ e, encode i = some e ∧ bs = e ++ rest

/-- R87: reserved opcode bytes, output opcodes and a stream that ends inside an operation are refused at that point, and no
stimulus is refused for an operand value. -/
def Obligations.IllFormedStreamsAreRefused : Prop :=
  (∀ (s : State) (op : Byte) (t : List Byte),
      op ∉ [0x01#8, 0x10#8, 0x11#8, 0x20#8, 0x21#8, 0x30#8, 0x31#8, 0x32#8, 0x80#8, 0x90#8, 0x91#8] →
      s.stim = op :: t → step s = .refused (.illFormedStream (.reservedOpcode op))) ∧
  (∀ (s : State) (op : Byte) (t : List Byte), op ∈ [0x80#8, 0x90#8, 0x91#8] →
      s.stim = op :: t → step s = .refused (.illFormedStream .outputAsStimulus)) ∧
  (∀ (s : State) (i : Instr) (e : List Byte), i.isStimulus → encode i = some e →
      s.stim <+: e → s.stim ≠ [] → s.stim ≠ e → step s = .refused (.illFormedStream .truncated)) ∧
  (∀ (s : State) (i : Instr), i.isStimulus → i.wf → ∃ t, exec i s = .next t) ∧
  (∀ s : State, exec (.ticks 0#16) s = .next s)

/-- Words written out from the tables of R84 and R85: the vectors E1 to E16 of 95_test_vectors.md in their order, and last the word of the
example of R196. -/
def Obligations.WrittenWordsDecode : Prop :=
  decode [0x01#8] = .ok .reset [] ∧ decode [0x10#8] = .ok .tick [] ∧
  decode [0x11#8, 0x0B#8, 0x00#8] = .ok (.ticks 11#16) [] ∧ decode [0x11#8, 0x2C#8, 0x01#8] = .ok (.ticks 300#16) [] ∧
  decode [0x11#8, 0x00#8, 0x00#8] = .ok (.ticks 0#16) [] ∧ decode [0x11#8, 0xFF#8, 0xFF#8] = .ok (.ticks 65535#16) [] ∧
  decode [0x20#8, 0xA8#8] = .ok (.rxByte 0xA8#8) [] ∧ decode [0x21#8] = .ok .txDone [] ∧
  decode [0x30#8, 0x03#8, 0x01#8, 0xAA#8, 0xBB#8] = .ok (.writeMsg [0x01#8, 0xAA#8, 0xBB#8]) [] ∧
  decode [0x30#8, 0x00#8] = .ok (.writeMsg []) [] ∧
  decode [0x30#8, 0x15#8, 0x10#8, 0x11#8, 0x12#8, 0x13#8, 0x14#8, 0x15#8, 0x16#8, 0x17#8, 0x18#8, 0x19#8, 0x1A#8, 0x1B#8, 0x1C#8,
      0x1D#8, 0x1E#8, 0x1F#8, 0x20#8, 0x21#8, 0x22#8, 0x23#8, 0x24#8] =
    .ok (.writeMsg [0x10#8, 0x11#8, 0x12#8, 0x13#8, 0x14#8, 0x15#8, 0x16#8, 0x17#8, 0x18#8, 0x19#8, 0x1A#8, 0x1B#8, 0x1C#8,
      0x1D#8, 0x1E#8, 0x1F#8, 0x20#8, 0x21#8, 0x22#8, 0x23#8, 0x24#8]) [] ∧
  decode [0x31#8] = .ok .readMsg [] ∧ decode [0x32#8] = .ok .msgAvail [] ∧
  decode [0x80#8, 0xAA#8] = .ok (.send 0xAA#8) [] ∧
  decode [0x90#8, 0x03#8, 0x01#8, 0xAA#8, 0xBB#8] = .ok (.rspMsg [0x01#8, 0xAA#8, 0xBB#8]) [] ∧
  decode [0x90#8, 0x00#8] = .ok (.rspMsg []) [] ∧
  decode [0x91#8, 0x01#8] = .ok (.rspAvail 0x01#8) [] ∧ decode [0x91#8, 0x00#8] = .ok (.rspAvail 0x00#8) [] ∧
  decode [0x90#8, 0x02#8, 0x80#8, 0x01#8] = .ok (.rspMsg [0x80#8, 0x01#8]) []

/-- R86: how each format's operand is assembled. -/
def Obligations.OperandAssembly : Prop :=
  (∀ (b : Byte) (r : List Byte), decode (0x20#8 :: b :: r) = .ok (.rxByte b) r) ∧
  (∀ (b : Byte) (r : List Byte), decode (0x80#8 :: b :: r) = .ok (.send b) r) ∧
  (∀ (v : Byte) (r : List Byte), v.toNat ≤ 1 → decode (0x91#8 :: v :: r) = .ok (.rspAvail v) r) ∧
  (∀ (lo hi : Byte) (r : List Byte), ∃ n : BitVec 16,
      decode (0x11#8 :: lo :: hi :: r) = .ok (.ticks n) r ∧ n.toNat = lo.toNat + 256 * hi.toNat) ∧
  (∀ (n : Byte) (r : List Byte), n.toNat ≤ r.length →
      decode (0x30#8 :: n :: r) = .ok (.writeMsg (r.take n.toNat)) (r.drop n.toNat)) ∧
  (∀ (n : Byte) (r : List Byte), n.toNat ≤ r.length → n.toNat = 0 ∨ (2 ≤ n.toNat ∧ n.toNat ≤ 21) →
      decode (0x90#8 :: n :: r) = .ok (.rspMsg (r.take n.toNat)) (r.drop n.toNat))

/-! ## The step -/

/-- A step takes the stimulus the stream's head decodes to and applies it to the state, the stream moved past its bytes; with no
stimulus waiting the state stays as it is (the second part is the model's choice, log entry 2, from R10 and R247). -/
def Obligations.StepRunsDecodedStimulus : Prop :=
  (∀ (s : State) (i : Instr) (rest : List Byte), decodeStimulus s.stim = .ok i rest →
      step s = exec i { s with stim := rest }) ∧
  (∀ s : State, s.stim = [] → step s = .next s)

/-- A table word whose row is a stimulus, offered as the next stimulus, runs at the next step as that stimulus and is used up:
the rest of the stream is what was waiting before. -/
def Obligations.OfferedWordRunsNext : Prop :=
  ∀ (s : State) (nbits w : Nat) (i : Instr), decodeTableWord nbits w = some i → i.isStimulus →
    step (s.withFetchWord nbits w) = exec i s

/-! ## The invariant -/

/-- Every step of every state that meets the invariant (V1 to V11 of R39, the legal values of R20, and the model's canonical form of the
stores, log entry 4) leaves a state that meets it. -/
def Obligations.StepKeepsInvariant : Prop :=
  ∀ s t : State, s.Inv → step s = .next t → t.Inv

/-- The state after reset meets the invariant (its canonical form of the stores: log entry 4), for all legal parameters. -/
def Obligations.ResetHasInvariant : Prop :=
  (∀ c : Config, (State.resetWith c).Inv) ∧ State.reset.Inv

/-- R39: V1 to V11 hold in every state reachable from reset, for all legal parameters and all stimulus streams. -/
def Obligations.ReachableStatesSatisfyV1ToV11 : Prop :=
  ∀ (c : Config) (bs : List Byte) (n : Nat) (t : State), runFromReset c bs n = .next t →
    t.V1 ∧ t.V2 ∧ t.V3 ∧ t.V4 ∧ t.V5 ∧ t.V6 ∧ t.V7 ∧ t.V8 ∧ t.V9 ∧ t.V10 ∧ t.V11

/-! ## Rules about the whole machine -/

/-- Every operation completes on every state (R12, R230), given operands in the ranges of the spec: all eight stimuli (RESET, TICK,
TICKS, RX_BYTE, TX_DONE, WRITE_MSG, READ_MSG, MSG_AVAIL), the three outputs, the nineteen procedures (T_CONFIGURE with a count
the timer can hold) and the four codec functions. And no operation ever faults. -/
def Obligations.EveryOperationCompletes : Prop :=
  (∀ (i : Instr) (s : State), i.wf → (∀ t k, i = .tConfigure t k → k ≤ s.cfg.maxTicks) →
      ∃ t, exec i s = .next t) ∧
  (∀ (i : Instr) (s : State) (f : Fault), exec i s ≠ .fault f)

/-- The operands the spec calls unrepresentable or illegal are refused by name: a tick count outside `1..2^TIMER_WIDTH-1` (U6), a
sequence that is no Message (U7), an output record R85 does not allow, a sequence that is not ten line values (R129).
How the model stops on them is its own convention (log entry 6). -/
def Obligations.IllegalOperandsAreRefused : Prop :=
  (∀ (t : TimerId) (k : Nat) (s : State), k = 0 ∨ s.cfg.maxTicks < k →
      exec (.tConfigure t k) s = .refused .ticksOutOfRange) ∧
  (∀ (q : QueueId) (m : ByteSeq) (s : State), m.length < 2 ∨ 21 < m.length →
      exec (.qPush q m) s = .refused .notAMessage) ∧
  (∀ (m : ByteSeq) (s : State), m.length = 1 ∨ 21 < m.length → exec (.rspMsg m) s = .refused .illegalOutput) ∧
  (∀ (v : Byte) (s : State), 1 < v.toNat → exec (.rspAvail v) s = .refused .illegalOutput) ∧
  (∀ (w : List Bool) (s : State), w.length ≠ 10 → exec (.frameDecode w) s = .refused .notACharacter)

/-- No operation changes a parameter (R6: "None can change while the block runs") or the stimuli still waiting, and outputs are
only ever added after those already emitted. -/
def Obligations.ParametersConstantOutputsAppended : Prop :=
  (∀ (i : Instr) (s t : State), exec i s = .next t → t.cfg = s.cfg ∧ t.stim = s.stim ∧ s.out <+: t.out) ∧
  (∀ s t : State, step s = .next t → t.cfg = s.cfg ∧ s.out <+: t.out)

/-- An operation other than TICKS emits at most one output (R68 d), and a SEND leaves the engine in TRANSMITTING with the byte sent
under TXLAST (R125). -/
def Obligations.AtMostOneOutputPerOperation : Prop :=
  ∀ (i : Instr) (s t : State), s.Inv → i.isStimulus → (∀ n, i ≠ .ticks n) → exec i s = .next t →
    t.out = s.out ∨
    ∃ o, t.out = s.out ++ [o] ∧
      ∀ b, o = .send b → t.st = .transmitting ∧ t.cell .txmsg t.txlast = some b

/-- R226: the only changes of ST, by the stimulus that makes them; IDLE is never left with a Message waiting in OUTQ; a session
is replaced by another only at an EOM fire that ends it. -/
def Obligations.StateGraphEdges : Prop :=
  ∀ (i : Instr) (s t : State), s.Inv → i.isStimulus → (∀ n, i ≠ .ticks n) → exec i s = .next t →
    (t.st = s.st ∨
      (s.st = .idle ∧ t.st = .receiving ∧ ∃ b, i = .rxByte b) ∨
      (s.st = .idle ∧ t.st = .transmitting ∧ ∃ m, i = .writeMsg m) ∨
      (s.st = .receiving ∧ t.st = .idle ∧ i = .tick ∧ s.eomt.expires = true ∧ s.outq.count = 0) ∨
      (s.st = .receiving ∧ t.st = .transmitting ∧ i = .tick ∧ s.eomt.expires = true ∧ 0 < s.outq.count) ∨
      (s.st = .transmitting ∧ t.st = .idle ∧ i = .tick ∧ s.eomt.expires = true ∧ s.outq.count = 0 ∧
        (¬ s.collidesAtFire ∨ s.givesUp)) ∨
      (s.st = .transmitting ∧ t.st = .collisionWait ∧
        ((∃ b, i = .rxByte b ∧ s.collidesAtByte b) ∨
          (i = .tick ∧ s.eomt.expires = true ∧ s.collidesAtFire))) ∨
      (s.st = .collisionWait ∧ t.st = .transmitting ∧ i = .tick ∧ s.colt.expires = true) ∨
      (s.st = .transmitting ∧ t.st = .receiving ∧ s.givesUp ∧ ∃ b, i = .rxByte b ∧ s.collidesAtByte b) ∨
      (t.st = .idle ∧ i = .reset)) ∧
    (t.st = .idle → t.outq.count = 0) ∧
    (s.st = .transmitting → t.st = .transmitting → t.txmsg ≠ s.txmsg →
      i = .tick ∧ s.eomt.expires = true ∧ 0 < s.outq.count ∧ (¬ s.collidesAtFire ∨ s.givesUp))

/-- R182, R72: nothing alters the Message of a session. Every operation but RESET leaves the Message and the session as they are,
or ends the session, and it ends only on validation or on give-up. -/
def Obligations.SessionMessageIsNeverAltered : Prop :=
  ∀ (i : Instr) (s t : State), s.Inv → i.isStimulus → i ≠ .reset → (∀ n, i ≠ .ticks n) →
    s.txvalid = true → exec i s = .next t →
    (t.txvalid = true ∧ t.txmsg = s.txmsg) ∨
    (i = .tick ∧ s.st = .transmitting ∧ s.eomt.expires = true ∧ (¬ s.collidesAtFire ∨ s.givesUp)) ∨
    (t.txvalid = false ∧ s.givesUp ∧ ∃ b, i = .rxByte b ∧ s.collidesAtByte b)

/-- R74, R242, R201: READ_MSG writes INQ and its answer only, MSG_AVAIL its answer only, WRITE_MSG outside IDLE OUTQ only and in
every state neither the assembly nor the timers nor INQ; and what READ_MSG and MSG_AVAIL answer depends on INQ alone. -/
def Obligations.HostReachesOnlyTheQueues : Prop :=
  (∀ s t : State, exec .readMsg s = .next t → t = { s with inq := t.inq, out := t.out }) ∧
  (∀ s t : State, exec .msgAvail s = .next t → t = { s with out := t.out }) ∧
  (∀ (m : ByteSeq) (s t : State), exec (.writeMsg m) s = .next t →
    (s.st ≠ .idle → t = { s with outq := t.outq }) ∧
    t.rxbuf = s.rxbuf ∧ t.rxcnt = s.rxcnt ∧ t.rxtaint = s.rxtaint ∧ t.eomt = s.eomt ∧ t.colt = s.colt ∧
    t.inq = s.inq) ∧
  (∀ (i : Instr) (s u : State), i = .readMsg ∨ i = .msgAvail → s.inq = u.inq →
    ∃ (o : Output) (s' u' : State), exec i s = .next s' ∧ exec i u = .next u' ∧
      s'.out = s.out ++ [o] ∧ u'.out = u.out ++ [o])

/-- R127: TX_DONE (opcode byte 0x21) changes nothing in any state, and may be deleted from any sequence of operations. -/
def Obligations.TxDoneChangesNothing : Prop :=
  (∀ r : List Byte, decode (0x21#8 :: r) = .ok .txDone r) ∧
  (∀ s : State, exec .txDone s = .next s) ∧
  (∀ (is : List Instr) (s : State), execAll (is.filter fun i => i ≠ .txDone) s = execAll is s)

/-- R259: with no byte echoed and the EOM timer stopped, the engine stays in TRANSMITTING however many ticks pass. -/
def Obligations.LostEchoLeavesEngineStuck : Prop :=
  ∀ (s : State) (n : Nat), s.Inv → s.st = .transmitting → s.eomt.run = false →
    execAll (List.replicate n .tick) s = .next s

/-! ## BitTimer -/

/-- R110: T_CONFIGURE sets the period and stops the timer at count 0; nothing else changes. -/
def Obligations.ConfigureSetsPeriodAndStops : Prop :=
  ∀ (k : Nat) (s : State), 1 ≤ k → k ≤ s.cfg.maxTicks →
    exec (.tConfigure .eomt k) s = .next { s with eomt := { period := k, cnt := 0, run := false } } ∧
    exec (.tConfigure .colt k) s = .next { s with colt := { period := k, cnt := 0, run := false } }

/-- R111, R112: T_RESTART and T_STOP zero the count and start, respectively stop, the timer; the period and everything else stay. -/
def Obligations.RestartAndStopZeroTheCount : Prop :=
  ∀ s : State,
    exec (.tRestart .eomt) s = .next { s with eomt := { period := s.eomt.period, cnt := 0, run := true } } ∧
    exec (.tRestart .colt) s = .next { s with colt := { period := s.colt.period, cnt := 0, run := true } } ∧
    exec (.tStop .eomt) s = .next { s with eomt := { period := s.eomt.period, cnt := 0, run := false } } ∧
    exec (.tStop .colt) s = .next { s with colt := { period := s.colt.period, cnt := 0, run := false } }

/-- R113: T_TICK ignores a stopped timer, expires it on the tick that makes the count reach the period, and else counts. -/
def Obligations.TimerTickCountsOrExpires : Prop :=
  ∀ (t : TimerId) (s : State),
    ((s.timer t).run = false → exec (.tTick t) s = .next { s with ret := .bool false }) ∧
    ((s.timer t).run = true → (s.timer t).cnt + 1 = (s.timer t).period →
      exec (.tTick t) s =
        .next { s.setTimer t { period := (s.timer t).period, cnt := 0, run := false } with ret := .bool true }) ∧
    ((s.timer t).run = true → (s.timer t).cnt + 1 ≠ (s.timer t).period →
      exec (.tTick t) s =
        .next { s.setTimer t { period := (s.timer t).period, cnt := (s.timer t).cnt + 1, run := true } with
          ret := .bool false })

/-- R114: after a restart the timer reports expiry on exactly the PERIOD-th tick, not before, and never again. -/
def Obligations.TimerExpiresExactlyOnce : Prop :=
  ∀ (t : TimerId) (s : State), 1 ≤ (s.timer t).period →
    (∀ k, k < (s.timer t).period → ∃ u,
      execAll (.tRestart t :: List.replicate k (.tTick t)) s = .next u ∧
      u.timer t = { period := (s.timer t).period, cnt := k, run := true } ∧ (0 < k → u.ret = .bool false)) ∧
    (∃ u, execAll (.tRestart t :: List.replicate (s.timer t).period (.tTick t)) s = .next u ∧
      u.timer t = { period := (s.timer t).period, cnt := 0, run := false } ∧ u.ret = .bool true) ∧
    (∀ k, (s.timer t).period < k → ∃ u,
      execAll (.tRestart t :: List.replicate k (.tTick t)) s = .next u ∧
      u.timer t = { period := (s.timer t).period, cnt := 0, run := false } ∧ u.ret = .bool false)

/-- R115: TICK advances both timers, then runs the fire procedures of those that expired, on_eom_fire before on_col_fire. -/
def Obligations.TickAdvancesThenFires : Prop :=
  ∀ s e c : State, exec (.tTick .eomt) s = .next e → exec (.tTick .colt) s = .next c →
    (e.ret = .bool false → c.ret = .bool false →
      exec .tick s = .next { s with eomt := e.eomt, colt := c.colt }) ∧
    (e.ret = .bool true → c.ret = .bool false →
      exec .tick s = exec .onEomFire { s with eomt := e.eomt, colt := c.colt }) ∧
    (e.ret = .bool false → c.ret = .bool true →
      exec .tick s = exec .onColFire { s with eomt := e.eomt, colt := c.colt }) ∧
    (e.ret = .bool true → c.ret = .bool true →
      exec .tick s = execAll [.onEomFire, .onColFire] { s with eomt := e.eomt, colt := c.colt }) ∧
    (s.eomt.run = false → s.colt.run = false → exec .tick s = .next s)

/-- R115 corner case 2: when both timers expire on one tick in COLLISION_WAIT, the finished frame is disposed of (delivered if it is
2..21 bytes long and untainted) and the retry starts on a clean assembly (that RXBUF then holds
no cell is the model's form, log entry 4). -/
def Obligations.BothTimersExpireOnOneTick : Prop :=
  ∀ (s : State) (b : Byte), s.Inv → s.st = .collisionWait → s.eomt.expires = true → s.colt.expires = true →
    s.txmsg[0]? = some b →
    ∃ t, exec .tick s = .next t ∧ t.st = .transmitting ∧ t.out = s.out ++ [.send b] ∧
      t.rxcnt = 0 ∧ t.rxbuf = [] ∧ t.rxtaint = false ∧ t.txcur = 1 ∧ t.txlast = 0 ∧
      t.eomt = { period := s.eomt.period, cnt := 0, run := false } ∧
      t.colt = { period := s.colt.period, cnt := 0, run := false } ∧
      t.inq = (if 2 ≤ s.rxcnt ∧ s.rxcnt ≤ 21 ∧ s.rxtaint = false then s.inq.push s.cfg.nIn s.rxbuf else s.inq) ∧
      t.txvalid = s.txvalid ∧ t.txmsg = s.txmsg ∧ t.retrycnt = s.retrycnt ∧ t.outq = s.outq ∧
      t.cfg = s.cfg ∧ t.ret = s.ret ∧ t.stim = s.stim

/-- R116: TICKS n is exactly n TICK operations, and its record holds n low byte first. -/
def Obligations.TicksIsRepeatedTick : Prop :=
  (∀ (lo hi : Byte) (r : List Byte), ∃ n : BitVec 16,
      decode (0x11#8 :: lo :: hi :: r) = .ok (.ticks n) r ∧ n.toNat = lo.toNat + 256 * hi.toNat) ∧
  (∀ (n : BitVec 16) (s : State), ∃ t, exec (.ticks n) s = .next t ∧
    execAll (List.replicate n.toNat .tick) s = .next t)

/-! ## MessageQueue -/

/-- R140: Q_PUSH appends the Message as the newest entry, evicting the oldest of a full queue; nothing else changes. -/
def Obligations.PushAppendsEvictingOldest : Prop :=
  ∀ (q : QueueId) (m : ByteSeq) (s : State), 2 ≤ m.length → m.length ≤ 21 →
    ((s.queue q).content.length = s.cfg.capacity q →
      exec (.qPush q m) s = .next (s.setQueue q
        { content := (s.queue q).content.tail ++ [m],
          oldest := ((s.queue q).oldest + 1) % s.cfg.capacity q,
          newest := ((s.queue q).newest + 1) % s.cfg.capacity q })) ∧
    ((s.queue q).content.length ≠ s.cfg.capacity q →
      exec (.qPush q m) s = .next (s.setQueue q
        { content := (s.queue q).content ++ [m], oldest := (s.queue q).oldest,
          newest := ((s.queue q).newest + 1) % s.cfg.capacity q }))

/-- R141: Q_POP removes and returns the oldest entry, or returns `empty` and changes nothing else. -/
def Obligations.PopRemovesOldest : Prop :=
  ∀ (q : QueueId) (s : State),
    ((s.queue q).content = [] → exec (.qPop q) s = .next { s with ret := .message none }) ∧
    (∀ m r, (s.queue q).content = m :: r →
      exec (.qPop q) s = .next { s.setQueue q
        { content := r, oldest := ((s.queue q).oldest + 1) % s.cfg.capacity q, newest := (s.queue q).newest } with
        ret := .message (some m) })

/-- R142, R143: Q_PEEK returns the oldest entry without removing it, Q_ISEMPTY whether there is none; a Q_POP right after a Q_PEEK
returns the same, with a Q_PUSH on a full queue between them the entry after it; after RESET both queues are empty; and a push on any
queue succeeds without a sign to its caller, a full one losing its oldest entry. -/
def Obligations.PeekAndIsEmptyOnlyRead : Prop :=
  ∀ (q : QueueId) (s : State),
    exec (.qPeek q) s = .next { s with ret := .message (s.queue q).content.head? } ∧
    exec (.qIsEmpty q) s = .next { s with ret := .bool (decide ((s.queue q).content.length = 0)) } ∧
    (∃ u, execAll [.qPeek q, .qPop q] s = .next u ∧ u.ret = .message (s.queue q).content.head?) ∧
    (∀ m : ByteSeq, 2 ≤ m.length → m.length ≤ 21 → (s.queue q).content.length = s.cfg.capacity q →
      ∃ u, execAll [.qPeek q, .qPush q m, .qPop q] s = .next u ∧
        u.ret = .message ((s.queue q).content.tail ++ [m]).head?) ∧
    (∃ u, execAll [.reset, .qIsEmpty q] s = .next u ∧ u.ret = .bool true) ∧
    (∀ m : ByteSeq, 2 ≤ m.length → m.length ≤ 21 → ∃ u, exec (.qPush q m) s = .next u ∧ u = s.setQueue q (u.queue q) ∧
      ((u.queue q).content = (s.queue q).content ++ [m] ∨
        ((s.queue q).content.length = s.cfg.capacity q ∧ (u.queue q).content = (s.queue q).content.tail ++ [m])))

/-- R144: pushing Messages into a queue leaves the newest N of what it held and what was pushed, in order; and after any sequence of
pushes and pops the content is a suffix, of length at most N, of what it held followed by all that was pushed. -/
def Obligations.EvictionLaw : Prop :=
  ∀ (q : QueueId) (s : State), (s.queue q).content.length ≤ s.cfg.capacity q →
    (∀ ms : List ByteSeq, (∀ m ∈ ms, 2 ≤ m.length ∧ m.length ≤ 21) →
      ∃ t, execAll (ms.map (.qPush q)) s = .next t ∧
        (t.queue q).content =
          ((s.queue q).content ++ ms).drop ((s.queue q).content.length + ms.length - s.cfg.capacity q)) ∧
    (∀ ops : List (Option ByteSeq), (∀ m, some m ∈ ops → 2 ≤ m.length ∧ m.length ≤ 21) →
      ∃ t, execAll (ops.map fun o => match o with
          | some m => .qPush q m
          | none => .qPop q) s = .next t ∧
        (t.queue q).content <:+ (s.queue q).content ++ ops.filterMap id ∧
        (t.queue q).content.length ≤ s.cfg.capacity q)

/-- R140, R141, R30: in the byte stores, Q_PUSH writes the slot after NEWEST and no other cell of any store, and Q_POP frees the
slot of OLDEST and changes no other cell. -/
def Obligations.QueueProceduresTouchOneSlot : Prop :=
  ∀ (q : QueueId) (s t : State), (s.queue q).V9 (s.cfg.capacity q) → (s.queue q).oldest < s.cfg.capacity q →
    (∀ m : ByteSeq, exec (.qPush q m) s = .next t →
      (∀ i, t.cell (.slot q (((s.queue q).newest + 1) % s.cfg.capacity q)) i = m[i]?) ∧
      (∀ st i, st ≠ .slot q (((s.queue q).newest + 1) % s.cfg.capacity q) → t.cell st i = s.cell st i)) ∧
    (exec (.qPop q) s = .next t → (s.queue q).content ≠ [] →
      (∀ i, t.cell (.slot q (s.queue q).oldest) i = none) ∧
      (∀ st i, st ≠ .slot q (s.queue q).oldest → t.cell st i = s.cell st i))

/-! ## Receive side -/

/-- R155: rx_store writes the byte to cell RXCNT while RXCNT is below 21, counts it up to 22, restarts the EOM timer; every other
cell and field stays. -/
def Obligations.RxStoreBuffersAndRestartsEomTimer : Prop :=
  ∀ (b : Byte) (s : State), s.storesWf →
    ∃ t, exec (.rxStore b) s = .next t ∧
      t.rxcnt = min (s.rxcnt + 1) 22 ∧
      t.eomt = { period := s.eomt.period, cnt := 0, run := true } ∧
      (s.rxcnt < 21 → t.cell .rxbuf s.rxcnt = some b) ∧
      (∀ st i, (s.rxcnt < 21 → st = .rxbuf → i ≠ s.rxcnt) → t.cell st i = s.cell st i) ∧
      t = { s with rxbuf := t.rxbuf, rxcnt := t.rxcnt, eomt := t.eomt }

/-- R156: RX_BYTE stores the byte; then IDLE goes to RECEIVING, RECEIVING and COLLISION_WAIT do nothing more (the backoff timer keeps its
count), and TRANSMITTING runs the echo comparator; at most one SEND results. -/
def Obligations.RxByteStoresThenActsByState : Prop :=
  ∀ (b : Byte) (s : State), ∃ u, exec (.rxStore b) s = .next u ∧ u.colt = s.colt ∧ u.st = s.st ∧
    (∀ r : List Byte, decode (0x20#8 :: b :: r) = .ok (.rxByte b) r) ∧
    (∀ t, exec (.rxByte b) s = .next t → t.out = s.out ∨ ∃ x, t.out = s.out ++ [.send x]) ∧
    (s.st = .idle → exec (.rxByte b) s = .next { u with st := .receiving }) ∧
    (s.st = .receiving → exec (.rxByte b) s = .next u) ∧
    (s.st = .collisionWait → exec (.rxByte b) s = .next u) ∧
    (s.st = .transmitting → exec (.rxByte b) s = exec (.echoCompare b) u)

/-- The byte-level collision as a whole (R156, R172, R174): a received byte that differs from the byte last sent is stored, taints the
frame, and sends the engine to COLLISION_WAIT with the backoff armed and the Message kept, nothing emitted, no queue touched. -/
def Obligations.MismatchingByteBacksOff : Prop :=
  ∀ (s : State) (b mid : Byte), s.Inv → s.st = .transmitting → s.collidesAtByte b → ¬ s.givesUp →
    s.txmsg[0]? = some mid →
    ∃ t, exec (.rxByte b) s = .next t ∧ t.st = .collisionWait ∧ t.rxtaint = true ∧
      t.rxcnt = min (s.rxcnt + 1) 22 ∧ (s.rxcnt < 21 → t.cell .rxbuf s.rxcnt = some b) ∧
      t.eomt = { period := s.eomt.period, cnt := 0, run := true } ∧
      t.colt = { period := s.cfg.collisionTicks (priorityOf s.cfg.prioMode mid), cnt := 0, run := true } ∧
      t.txcur = 0 ∧ t.txlast = s.txlast ∧ t.txmsg = s.txmsg ∧ t.txvalid = true ∧
      t.retrycnt = (if s.cfg.retryLimit = 0 then s.retrycnt else s.retrycnt + 1) ∧
      t.inq = s.inq ∧ t.outq = s.outq ∧ t.out = s.out ∧ t.cfg = s.cfg ∧ t.ret = s.ret ∧ t.stim = s.stim

/-- R157, R158: at an EOM fire in RECEIVING with nothing to send, and in COLLISION_WAIT, the frame becomes a Message if and only if its
length is in 2..21 and it is untainted; the assembly is emptied either way, RECEIVING goes to IDLE, and nothing else changes: said of
on_eom_fire, and of the TICK on which the EOM timer expires (the backoff timer counting on in COLLISION_WAIT; the tick on which it expires
too is BothTimersExpireOnOneTick). That the emptied RXBUF holds no cell is the model's form, log entry 4. -/
def Obligations.EomFireDeliversOrDropsFrame : Prop :=
  (∀ s : State, s.storesWf → (s.st = .receiving ∧ s.outq.content = []) ∨ s.st = .collisionWait →
    exec .onEomFire s = .next { s with
      rxbuf := [], rxcnt := 0, rxtaint := false,
      st := if s.st = .receiving then .idle else .collisionWait,
      inq := if 2 ≤ s.rxcnt ∧ s.rxcnt ≤ 21 ∧ s.rxtaint = false then s.inq.push s.cfg.nIn s.rxbuf else s.inq }) ∧
  (∀ s : State, s.Inv → s.eomt.expires = true → s.st = .receiving → s.outq.content = [] →
    exec .tick s = .next { s with
      eomt := { period := s.eomt.period, cnt := 0, run := false },
      rxbuf := [], rxcnt := 0, rxtaint := false, st := .idle,
      inq := if 2 ≤ s.rxcnt ∧ s.rxcnt ≤ 21 ∧ s.rxtaint = false then s.inq.push s.cfg.nIn s.rxbuf else s.inq }) ∧
  (∀ s : State, s.Inv → s.eomt.expires = true → s.st = .collisionWait → s.colt.expires = false →
    exec .tick s = .next { s with
      eomt := { period := s.eomt.period, cnt := 0, run := false },
      colt := { period := s.colt.period, cnt := s.colt.cnt + 1, run := true },
      rxbuf := [], rxcnt := 0, rxtaint := false,
      inq := if 2 ≤ s.rxcnt ∧ s.rxcnt ≤ 21 ∧ s.rxtaint = false then s.inq.push s.cfg.nIn s.rxbuf else s.inq })

/-- R159: a tainted frame is dropped whatever its length and whatever the state, and validates no transmission; the taint lasts until the
fire that ends the frame (or RESET) and not longer. -/
def Obligations.TaintedFrameIsNeverDelivered : Prop :=
  ∀ s : State, s.rxtaint = true →
    (∃ t, exec .onEomFire s = .next t ∧ t.inq = s.inq ∧ t.rxtaint = false ∧ t.rxcnt = 0) ∧
    (s.st = .transmitting →
      ∃ u, exec .onEomFire s = execAll [.collision, .tryStart] u ∧
        u = { s with rxbuf := u.rxbuf, rxcnt := 0, rxtaint := false }) ∧
    (∀ (i : Instr) (t : State), i.isStimulus → i ≠ .reset → (∀ n, i ≠ .ticks n) → (i = .tick → s.eomt.expires = false) →
      exec i s = .next t → t.rxtaint = true)

/-- R157 corner cases 2 and 6: at an EOM fire in RECEIVING with Messages waiting, the frame is disposed of and the oldest waiting Message
is started in the same operation: said of on_eom_fire, and of the TICK on which the EOM timer expires (the emptied RXBUF: log
entry 4). -/
def Obligations.EomFireStartsWaitingMessage : Prop :=
  ∀ (s : State) (b : Byte) (m : ByteSeq) (r : List ByteSeq), s.st = .receiving → s.outq.content = (b :: m) :: r →
    (s.storesWf → s.txvalid = false →
      exec .onEomFire s = .next { s with
        rxbuf := [], rxcnt := 0, rxtaint := false, st := .transmitting,
        inq := (if 2 ≤ s.rxcnt ∧ s.rxcnt ≤ 21 ∧ s.rxtaint = false then s.inq.push s.cfg.nIn s.rxbuf else s.inq),
        outq := { content := r, oldest := (s.outq.oldest + 1) % s.cfg.nOut, newest := s.outq.newest },
        txvalid := true, txmsg := b :: m, txcur := 1, txlast := 0, retrycnt := 0, out := s.out ++ [.send b] }) ∧
    (s.Inv → s.eomt.expires = true →
      exec .tick s = .next { s with
        eomt := { period := s.eomt.period, cnt := 0, run := false },
        rxbuf := [], rxcnt := 0, rxtaint := false, st := .transmitting,
        inq := (if 2 ≤ s.rxcnt ∧ s.rxcnt ≤ 21 ∧ s.rxtaint = false then s.inq.push s.cfg.nIn s.rxbuf else s.inq),
        outq := { content := r, oldest := (s.outq.oldest + 1) % s.cfg.nOut, newest := s.outq.newest },
        txvalid := true, txmsg := b :: m, txcur := 1, txlast := 0, retrycnt := 0, out := s.out ++ [.send b] })

/-- R157, R178, R180: at an EOM fire in TRANSMITTING the frame is compared with the Message. A match delivers it, ends the session and goes on
as try_start in IDLE; a mismatch goes on as collision and then try_start, with nothing delivered. The same of the TICK on which the EOM
timer expires, where a mismatch starts the backoff, or, the retries used up, gives up to IDLE (the EOM timer has just stopped) and goes on
as try_start (the emptied RXBUF: log entry 4). -/
def Obligations.EomFireValidatesOrCollides : Prop :=
  (∀ s : State, s.storesWf → s.st = .transmitting →
    (s.rxtaint = false → s.rxbuf = s.txmsg → s.rxcnt = s.txmsg.length →
      ∃ u, exec .onEomFire s = exec .tryStart u ∧
        u = { s with
          rxbuf := [], rxcnt := 0, rxtaint := false, st := .idle, inq := s.inq.push s.cfg.nIn s.txmsg,
          txvalid := false, retrycnt := 0, txmsg := u.txmsg, txcur := u.txcur, txlast := u.txlast }) ∧
    ((s.rxtaint = true ∨ s.rxbuf ≠ s.txmsg ∨ s.rxcnt ≠ s.txmsg.length) →
      exec .onEomFire s =
        execAll [.collision, .tryStart] { s with rxbuf := [], rxcnt := 0, rxtaint := false })) ∧
  (∀ s : State, s.Inv → s.eomt.expires = true → s.st = .transmitting →
    (s.rxtaint = false → s.rxbuf = s.txmsg → s.rxcnt = s.txmsg.length →
      ∃ u, exec .tick s = exec .tryStart u ∧
        u = { s with
          eomt := { period := s.eomt.period, cnt := 0, run := false },
          rxbuf := [], rxcnt := 0, rxtaint := false, st := .idle, inq := s.inq.push s.cfg.nIn s.txmsg,
          txvalid := false, retrycnt := 0, txmsg := u.txmsg, txcur := u.txcur, txlast := u.txlast }) ∧
    ((s.rxtaint = true ∨ s.rxbuf ≠ s.txmsg ∨ s.rxcnt ≠ s.txmsg.length) →
      (¬ s.givesUp → ∀ mid, s.txmsg[0]? = some mid →
        exec .tick s = .next { s with
          eomt := { period := s.eomt.period, cnt := 0, run := false },
          colt := { period := s.cfg.collisionTicks (priorityOf s.cfg.prioMode mid), cnt := 0, run := true },
          rxbuf := [], rxcnt := 0, rxtaint := false, st := .collisionWait, txcur := 0,
          retrycnt := if s.cfg.retryLimit = 0 then s.retrycnt else s.retrycnt + 1 }) ∧
      (s.givesUp →
        ∃ u, exec .tick s = exec .tryStart u ∧
          u = { s with
            eomt := { period := s.eomt.period, cnt := 0, run := false },
            rxbuf := [], rxcnt := 0, rxtaint := false, st := .idle,
            txvalid := false, retrycnt := 0, txmsg := u.txmsg, txcur := u.txcur, txlast := u.txlast })))

/-- R161: in every state, two bytes belong to the same frame if and only if fewer than EOM_TICKS ticks lie between them: then the second
byte follows the first in the assembly and nothing has been delivered; else the second byte begins a new assembly. In IDLE and RECEIVING
with nothing waiting to be sent the engine is in RECEIVING afterwards (that RXBUF holds just the cells that are counted is the model's
form, log entry 4). -/
def Obligations.InterByteRule : Prop :=
  ∀ (s : State) (b b' : Byte) (k : Nat), s.Inv →
    ∃ t, execAll (.rxByte b :: (List.replicate k .tick ++ [.rxByte b'])) s = .next t ∧
      (k < s.cfg.eomTicks →
        t.rxcnt = min (s.rxcnt + 2) 22 ∧ t.rxbuf = (s.rxbuf ++ [b, b']).take 21 ∧ t.inq = s.inq) ∧
      (s.cfg.eomTicks ≤ k → t.rxcnt = 1 ∧ t.rxbuf = [b']) ∧
      (s.st = .idle ∨ s.st = .receiving → s.outq.content = [] → t.st = .receiving)

/-! ## Transmit side -/

/-- R170: try_start dequeues the oldest waiting Message and sends its first byte if the engine is idle with no session; else it does
nothing. -/
def Obligations.TryStartDequeuesWhenIdle : Prop :=
  (∀ (s : State) (b : Byte) (m : ByteSeq) (r : List ByteSeq), s.st = .idle → s.txvalid = false →
    s.outq.content = (b :: m) :: r →
    exec .tryStart s = .next { s with
      outq := { content := r, oldest := (s.outq.oldest + 1) % s.cfg.nOut, newest := s.outq.newest },
      txvalid := true, txmsg := b :: m, txcur := 1, txlast := 0, retrycnt := 0, st := .transmitting,
      out := s.out ++ [.send b] }) ∧
  (∀ s : State, s.st ≠ .idle ∨ s.txvalid = true ∨ s.outq.content = [] → exec .tryStart s = .next s)

/-- R171: send_next emits the byte under the cursor, records its index and advances the cursor. -/
def Obligations.SendNextEmitsByteUnderCursor : Prop :=
  ∀ (s : State) (b : Byte), s.txmsg[s.txcur]? = some b →
    exec .sendNext s = .next { s with out := s.out ++ [.send b], txlast := s.txcur, txcur := s.txcur + 1 }

/-- R172: echo_compare compares with the byte last sent: a match sends the next byte or, after the last, does nothing; a mismatch taints
the frame and is a collision. -/
def Obligations.EchoCompareMatchesOrCollides : Prop :=
  ∀ (s : State) (b e : Byte), s.txmsg[s.txlast]? = some e →
    (b = e → ∀ x, s.txmsg[s.txcur]? = some x →
      exec (.echoCompare b) s =
        .next { s with out := s.out ++ [.send x], txlast := s.txcur, txcur := s.txcur + 1 }) ∧
    (b = e → s.txmsg.length ≤ s.txcur → exec (.echoCompare b) s = .next s) ∧
    (b ≠ e → exec (.echoCompare b) s = exec .collision { s with rxtaint := true })

/-- R174: collision schedules the retry, or gives up when the configured bound is reached. -/
def Obligations.CollisionSchedulesRetry : Prop :=
  ∀ (s : State) (mid : Byte), s.txmsg[0]? = some mid →
    (s.cfg.retryLimit = 0 →
      exec .collision s = .next { s with
        colt := { period := s.cfg.collisionTicks (priorityOf s.cfg.prioMode mid), cnt := 0, run := true },
        txcur := 0, st := .collisionWait }) ∧
    (s.cfg.retryLimit ≠ 0 → s.retrycnt < s.cfg.retryLimit →
      exec .collision s = .next { s with
        retrycnt := s.retrycnt + 1,
        colt := { period := s.cfg.collisionTicks (priorityOf s.cfg.prioMode mid), cnt := 0, run := true },
        txcur := 0, st := .collisionWait }) ∧
    (s.cfg.retryLimit ≠ 0 → s.cfg.retryLimit ≤ s.retrycnt → exec .collision s = exec .giveUp s)

/-- R92, R175: the priority is 8 in mode FIXED, and in mode MID_CLZ the table of R92 over all 256 values of the MID. -/
def Obligations.PriorityFollowsTable : Prop :=
  ∀ (mid : Byte) (s : State), ∃ p, exec (.priority mid) s = .next { s with ret := .prio p } ∧
    1 ≤ p ∧ p ≤ 8 ∧
    (s.cfg.prioMode = .fixed → p = 8) ∧
    (s.cfg.prioMode = .midClz →
      p = if 0x80 ≤ mid.toNat then 1 else if 0x40 ≤ mid.toNat then 2 else if 0x20 ≤ mid.toNat then 3
        else if 0x10 ≤ mid.toNat then 4 else if 0x08 ≤ mid.toNat then 5 else if 0x04 ≤ mid.toNat then 6
        else if 0x02 ≤ mid.toNat then 7 else 8) ∧
    clz8 mid = (if 0x80 ≤ mid.toNat then 0 else if 0x40 ≤ mid.toNat then 1 else if 0x20 ≤ mid.toNat then 2
        else if 0x10 ≤ mid.toNat then 3 else if 0x08 ≤ mid.toNat then 4 else if 0x04 ≤ mid.toNat then 5
        else if 0x02 ≤ mid.toNat then 6 else if 0x01 ≤ mid.toNat then 7 else 8)

/-- R176: the backoff is (11 + 2p)T ticks, strictly increasing in p, longer than the EOM window, within the timer's width; in mode FIXED it is
27T ticks; and it is the same at every retry: it does not depend on RETRYCNT. -/
def Obligations.BackoffIsLinearInPriority : Prop :=
  (∀ (c : Config) (p : Nat), c.collisionTicks p = (11 + 2 * p) * c.ticksPerBit) ∧
  (∀ (c : Config) (p p' : Nat), p < p' → c.collisionTicks p < c.collisionTicks p') ∧
  (∀ (c : Config) (p : Nat), 1 ≤ p → p ≤ 8 → c.eomTicks < c.collisionTicks p ∧ c.collisionTicks p ≤ c.maxTicks) ∧
  (∀ s t : State, exec .collision s = .next t → t.st = .collisionWait →
    s.cfg.prioMode = .fixed → t.colt.period = 27 * s.cfg.ticksPerBit) ∧
  (∀ (s t : State) (n : Nat) (t' : State), exec .collision s = .next t → t.st = .collisionWait →
    exec .collision { s with retrycnt := n } = .next t' → t'.st = .collisionWait → t'.colt = t.colt)

/-- R177: on_col_fire resends from the cursor in COLLISION_WAIT, where V7 of R39 has the cursor at byte 0, and does nothing in any other
state. -/
def Obligations.ColFireResends : Prop :=
  (∀ (s : State) (b : Byte), s.V7 → s.st = .collisionWait → s.txmsg[0]? = some b →
    exec .onColFire s = .next { s with st := .transmitting, out := s.out ++ [.send b], txlast := 0, txcur := 1 }) ∧
  (∀ (s : State) (b : Byte), s.st = .collisionWait → s.txmsg[s.txcur]? = some b →
    exec .onColFire s = .next { s with
      st := .transmitting, out := s.out ++ [.send b], txlast := s.txcur, txcur := s.txcur + 1 }) ∧
  (∀ s : State, s.st ≠ .collisionWait → exec .onColFire s = .next s)

/-- R178: validate_echo delivers the frame and ends the session when it is untainted and equals the Message in length and bytes; else it
is a collision, and nothing is delivered or emitted. -/
def Obligations.ValidateEchoComparesLengthAndBytes : Prop :=
  ∀ (n : Nat) (taint : Bool) (frame : ByteSeq) (s : State),
    (taint = false → n = s.txmsg.length → frame = s.txmsg →
      ∃ t, exec (.validateEcho n taint frame) s = .next t ∧
        t = { s with
          inq := s.inq.push s.cfg.nIn frame, txvalid := false, retrycnt := 0, st := .idle,
          txmsg := t.txmsg, txcur := t.txcur, txlast := t.txlast }) ∧
    ((taint = true ∨ n ≠ s.txmsg.length ∨ frame ≠ s.txmsg) →
      ∃ t, exec (.validateEcho n taint frame) s = .next t ∧ exec .collision s = .next t ∧ t.inq = s.inq ∧ t.out = s.out)

/-- R179, R180: tx_complete and give_up clear the session and RETRYCNT; give_up goes to RECEIVING if the EOM timer runs, else to IDLE.
TXMSG, TXLEN, TXCUR and TXLAST hold no value afterwards, so nothing is said of them; nothing else changes. -/
def Obligations.SessionEnds : Prop :=
  ∀ s : State,
    (∃ t, exec .txComplete s = .next t ∧
      t = { s with txvalid := false, retrycnt := 0, txmsg := t.txmsg, txcur := t.txcur, txlast := t.txlast }) ∧
    (∃ t, exec .giveUp s = .next t ∧
      t = { s with
        txvalid := false, retrycnt := 0, txmsg := t.txmsg, txcur := t.txcur, txlast := t.txlast,
        st := if s.eomt.run = true then .receiving else .idle })

/-- R174, R177, R182: from any state of COLLISION_WAIT, if no byte arrives, nothing is sent before the backoff timer has counted its
period, and on that very tick the retry begins with byte 0 of the unaltered Message. -/
def Obligations.RetryBeginsWhenBackoffElapses : Prop :=
  ∀ (s : State) (b : Byte), s.Inv → s.st = .collisionWait → s.txmsg[0]? = some b →
    (∀ j, j < s.colt.period - s.colt.cnt → ∃ t, execAll (List.replicate j .tick) s = .next t ∧
      t.st = .collisionWait ∧ t.out = s.out ∧ t.txmsg = s.txmsg) ∧
    (∃ t, execAll (List.replicate (s.colt.period - s.colt.cnt) .tick) s = .next t ∧
      t.st = .transmitting ∧ t.out = s.out ++ [.send b] ∧ t.txmsg = s.txmsg ∧ t.txcur = 1 ∧ t.txlast = 0)

/-- R184, the quiet-bus property: a Message of any legal length written in IDLE, each of its bytes echoed after fewer than EOM_TICKS ticks and
nothing else received, then EOM_TICKS ticks or more: exactly its bytes are sent, in order, once; exactly it is added to INQ, once; the
backoff timer is never started; the engine is idle again. -/
def Obligations.QuietBusDeliversMessageOnce : Prop :=
  ∀ (s : State) (m : ByteSeq) (gaps : List Nat) (k : Nat), s.Inv → s.st = .idle →
    2 ≤ m.length → m.length ≤ 21 → gaps.length = m.length → (∀ g ∈ gaps, g < s.cfg.eomTicks) →
    s.cfg.eomTicks ≤ k →
    ∃ t, execAll (.writeMsg m ::
        ((List.zipWith (fun g b => List.replicate g .tick ++ [.rxByte b]) gaps m).flatten ++
          List.replicate k .tick)) s = .next t ∧
      t.st = .idle ∧ t.txvalid = false ∧ t.rxcnt = 0 ∧ t.out = s.out ++ m.map .send ∧
      t.inq = s.inq.push s.cfg.nIn m ∧ t.outq.content = [] ∧ t.colt = s.colt ∧ t.retrycnt = 0

/-! ## Host boundary and reset -/

/-- R195: WRITE_MSG drops a sequence of illegal length without any change, queues a Message outside IDLE, and in IDLE starts it at once. -/
def Obligations.WriteMsgQueuesOrStarts : Prop :=
  (∀ (n : Byte) (r : List Byte), n.toNat ≤ r.length →
    decode (0x30#8 :: n :: r) = .ok (.writeMsg (r.take n.toNat)) (r.drop n.toNat)) ∧
  (∀ (m : ByteSeq) (s : State), m.length < 2 ∨ 21 < m.length → exec (.writeMsg m) s = .next s) ∧
  (∀ (m : ByteSeq) (s : State), 2 ≤ m.length → m.length ≤ 21 → s.st ≠ .idle →
    exec (.writeMsg m) s = .next { s with outq := s.outq.push s.cfg.nOut m }) ∧
  (∀ (b : Byte) (m : ByteSeq) (s : State), 1 ≤ m.length → m.length ≤ 20 → s.Inv → s.st = .idle →
    exec (.writeMsg (b :: m)) s = .next { s with
      outq := { content := [], oldest := (s.outq.oldest + 1) % s.cfg.nOut,
                newest := (s.outq.newest + 1) % s.cfg.nOut },
      txvalid := true, txmsg := b :: m, txcur := 1, txlast := 0, retrycnt := 0, st := .transmitting,
      out := s.out ++ [.send b] })

/-- R196: READ_MSG answers with the oldest inbound Message and removes it, or with the empty record and no change; a Message it answers has
2..21 bytes, and its record is those bytes after 0x90 and their number. -/
def Obligations.ReadMsgAnswersOldest : Prop :=
  ∀ s : State,
    (∀ r : List Byte, decode (0x31#8 :: r) = .ok .readMsg r) ∧ encode (.rspMsg []) = some [0x90#8, 0x00#8] ∧
    (s.inq.V9 s.cfg.nIn → ∀ m ∈ s.inq.content, 2 ≤ m.length ∧ m.length ≤ 21 ∧
      encode (.rspMsg m) = some (0x90#8 :: BitVec.ofNat 8 m.length :: m)) ∧
    (s.inq.content = [] → exec .readMsg s = .next { s with out := s.out ++ [.rspMsg []] }) ∧
    (∀ m r, s.inq.content = m :: r →
      exec .readMsg s = .next { s with
        inq := { content := r, oldest := (s.inq.oldest + 1) % s.cfg.nIn, newest := s.inq.newest },
        out := s.out ++ [.rspMsg m] })

/-- R197: MSG_AVAIL answers whether INQ holds a Message and changes nothing; a READ_MSG right after the answer 1 answers a Message; and no
bus operation takes the last Message from INQ. -/
def Obligations.MsgAvailAnswersWithoutChange : Prop :=
  ∀ s : State,
    (∀ r : List Byte, decode (0x32#8 :: r) = .ok .msgAvail r) ∧
    encode (.rspAvail 0x00#8) = some [0x91#8, 0x00#8] ∧ encode (.rspAvail 0x01#8) = some [0x91#8, 0x01#8] ∧
    (∀ (i : Instr) (t : State), (∃ b, i = .rxByte b) ∨ i = .txDone ∨ i = .tick ∨ (∃ n, i = .ticks n) →
      s.inq.content ≠ [] → exec i s = .next t → t.inq.content ≠ []) ∧
    exec .msgAvail s =
      .next { s with out := s.out ++ [.rspAvail (if s.inq.content = [] then 0x00#8 else 0x01#8)] } ∧
    (s.inq.content ≠ [] → ∃ (m : ByteSeq) (t : State), execAll [.msgAvail, .readMsg] s = .next t ∧
      s.inq.content.head? = some m ∧ t.out = s.out ++ [.rspAvail 0x01#8, .rspMsg m])

/-- R198, R40: RESET puts every field of S at its reset value in any state, emits nothing, and is idempotent. RXBUF, TXMSG, TXLEN, TXCUR,
TXLAST and the slots hold no value after it, so nothing is said of the first five. A byte that arrives afterwards is a foreign one; of the stimuli of one instant RESET is applied first. -/
def Obligations.ResetInitialisesEveryField : Prop :=
  (∀ r : List Byte, decode (0x01#8 :: r) = .ok .reset r) ∧
  (∀ n : Instant, n.reset = true → ∃ is, n.order = .reset :: is) ∧
  (∀ s : State, ∃ t, exec .reset s = .next t ∧
    t = { s with
      st := .idle, rxcnt := 0, rxtaint := false, txvalid := false, retrycnt := 0,
      eomt := { period := 11 * s.cfg.ticksPerBit, cnt := 0, run := false },
      colt := { period := 27 * s.cfg.ticksPerBit, cnt := 0, run := false },
      inq := { content := [], oldest := 0, newest := s.cfg.nIn - 1 },
      outq := { content := [], oldest := 0, newest := s.cfg.nOut - 1 },
      rxbuf := t.rxbuf, txmsg := t.txmsg, txcur := t.txcur, txlast := t.txlast } ∧
    exec .reset t = .next t ∧
    ∀ b : Byte, ∃ u, exec (.rxByte b) t = .next u ∧ u.st = .receiving ∧ u.rxcnt = 1 ∧ u.cell .rxbuf 0 = some b) ∧
  (∀ s u : State, s.cfg = u.cfg →
    exec .reset { s with out := u.out, ret := u.ret, stim := u.stim } = exec .reset u)

/-! ## Outputs and collaborators -/

/-- R85, R125: an output record is appended to the outputs and changes no field of S. -/
def Obligations.OutputRecordsAreAppended : Prop :=
  (∀ (b : Byte) (s : State), exec (.send b) s = .next { s with out := s.out ++ [.send b] }) ∧
  (∀ (m : ByteSeq) (s : State), m.length = 0 ∨ (2 ≤ m.length ∧ m.length ≤ 21) →
    exec (.rspMsg m) s = .next { s with out := s.out ++ [.rspMsg m] }) ∧
  (∀ (v : Byte) (s : State), v.toNat ≤ 1 → exec (.rspAvail v) s = .next { s with out := s.out ++ [.rspAvail v] })

/-- R128, R129: a character is a start bit 0, the data bits least significant first, a stop bit 1; decoding ten line values that begin at a
start bit takes the middle eight whatever the stop bit, and the Transport then issues RX_BYTE of that byte; decoding an encoded byte gives
it back. That frame_decode takes the middle eight also of ten values that begin with 1, of which no character consists, is the model's choice
(log entry 12). -/
def Obligations.CharacterCodec : Prop :=
  (∀ (b : Byte) (s : State), exec (.frameEncode b) s = .next { s with
    ret := .line [false, b[0], b[1], b[2], b[3], b[4], b[5], b[6], b[7], true] }) ∧
  (∀ (w1 w2 w3 w4 w5 w6 w7 w8 w9 : Bool) (s : State), ∃ b : Byte,
    exec (.frameDecode [false, w1, w2, w3, w4, w5, w6, w7, w8, w9]) s = .next { s with ret := .byte b } ∧
    [b[0], b[1], b[2], b[3], b[4], b[5], b[6], b[7]] = [w1, w2, w3, w4, w5, w6, w7, w8] ∧
    lineIn [false, w1, w2, w3, w4, w5, w6, w7, w8, w9] = some (.rxByte b)) ∧
  (∀ (w1 w2 w3 w4 w5 w6 w7 w8 w9 : Bool) (s : State), ∃ b : Byte,
    exec (.frameDecode [true, w1, w2, w3, w4, w5, w6, w7, w8, w9]) s = .next { s with ret := .byte b } ∧
    [b[0], b[1], b[2], b[3], b[4], b[5], b[6], b[7]] = [w1, w2, w3, w4, w5, w6, w7, w8]) ∧
  (∀ (b : Byte) (w : List Bool) (s t : State), exec (.frameEncode b) s = .next t → t.ret = .line w →
    exec (.frameDecode w) s = .next { s with ret := .byte b } ∧ lineIn w = some (.rxByte b))

/-- R210, R213: hex_encode yields `$`, two upper-case digits a byte, bits 7..4 first, `*`, and hex_decode of it gives the Message back. -/
def Obligations.HexRoundTrip : Prop :=
  ∀ (m : ByteSeq) (s : State), ∃ w : List Char, exec (.hexEncode m) s = .next { s with ret := .text w } ∧
    w.length = 2 * m.length + 2 ∧ w.head? = some '$' ∧ w.getLast? = some '*' ∧
    (∀ (j : Nat) (b : Byte), m[j]? = some b →
      w[2 * j + 1]? =
        ['0', '1', '2', '3', '4', '5', '6', '7', '8', '9', 'A', 'B', 'C', 'D', 'E', 'F'][(b.extractLsb 7 4).toNat]? ∧
      w[2 * j + 2]? =
        ['0', '1', '2', '3', '4', '5', '6', '7', '8', '9', 'A', 'B', 'C', 'D', 'E', 'F'][(b.extractLsb 3 0).toNat]?) ∧
    exec (.hexDecode w) s = .next { s with ret := .bytes (some m) }

/-- R211: hex_decode rejects exactly the strings that do not start with `$` and end with `*`, or have an odd interior, or a character
in it that is no hex digit of either case; each byte of an accepted frame is 16 times its first digit plus its second; and the empty interior gives no Message. -/
def Obligations.HexDecodeAcceptsExactlyFrames : Prop :=
  ∀ (w : List Char) (s : State), ∃ r, exec (.hexDecode w) s = .next { s with ret := .bytes r } ∧
    (r = none ↔ w.length < 2 ∨ w.head? ≠ some '$' ∨ w.getLast? ≠ some '*' ∨
      (w.drop 1).dropLast.length % 2 ≠ 0 ∨
      ∃ c ∈ (w.drop 1).dropLast,
        c ∉ ['0', '1', '2', '3', '4', '5', '6', '7', '8', '9', 'A', 'B', 'C', 'D', 'E', 'F', 'a', 'b', 'c', 'd', 'e', 'f']) ∧
    (∀ m, r = some m → 2 * m.length = (w.drop 1).dropLast.length ∧
      ∀ (j : Nat) (b : Byte), m[j]? = some b → ∃ (x y : Char) (hi lo : Nat),
        (w.drop 1).dropLast[2 * j]? = some x ∧ (w.drop 1).dropLast[2 * j + 1]? = some y ∧ b.toNat = 16 * hi + lo ∧
        (['0', '1', '2', '3', '4', '5', '6', '7', '8', '9', 'A', 'B', 'C', 'D', 'E', 'F'][hi]? = some x ∨
          ['0', '1', '2', '3', '4', '5', '6', '7', '8', '9', 'a', 'b', 'c', 'd', 'e', 'f'][hi]? = some x) ∧
        (['0', '1', '2', '3', '4', '5', '6', '7', '8', '9', 'A', 'B', 'C', 'D', 'E', 'F'][lo]? = some y ∨
          ['0', '1', '2', '3', '4', '5', '6', '7', '8', '9', 'a', 'b', 'c', 'd', 'e', 'f'][lo]? = some y)) ∧
    (w = ['$', '*'] → r = some [] ∧ exec (.writeMsg []) s = .next s)

/-- R118, R238, R268: at the instant the EOM timer would fire, a byte of that instant is applied first and joins the frame; a WRITE_MSG of
that instant is applied after the fire and starts at once. -/
def Obligations.SimultaneousStimuliAtTheFire : Prop :=
  ∀ s : State, s.Inv → s.st = .receiving → s.eomt.expires = true → s.outq.content = [] →
    (∀ b : Byte, ∃ t, applyInstant { rx := some b, tick := true } s = .next t ∧ t.st = .receiving ∧
      t.rxcnt = min (s.rxcnt + 1) 22 ∧ t.inq = s.inq ∧
      t.eomt = { period := s.eomt.period, cnt := 1, run := true }) ∧
    (∀ (b : Byte) (m : ByteSeq), 1 ≤ m.length → m.length ≤ 20 →
      ∃ t, applyInstant { tick := true, host := some (.write (b :: m)) } s = .next t ∧
        t.st = .transmitting ∧ t.rxcnt = 0 ∧ t.txmsg = b :: m ∧ t.out = s.out ++ [.send b])

/-- R133, R126: under the loopback Transport a Message written in IDLE is sent to its end, each echo causing the next SEND, and waits for the
EOM fire; under the faulting Transport that replaces the echo of byte j by another value, the bytes up to j are sent, and the replaced
echo taints the frame and starts the backoff, the Message kept and nothing delivered (test runs: log entry 17; form of RXBUF: log
entry 4). -/
def Obligations.TransportEchoesDriveTheSession : Prop :=
  ∀ (s : State) (m : ByteSeq), s.Inv → s.st = .idle → 2 ≤ m.length → m.length ≤ 21 →
    (∀ n, 2 * m.length + 1 ≤ n →
      ∃ r, TestRun.run n { script := [.writeMsg m], state := s } = .next r ∧ r.pending = [] ∧ r.script = [] ∧
        r.state.st = .transmitting ∧ r.state.rxtaint = false ∧ r.state.rxbuf = m ∧
        r.state.out = s.out ++ m.map .send ∧ r.state.txmsg = m ∧ r.state.inq = s.inq) ∧
    (∀ (j n : Nat) (b e : Byte), m[j]? = some b → e ≠ b → 2 * j + 3 ≤ n →
      ∃ r, TestRun.run n { faults := [(j, e)], script := [.writeMsg m], state := s } = .next r ∧ r.pending = [] ∧ r.script = [] ∧
        r.state.st = .collisionWait ∧ r.state.rxtaint = true ∧ r.state.rxbuf = m.take j ++ [e] ∧
        r.state.out = s.out ++ (m.take (j + 1)).map .send ∧ r.state.txmsg = m ∧ r.state.inq = s.inq)

end
end

