-- ==== Sys2Proof/Laws/Decode.lean ====
section
/-! SUPPORT. The small lemmas of the decoder: the two operand shapes that take more than one byte, and that the stimulus decoder
answers stimuli only. -/

namespace Sys2Proof

/-- The two bytes of a 16-bit operand give it back (R86, format H). -/
theorem le16_lo8_hi8 (n : BitVec 16) : le16 (lo8 n) (hi8 n) = n := by
  apply BitVec.eq_of_toNat_eq
  simp [le16, lo8, hi8, Nat.shiftRight_eq_div_pow]; omega

theorem toNat_le16 (lo hi : Byte) : (le16 lo hi).toNat = lo.toNat + 256 * hi.toNat := by simp [le16]; omega

theorem lo8_le16 (lo hi : Byte) : lo8 (le16 lo hi) = lo := by
  apply BitVec.eq_of_toNat_eq
  rw [lo8, BitVec.toNat_setWidth, toNat_le16]; omega

theorem hi8_le16 (lo hi : Byte) : hi8 (le16 lo hi) = hi := by
  apply BitVec.eq_of_toNat_eq
  rw [hi8, BitVec.toNat_setWidth, BitVec.toNat_ushiftRight, toNat_le16, Nat.shiftRight_eq_div_pow]; omega

/-- The sequence operand of format M is taken back from its length byte and its bytes (R86). -/
theorem takeSeq_append {m : ByteSeq} (rest : List Byte) (h : m.length ≤ 255) :
    takeSeq (BitVec.ofNat 8 m.length :: (m ++ rest)) = some (m, rest) := by
  have hn : (BitVec.ofNat 8 m.length).toNat = m.length := by simp; omega
  rw [takeSeq, hn, if_pos (by simp)]; simp

/-- Whatever `takeSeq` accepts is a length byte and that many bytes. -/
theorem eq_append_of_takeSeq {t r : List Byte} {m : ByteSeq} (h : takeSeq t = some (m, r)) :
    m.length ≤ 255 ∧ t = BitVec.ofNat 8 m.length :: (m ++ r) := by
  cases t with
  | nil => cases h
  | cons n t =>
    simp only [takeSeq] at h
    split at h
    · rename_i hl
      simp only [Option.some.injEq, Prod.mk.injEq] at h
      obtain ⟨rfl, rfl⟩ := h
      have h8 := n.isLt
      exact ⟨by simp; omega, by simp [Nat.min_eq_left hl]⟩
    · cases h

/-- The stimulus decoder refuses output opcodes and answers as the record decoder does for any other (R87). -/
theorem decodeStimulus_cons {op : Byte} (t : List Byte) (h : op ≠ 0x80#8 ∧ op ≠ 0x90#8 ∧ op ≠ 0x91#8) :
    decodeStimulus (op :: t) = decode (op :: t) := by
  rw [decodeStimulus, if_neg]; simp [h]

/-- What the stimulus decoder answers is a stimulus (R84, R87). -/
theorem isStimulus_of_decodeStimulus {bs rest : List Byte} {i : Instr} (h : decodeStimulus bs = .ok i rest) :
    i.isStimulus := by
  cases bs with
  | nil => cases h
  | cons op t =>
    simp only [decodeStimulus] at h
    split at h
    · cases h
    · rename_i hop
      simp only [not_or] at hop
      simp only [decode, hop.1, hop.2.1, hop.2.2, if_false] at h
      repeat' (split at h)
      all_goals first | (cases h; done) | (cases h; rfl)

end Sys2Proof
end

