-- ==== Sys2Proof/Laws/State.lean ====
section
/-! SUPPORT. The fields of a state after each named update, one lemma a field, so that no proof unfolds an update. -/

namespace Sys2Proof

@[simp] theorem Config.capacity_inq (c : Config) : c.capacity .inq = c.nIn := rfl
@[simp] theorem Config.capacity_outq (c : Config) : c.capacity .outq = c.nOut := rfl

end Sys2Proof

namespace Sys2Proof.Machine
variable (s : State) (t : TimerId) (v : Timer) (q : QueueId) (w : Queue) (o : Output) (r : Result)

/-! ## Timers and queues by name -/

@[simp] theorem State.timer_eomt : s.timer .eomt = s.eomt := rfl
@[simp] theorem State.timer_colt : s.timer .colt = s.colt := rfl
@[simp] theorem State.queue_inq : s.queue .inq = s.inq := rfl
@[simp] theorem State.queue_outq : s.queue .outq = s.outq := rfl
@[simp] theorem State.setTimer_eomt : s.setTimer .eomt v = { s with eomt := v } := rfl
@[simp] theorem State.setTimer_colt : s.setTimer .colt v = { s with colt := v } := rfl
@[simp] theorem State.setQueue_inq : s.setQueue .inq w = { s with inq := w } := rfl
@[simp] theorem State.setQueue_outq : s.setQueue .outq w = { s with outq := w } := rfl
@[simp] theorem State.timer_setTimer : (s.setTimer t v).timer t = v := by cases t <;> rfl
@[simp] theorem State.queue_setQueue : (s.setQueue q w).queue q = w := by cases q <;> rfl
theorem State.timer_setTimer_of_ne {t t' : TimerId} (h : t ≠ t') : (s.setTimer t v).timer t' = s.timer t' := by
  cases t <;> cases t' <;> first | rfl | exact absurd rfl h
theorem State.queue_setQueue_of_ne {q q' : QueueId} (h : q ≠ q') : (s.setQueue q w).queue q' = s.queue q' := by
  cases q <;> cases q' <;> first | rfl | exact absurd rfl h
@[simp] theorem State.setTimer_setTimer (v' : Timer) : (s.setTimer t v).setTimer t v' = s.setTimer t v' := by cases t <;> rfl
@[simp] theorem State.setTimer_timer : s.setTimer t (s.timer t) = s := by cases t <;> rfl
@[simp] theorem State.setQueue_queue : s.setQueue q (s.queue q) = s := by cases q <;> rfl
@[simp] theorem State.timer_setQueue : (s.setQueue q w).timer t = s.timer t := by cases q <;> rfl
@[simp] theorem State.queue_setTimer : (s.setTimer t v).queue q = s.queue q := by cases t <;> rfl

/-! ## `setTimer` -/

@[simp] theorem State.setTimer_cfg_field : (s.setTimer t v).cfg = s.cfg := by cases t <;> rfl
@[simp] theorem State.setTimer_st_field : (s.setTimer t v).st = s.st := by cases t <;> rfl
@[simp] theorem State.setTimer_rxbuf_field : (s.setTimer t v).rxbuf = s.rxbuf := by cases t <;> rfl
@[simp] theorem State.setTimer_rxcnt_field : (s.setTimer t v).rxcnt = s.rxcnt := by cases t <;> rfl
@[simp] theorem State.setTimer_rxtaint_field : (s.setTimer t v).rxtaint = s.rxtaint := by cases t <;> rfl
@[simp] theorem State.setTimer_txvalid_field : (s.setTimer t v).txvalid = s.txvalid := by cases t <;> rfl
@[simp] theorem State.setTimer_txmsg_field : (s.setTimer t v).txmsg = s.txmsg := by cases t <;> rfl
@[simp] theorem State.setTimer_txcur_field : (s.setTimer t v).txcur = s.txcur := by cases t <;> rfl
@[simp] theorem State.setTimer_txlast_field : (s.setTimer t v).txlast = s.txlast := by cases t <;> rfl
@[simp] theorem State.setTimer_retrycnt_field : (s.setTimer t v).retrycnt = s.retrycnt := by cases t <;> rfl
@[simp] theorem State.setTimer_inq_field : (s.setTimer t v).inq = s.inq := by cases t <;> rfl
@[simp] theorem State.setTimer_outq_field : (s.setTimer t v).outq = s.outq := by cases t <;> rfl
@[simp] theorem State.setTimer_out_field : (s.setTimer t v).out = s.out := by cases t <;> rfl
@[simp] theorem State.setTimer_ret_field : (s.setTimer t v).ret = s.ret := by cases t <;> rfl
@[simp] theorem State.setTimer_stim_field : (s.setTimer t v).stim = s.stim := by cases t <;> rfl

/-! ## `setQueue` -/

@[simp] theorem State.setQueue_cfg_field : (s.setQueue q w).cfg = s.cfg := by cases q <;> rfl
@[simp] theorem State.setQueue_st_field : (s.setQueue q w).st = s.st := by cases q <;> rfl
@[simp] theorem State.setQueue_rxbuf_field : (s.setQueue q w).rxbuf = s.rxbuf := by cases q <;> rfl
@[simp] theorem State.setQueue_rxcnt_field : (s.setQueue q w).rxcnt = s.rxcnt := by cases q <;> rfl
@[simp] theorem State.setQueue_rxtaint_field : (s.setQueue q w).rxtaint = s.rxtaint := by cases q <;> rfl
@[simp] theorem State.setQueue_txvalid_field : (s.setQueue q w).txvalid = s.txvalid := by cases q <;> rfl
@[simp] theorem State.setQueue_txmsg_field : (s.setQueue q w).txmsg = s.txmsg := by cases q <;> rfl
@[simp] theorem State.setQueue_txcur_field : (s.setQueue q w).txcur = s.txcur := by cases q <;> rfl
@[simp] theorem State.setQueue_txlast_field : (s.setQueue q w).txlast = s.txlast := by cases q <;> rfl
@[simp] theorem State.setQueue_retrycnt_field : (s.setQueue q w).retrycnt = s.retrycnt := by cases q <;> rfl
@[simp] theorem State.setQueue_eomt_field : (s.setQueue q w).eomt = s.eomt := by cases q <;> rfl
@[simp] theorem State.setQueue_colt_field : (s.setQueue q w).colt = s.colt := by cases q <;> rfl
@[simp] theorem State.setQueue_out_field : (s.setQueue q w).out = s.out := by cases q <;> rfl
@[simp] theorem State.setQueue_ret_field : (s.setQueue q w).ret = s.ret := by cases q <;> rfl
@[simp] theorem State.setQueue_stim_field : (s.setQueue q w).stim = s.stim := by cases q <;> rfl

/-! ## `emit` -/

@[simp] theorem emit_cfg : (emit o s).cfg = s.cfg := rfl
@[simp] theorem emit_st : (emit o s).st = s.st := rfl
@[simp] theorem emit_rxbuf : (emit o s).rxbuf = s.rxbuf := rfl
@[simp] theorem emit_rxcnt : (emit o s).rxcnt = s.rxcnt := rfl
@[simp] theorem emit_rxtaint : (emit o s).rxtaint = s.rxtaint := rfl
@[simp] theorem emit_txvalid : (emit o s).txvalid = s.txvalid := rfl
@[simp] theorem emit_txmsg : (emit o s).txmsg = s.txmsg := rfl
@[simp] theorem emit_txcur : (emit o s).txcur = s.txcur := rfl
@[simp] theorem emit_txlast : (emit o s).txlast = s.txlast := rfl
@[simp] theorem emit_retrycnt : (emit o s).retrycnt = s.retrycnt := rfl
@[simp] theorem emit_eomt : (emit o s).eomt = s.eomt := rfl
@[simp] theorem emit_colt : (emit o s).colt = s.colt := rfl
@[simp] theorem emit_inq : (emit o s).inq = s.inq := rfl
@[simp] theorem emit_outq : (emit o s).outq = s.outq := rfl
@[simp] theorem emit_out : (emit o s).out = s.out ++ [o] := rfl
@[simp] theorem emit_ret : (emit o s).ret = s.ret := rfl
@[simp] theorem emit_stim : (emit o s).stim = s.stim := rfl

/-! ## `returning` -/

@[simp] theorem returning_cfg : (returning r s).cfg = s.cfg := rfl
@[simp] theorem returning_st : (returning r s).st = s.st := rfl
@[simp] theorem returning_rxbuf : (returning r s).rxbuf = s.rxbuf := rfl
@[simp] theorem returning_rxcnt : (returning r s).rxcnt = s.rxcnt := rfl
@[simp] theorem returning_rxtaint : (returning r s).rxtaint = s.rxtaint := rfl
@[simp] theorem returning_txvalid : (returning r s).txvalid = s.txvalid := rfl
@[simp] theorem returning_txmsg : (returning r s).txmsg = s.txmsg := rfl
@[simp] theorem returning_txcur : (returning r s).txcur = s.txcur := rfl
@[simp] theorem returning_txlast : (returning r s).txlast = s.txlast := rfl
@[simp] theorem returning_retrycnt : (returning r s).retrycnt = s.retrycnt := rfl
@[simp] theorem returning_eomt : (returning r s).eomt = s.eomt := rfl
@[simp] theorem returning_colt : (returning r s).colt = s.colt := rfl
@[simp] theorem returning_inq : (returning r s).inq = s.inq := rfl
@[simp] theorem returning_outq : (returning r s).outq = s.outq := rfl
@[simp] theorem returning_out : (returning r s).out = s.out := rfl
@[simp] theorem returning_ret : (returning r s).ret = r := rfl
@[simp] theorem returning_stim : (returning r s).stim = s.stim := rfl

/-! ## `clearAssembly` -/

@[simp] theorem clearAssembly_cfg : (clearAssembly s).cfg = s.cfg := rfl
@[simp] theorem clearAssembly_st : (clearAssembly s).st = s.st := rfl
@[simp] theorem clearAssembly_rxbuf : (clearAssembly s).rxbuf = [] := rfl
@[simp] theorem clearAssembly_rxcnt : (clearAssembly s).rxcnt = 0 := rfl
@[simp] theorem clearAssembly_rxtaint : (clearAssembly s).rxtaint = false := rfl
@[simp] theorem clearAssembly_txvalid : (clearAssembly s).txvalid = s.txvalid := rfl
@[simp] theorem clearAssembly_txmsg : (clearAssembly s).txmsg = s.txmsg := rfl
@[simp] theorem clearAssembly_txcur : (clearAssembly s).txcur = s.txcur := rfl
@[simp] theorem clearAssembly_txlast : (clearAssembly s).txlast = s.txlast := rfl
@[simp] theorem clearAssembly_retrycnt : (clearAssembly s).retrycnt = s.retrycnt := rfl
@[simp] theorem clearAssembly_eomt : (clearAssembly s).eomt = s.eomt := rfl
@[simp] theorem clearAssembly_colt : (clearAssembly s).colt = s.colt := rfl
@[simp] theorem clearAssembly_inq : (clearAssembly s).inq = s.inq := rfl
@[simp] theorem clearAssembly_outq : (clearAssembly s).outq = s.outq := rfl
@[simp] theorem clearAssembly_out : (clearAssembly s).out = s.out := rfl
@[simp] theorem clearAssembly_ret : (clearAssembly s).ret = s.ret := rfl
@[simp] theorem clearAssembly_stim : (clearAssembly s).stim = s.stim := rfl

/-! ## `endSession` -/

@[simp] theorem endSession_cfg : (endSession s).cfg = s.cfg := rfl
@[simp] theorem endSession_st : (endSession s).st = s.st := rfl
@[simp] theorem endSession_rxbuf : (endSession s).rxbuf = s.rxbuf := rfl
@[simp] theorem endSession_rxcnt : (endSession s).rxcnt = s.rxcnt := rfl
@[simp] theorem endSession_rxtaint : (endSession s).rxtaint = s.rxtaint := rfl
@[simp] theorem endSession_txvalid : (endSession s).txvalid = false := rfl
@[simp] theorem endSession_txmsg : (endSession s).txmsg = [] := rfl
@[simp] theorem endSession_txcur : (endSession s).txcur = 0 := rfl
@[simp] theorem endSession_txlast : (endSession s).txlast = 0 := rfl
@[simp] theorem endSession_retrycnt : (endSession s).retrycnt = 0 := rfl
@[simp] theorem endSession_eomt : (endSession s).eomt = s.eomt := rfl
@[simp] theorem endSession_colt : (endSession s).colt = s.colt := rfl
@[simp] theorem endSession_inq : (endSession s).inq = s.inq := rfl
@[simp] theorem endSession_outq : (endSession s).outq = s.outq := rfl
@[simp] theorem endSession_out : (endSession s).out = s.out := rfl
@[simp] theorem endSession_ret : (endSession s).ret = s.ret := rfl
@[simp] theorem endSession_stim : (endSession s).stim = s.stim := rfl

/-! ## `writeRxbuf` -/

@[simp] theorem State.writeRxbuf_cfg (i : Nat) (b : Byte) : (s.writeRxbuf i b).cfg = s.cfg := rfl
@[simp] theorem State.writeRxbuf_st (i : Nat) (b : Byte) : (s.writeRxbuf i b).st = s.st := rfl
@[simp] theorem State.writeRxbuf_rxcnt (i : Nat) (b : Byte) : (s.writeRxbuf i b).rxcnt = s.rxcnt := rfl
@[simp] theorem State.writeRxbuf_rxtaint (i : Nat) (b : Byte) : (s.writeRxbuf i b).rxtaint = s.rxtaint := rfl
@[simp] theorem State.writeRxbuf_txvalid (i : Nat) (b : Byte) : (s.writeRxbuf i b).txvalid = s.txvalid := rfl
@[simp] theorem State.writeRxbuf_txmsg (i : Nat) (b : Byte) : (s.writeRxbuf i b).txmsg = s.txmsg := rfl
@[simp] theorem State.writeRxbuf_txcur (i : Nat) (b : Byte) : (s.writeRxbuf i b).txcur = s.txcur := rfl
@[simp] theorem State.writeRxbuf_txlast (i : Nat) (b : Byte) : (s.writeRxbuf i b).txlast = s.txlast := rfl
@[simp] theorem State.writeRxbuf_retrycnt (i : Nat) (b : Byte) : (s.writeRxbuf i b).retrycnt = s.retrycnt := rfl
@[simp] theorem State.writeRxbuf_eomt (i : Nat) (b : Byte) : (s.writeRxbuf i b).eomt = s.eomt := rfl
@[simp] theorem State.writeRxbuf_colt (i : Nat) (b : Byte) : (s.writeRxbuf i b).colt = s.colt := rfl
@[simp] theorem State.writeRxbuf_inq (i : Nat) (b : Byte) : (s.writeRxbuf i b).inq = s.inq := rfl
@[simp] theorem State.writeRxbuf_outq (i : Nat) (b : Byte) : (s.writeRxbuf i b).outq = s.outq := rfl
@[simp] theorem State.writeRxbuf_out (i : Nat) (b : Byte) : (s.writeRxbuf i b).out = s.out := rfl
@[simp] theorem State.writeRxbuf_ret (i : Nat) (b : Byte) : (s.writeRxbuf i b).ret = s.ret := rfl
@[simp] theorem State.writeRxbuf_stim (i : Nat) (b : Byte) : (s.writeRxbuf i b).stim = s.stim := rfl

/-! ## Reads of the stores -/

@[simp] theorem State.cell_rxbuf (i : Nat) : s.cell .rxbuf i = s.rxbuf[i]? := rfl
@[simp] theorem State.cell_txmsg (i : Nat) : s.cell .txmsg i = s.txmsg[i]? := rfl
@[simp] theorem State.cell_slot (k i : Nat) :
    s.cell (.slot q k) i = ((s.queue q).slot (s.cfg.capacity q) k).bind fun m => m[i]? := rfl
@[simp] theorem State.txlen_eq : s.txlen = s.txmsg.length := rfl
@[simp] theorem Queue.count_eq (q : Queue) : q.count = q.content.length := rfl

end Sys2Proof.Machine
end

