-- ==== Sys2Proof/Laws/Stores.lean ====
section
/-! SUPPORT. The laws of the byte stores and of the queues: a read gives what is held, a read after a write gives the value
written, every other cell stays; the operations on a queue keep its canonical form. -/

namespace Sys2Proof.Machine

/-! ## Reads -/

/-- A cell that holds a value reads as that value (R9). -/
theorem State.memRead_of_cell {s : State} {st : Store} {i : Nat} {b : Byte} (h : s.cell st i = some b) :
    s.memRead st i = b := by simp [State.memRead, h]

/-- Two states with the same cells read the same. -/
theorem State.memRead_congr {s u : State} {st : Store} {i : Nat} (h : s.cell st i = u.cell st i) :
    s.memRead st i = u.memRead st i := by simp [State.memRead, h]

theorem State.memRead_txmsg {s : State} {i : Nat} {b : Byte} (h : s.txmsg[i]? = some b) : s.memRead .txmsg i = b :=
  State.memRead_of_cell h

theorem State.memRead_rxbuf {s : State} {i : Nat} {b : Byte} (h : s.rxbuf[i]? = some b) : s.memRead .rxbuf i = b :=
  State.memRead_of_cell h

/-- Reading as many cells as a held list has gives the list. -/
theorem State.memSlice_of_cells {s : State} {st : Store} {l : ByteSeq} {n : Nat} (hn : l.length = n)
    (h : ∀ i, s.cell st i = l[i]?) : s.memSlice st n = l := by
  subst hn
  refine List.ext_getElem (by simp [State.memSlice]) fun i h1 h2 => ?_
  simp only [State.memSlice, List.getElem_map, List.getElem_range]
  exact State.memRead_of_cell (by rw [h, List.getElem?_eq_getElem h2])

theorem State.memSlice_rxbuf {s : State} {n : Nat} (hn : s.rxbuf.length = n) : s.memSlice .rxbuf n = s.rxbuf :=
  State.memSlice_of_cells hn fun _ => rfl

theorem State.memSlice_txmsg {s : State} {n : Nat} (hn : s.txmsg.length = n) : s.memSlice .txmsg n = s.txmsg :=
  State.memSlice_of_cells hn fun _ => rfl

@[simp] theorem State.length_memSlice (s : State) (st : Store) (n : Nat) : (s.memSlice st n).length = n := by
  simp [State.memSlice]

/-! ## The write to `RXBUF` -/

/-- The write to the first cell without a value appends (R155). -/
theorem State.writeRxbuf_append {s : State} {i : Nat} (b : Byte) (hi : s.rxbuf.length = i) :
    s.writeRxbuf i b = { s with rxbuf := s.rxbuf ++ [b] } := by
  simp [State.writeRxbuf, State.memSlice_rxbuf hi, List.drop_eq_nil_of_le (show s.rxbuf.length ≤ i + 1 by omega)]

/-- Read after write, the same cell. -/
theorem State.cell_writeRxbuf_self (s : State) (i : Nat) (b : Byte) : (s.writeRxbuf i b).cell .rxbuf i = some b := by
  simp [State.writeRxbuf]

/-- Read after write, another cell that is held or lies beyond the written one. -/
theorem State.cell_writeRxbuf_of_ne {s : State} {i j : Nat} (b : Byte) (hj : j ≠ i) (h : i ≤ s.rxbuf.length) :
    (s.writeRxbuf i b).cell .rxbuf j = s.cell .rxbuf j := by
  simp only [State.writeRxbuf, State.cell_rxbuf]
  rcases Nat.lt_or_gt_of_ne hj with hlt | hgt
  · rw [List.getElem?_append_left (by simpa using hlt), List.getElem?_eq_getElem (by simpa using hlt),
      List.getElem?_eq_getElem (by omega)]
    simp only [State.memSlice, List.getElem_map, List.getElem_range, Option.some.injEq]
    exact State.memRead_rxbuf (List.getElem?_eq_getElem (by omega))
  · rw [List.getElem?_append_right (by simp; omega)]
    obtain ⟨k, rfl⟩ : ∃ k, j = i + 1 + k := ⟨j - (i + 1), by omega⟩
    have : i + 1 + k - (s.memSlice .rxbuf i).length = k + 1 := by simp; omega
    rw [this, List.getElem?_cons_succ, List.getElem?_drop]

/-- The write to `RXBUF` touches no other store. -/
theorem State.cell_writeRxbuf_other (s : State) (i j : Nat) (b : Byte) {st : Store} (h : st ≠ .rxbuf) :
    (s.writeRxbuf i b).cell st j = s.cell st j := by
  cases st with
  | rxbuf => exact absurd rfl h
  | txmsg => rfl
  | slot q k => cases q <;> rfl

/-! ## Queues -/

/-- `Q_PUSH` on a queue with room appends. -/
theorem Queue.push_of_room {n : Nat} {q : Queue} (m : ByteSeq) (h : q.content.length ≠ n) :
    q.push n m = { content := q.content ++ [m], oldest := q.oldest, newest := (q.newest + 1) % n } := by
  simp [Queue.push, h]

/-- `Q_PUSH` on a full queue evicts the oldest entry. -/
theorem Queue.push_of_full {n : Nat} {q : Queue} (m : ByteSeq) (h : q.content.length = n) :
    q.push n m =
      { content := q.content.tail ++ [m], oldest := (q.oldest + 1) % n, newest := (q.newest + 1) % n } := by
  simp [Queue.push, h]

/-- What `Q_PUSH` leaves as content: the newest `n` of what was held and the new Message (R140, R144). -/
theorem Queue.push_content {n : Nat} {q : Queue} (m : ByteSeq) (hn : 0 < n) (h : q.content.length ≤ n) :
    (q.push n m).content = (q.content ++ [m]).drop (q.content.length + 1 - n) := by
  by_cases hq : q.content.length = n
  · rw [Queue.push_of_full m hq, show q.content.length + 1 - n = 1 by omega]
    cases hc : q.content with
    | nil => simp [hc] at hq; omega
    | cons a t => rfl
  · rw [Queue.push_of_room m hq, show q.content.length + 1 - n = 0 by omega]; rfl

theorem Queue.push_length {n : Nat} {q : Queue} (m : ByteSeq) (hn : 0 < n) (h : q.content.length ≤ n) :
    (q.push n m).content.length = min (q.content.length + 1) n := by
  rw [Queue.push_content m hn h]; simp; omega

/-- After a push the queue is not empty. -/
theorem Queue.push_ne_nil (n : Nat) (q : Queue) (m : ByteSeq) : (q.push n m).content ≠ [] := by
  unfold Queue.push; split <;> simp

theorem Queue.pop_of_nil (n : Nat) {q : Queue} (h : q.content = []) : q.pop n = (none, q) := by simp [Queue.pop, h]

theorem Queue.pop_of_cons (n : Nat) {q : Queue} {m : ByteSeq} {r : List ByteSeq} (h : q.content = m :: r) :
    q.pop n = (some m, { content := r, oldest := (q.oldest + 1) % n, newest := q.newest }) := by simp [Queue.pop, h]

theorem Queue.isEmpty_iff (q : Queue) : q.isEmpty = true ↔ q.content = [] := by simp [Queue.isEmpty]

theorem Queue.isEmpty_eq_false_iff (q : Queue) : q.isEmpty = false ↔ q.content ≠ [] := by simp [Queue.isEmpty]

/-- One wrap at most: where an index lands in a ring. -/
theorem wrap_cases {n a : Nat} (h : a < 2 * n) : a < n ∧ a % n = a ∨ n ≤ a ∧ a % n = a - n := by
  rcases Nat.lt_or_ge a n with h1 | h1
  · exact .inl ⟨h1, Nat.mod_eq_of_lt h1⟩
  · exact .inr ⟨h1, by rw [Nat.mod_eq_sub_mod h1, Nat.mod_eq_of_lt (by omega)]⟩

/-! `NEWEST` after a push on an empty ring, on a full one, on one with room, and after a pop: the relation of V9 is kept. -/

theorem ring_push_empty {n o : Nat} (ho : o < n) : ((o + n - 1) % n + 1) % n = o := by
  rcases wrap_cases (a := o + n - 1) (n := n) (by omega) with ⟨_, e1⟩ | ⟨_, e1⟩ <;> rw [e1]
  · rw [show o + n - 1 + 1 = n by omega, Nat.mod_self]; omega
  · rw [Nat.mod_eq_of_lt (by omega)]; omega

theorem ring_push_full {n o : Nat} (ho : o < n) : ((o + n - 1) % n + 1) % n = ((o + 1) % n + n - 1) % n := by
  rw [ring_push_empty ho]
  rcases wrap_cases (a := o + 1) (n := n) (by omega) with ⟨_, e1⟩ | ⟨_, e1⟩ <;> rw [e1]
  · rw [show o + 1 + n - 1 = o + n by omega, Nat.add_mod_right, Nat.mod_eq_of_lt ho]
  · rw [Nat.mod_eq_of_lt (by omega)]; omega

theorem ring_push_room {n o c : Nat} (ho : o < n) (hc : 0 < c) (hcn : c < n) :
    ((o + c - 1) % n + 1) % n = (o + (c + 1) - 1) % n := by
  rcases wrap_cases (a := o + c - 1) (n := n) (by omega) with ⟨_, e1⟩ | ⟨_, e1⟩ <;> rw [e1]
  · congr 1; omega
  · rw [Nat.mod_eq_sub_mod (a := o + (c + 1) - 1) (by omega)]; congr 1; omega

theorem ring_pop {n o c : Nat} (ho : o < n) : (o + (c + 1) - 1) % n = ((o + 1) % n + c + n - 1) % n := by
  rcases wrap_cases (a := o + 1) (n := n) (by omega) with ⟨_, e1⟩ | ⟨_, e1⟩ <;> rw [e1]
  · rw [Nat.mod_eq_sub_mod (a := o + 1 + c + n - 1) (by omega)]; congr 1; omega
  · rw [show o + 1 - n + c + n - 1 = o + (c + 1) - 1 by omega]

/-- `Q_PUSH` of a Message keeps V9 and the index ranges (R39, R30). -/
theorem Queue.push_wf {n : Nat} {q : Queue} {m : ByteSeq} (hv : q.V9 n) (ho : q.oldest < n) (hw : q.newest < n)
    (hm : validLength m.length) :
    (q.push n m).V9 n ∧ (q.push n m).oldest < n ∧ (q.push n m).newest < n := by
  obtain ⟨h1, h2, h3, h4⟩ := hv
  simp only [Queue.count_eq] at h1 h2 h3
  have hn : 0 < n := by omega
  refine ⟨⟨?_, ?_, ?_, ?_⟩, ?_, ?_⟩
  · rw [Queue.count_eq, Queue.push_length m hn h1]; omega
  · intro _
    rw [Queue.count_eq, Queue.push_length m hn h1]
    by_cases hq : q.content.length = n
    · rw [Queue.push_of_full m hq, h2 (by omega), hq, Nat.min_eq_right (by omega)]
      exact ring_push_full ho
    · rw [Queue.push_of_room m hq, Nat.min_eq_left (by omega)]
      rcases Nat.eq_zero_or_pos q.content.length with h0 | h0
      · simp only [h3 h0, h0]
        rw [ring_push_empty ho, show q.oldest + (0 + 1) - 1 = q.oldest by omega, Nat.mod_eq_of_lt ho]
      · simp only [h2 h0]; exact ring_push_room ho h0 (by omega)
  · intro h; rw [Queue.count_eq, Queue.push_length m hn h1] at h; omega
  · intro x hx
    rw [Queue.push_content m hn h1] at hx
    rcases List.mem_append.mp (List.mem_of_mem_drop hx) with h | h
    · exact h4 x h
    · rw [List.mem_singleton.mp h]; exact hm
  · unfold Queue.push; split
    · exact Nat.mod_lt _ hn
    · exact ho
  · unfold Queue.push; split <;> exact Nat.mod_lt _ hn

/-- `Q_POP` keeps V9 and the index ranges (R39, R30). -/
theorem Queue.pop_wf {n : Nat} {q : Queue} (hv : q.V9 n) (ho : q.oldest < n) (hw : q.newest < n) :
    (q.pop n).2.V9 n ∧ (q.pop n).2.oldest < n ∧ (q.pop n).2.newest < n := by
  cases hc : q.content with
  | nil => rw [Queue.pop_of_nil n hc]; exact ⟨hv, ho, hw⟩
  | cons m r =>
    obtain ⟨h1, h2, h3, h4⟩ := hv
    simp only [Queue.count_eq, hc, List.length_cons] at h1 h2 h3
    have h5 := h2 (by omega)
    rw [Queue.pop_of_cons n hc]
    refine ⟨⟨by simp only [Queue.count_eq]; omega, ?_, ?_, fun x hx => h4 x (by simp [hc, hx])⟩,
      Nat.mod_lt _ (by omega), hw⟩
    · intro h
      simp only [Queue.count_eq] at h ⊢
      rw [h5, ring_pop ho, show (q.oldest + 1) % n + r.length + n - 1 =
        (q.oldest + 1) % n + r.length - 1 + n by omega, Nat.add_mod_right]
    · intro h
      simp only [Queue.count_eq] at h ⊢
      rw [h5, ring_pop ho, h, Nat.add_zero]

/-- The queue after reset is canonical (R40). -/
theorem Queue.empty_wf {n : Nat} (hn : 0 < n) :
    (Queue.empty n).V9 n ∧ (Queue.empty n).oldest < n ∧ (Queue.empty n).newest < n := by
  refine ⟨⟨Nat.zero_le _, fun h => absurd h (Nat.lt_irrefl 0), fun _ => ?_, by simp [Queue.empty]⟩, hn, by simp [Queue.empty]; omega⟩
  simp only [Queue.empty]; rw [Nat.mod_eq_of_lt (by omega)]; omega

/-- The content of a queue, slot by slot: the slot `j` places after `OLDEST` holds the entry number `j` (R30, R32). -/
theorem Queue.slot_of_index {n : Nat} {q : Queue} {j : Nat} (ho : q.oldest < n) (hj : j < n) :
    q.slot n ((q.oldest + j) % n) = q.content[j]? := by
  have hlt : (q.oldest + j) % n < n := Nat.mod_lt _ (by omega)
  rw [Queue.slot, if_pos ⟨hlt, ho⟩]
  congr 1
  rcases wrap_cases (a := q.oldest + j) (n := n) (by omega) with ⟨h, e⟩ | ⟨h, e⟩ <;> rw [e]
  · rw [show q.oldest + j + n - q.oldest = j + n by omega, Nat.add_mod_right, Nat.mod_eq_of_lt hj]
  · rw [show q.oldest + j - n + n - q.oldest = j by omega, Nat.mod_eq_of_lt hj]

/-- Every slot index is some number of places after `OLDEST`. -/
theorem ring_index {n o k : Nat} (ho : o < n) (hk : k < n) : ∃ j, j < n ∧ k = (o + j) % n :=
  ⟨(k + n - o) % n, Nat.mod_lt _ (by omega), by
    rw [Nat.add_mod_mod, show o + (k + n - o) = k + n by omega, Nat.add_mod_right, Nat.mod_eq_of_lt hk]⟩

/-- Read after a push, slot by slot: the slot after `NEWEST` holds the new Message, every other slot what it held (R140). -/
theorem Queue.slot_push {n : Nat} {q : Queue} (m : ByteSeq) (hv : q.V9 n) (ho : q.oldest < n) (k : Nat) :
    (q.push n m).slot n k = if k = (q.newest + 1) % n then some m else q.slot n k := by
  have hn : 0 < n := by omega
  obtain ⟨v1, v2, v3, v4⟩ := hv
  simp only [Queue.count_eq] at v1 v2 v3
  have hnew : (q.newest + 1) % n = (q.oldest + q.content.length) % n := by
    rcases Nat.eq_zero_or_pos q.content.length with h0 | h0
    · rw [v3 h0, h0, ring_push_empty ho]; exact (Nat.mod_eq_of_lt ho).symm
    · rw [v2 h0, Nat.mod_add_mod]; congr 1; omega
  rw [hnew]
  by_cases hk : k < n
  · obtain ⟨j, hj, rfl⟩ := ring_index ho hk
    have hinj : (q.oldest + j) % n = (q.oldest + q.content.length) % n ↔ j = q.content.length ∨ (j = 0 ∧ q.content.length = n) := by
      rcases wrap_cases (a := q.oldest + j) (n := n) (by omega) with ⟨a1, a2⟩ | ⟨a1, a2⟩ <;>
      rcases Nat.lt_or_ge (q.content.length) n with hl | hl
      · rcases wrap_cases (a := q.oldest + q.content.length) (n := n) (by omega) with ⟨b1, b2⟩ | ⟨b1, b2⟩ <;> rw [a2, b2] <;> omega
      · rw [show q.content.length = n by omega, Nat.add_mod_right, a2, Nat.mod_eq_of_lt ho]; omega
      · rcases wrap_cases (a := q.oldest + q.content.length) (n := n) (by omega) with ⟨b1, b2⟩ | ⟨b1, b2⟩ <;> rw [a2, b2] <;> omega
      · rw [show q.content.length = n by omega, Nat.add_mod_right, a2, Nat.mod_eq_of_lt ho]; omega
    rw [Queue.slot_of_index ho hj]
    by_cases hf : q.content.length = n
    · rw [Queue.push_of_full m hf]
      have ho' : (q.oldest + 1) % n < n := Nat.mod_lt _ hn
      by_cases hj0 : j = 0
      · subst hj0
        rw [if_pos (hinj.2 (.inr ⟨rfl, hf⟩))]
        have : (q.oldest + 0) % n = ((q.oldest + 1) % n + (n - 1)) % n := by
          rw [Nat.mod_add_mod, show q.oldest + 1 + (n-1) = q.oldest + 0 + n by omega, Nat.add_mod_right]
        rw [this, Queue.slot_of_index (q := { content := q.content.tail ++ [m], oldest := (q.oldest+1) % n, newest := _ }) ho' (by omega)]
        simp only
        rw [List.getElem?_append_right (by simp; omega)]; simp [hf]
      · rw [if_neg (by rw [hinj]; omega)]
        have : (q.oldest + j) % n = ((q.oldest + 1) % n + (j - 1)) % n := by
          rw [Nat.mod_add_mod]; congr 1; omega
        rw [this, Queue.slot_of_index (q := { content := q.content.tail ++ [m], oldest := (q.oldest+1) % n, newest := _ }) ho' (by omega)]
        simp only
        rw [List.getElem?_append_left (by simp; omega), List.getElem?_tail]; congr 1; omega
    · rw [Queue.push_of_room m hf, Queue.slot_of_index (q := { content := q.content ++ [m], oldest := q.oldest, newest := _ }) ho hj]
      simp only
      by_cases hjl : j = q.content.length
      · rw [if_pos (hinj.2 (.inl hjl)), hjl]; simp
      · rw [if_neg (by rw [hinj]; omega)]
        rcases Nat.lt_or_ge j q.content.length with hl | hl
        · rw [List.getElem?_append_left hl]
        · rw [List.getElem?_eq_none (by simp; omega), List.getElem?_eq_none hl]
  · have h2 : (q.oldest + q.content.length) % n < n := Nat.mod_lt _ hn
    rw [if_neg (by omega), Queue.slot, if_neg (by omega), Queue.slot, if_neg (by omega)]

/-- Read after a pop, slot by slot: the slot of `OLDEST` holds nothing, every other slot what it held (R141). -/
theorem Queue.slot_pop {n : Nat} {q : Queue} {m : ByteSeq} {r : List ByteSeq} (hc : q.content = m :: r) (hl : q.content.length ≤ n) (ho : q.oldest < n) (k : Nat) :
    (q.pop n).2.slot n k = if k = q.oldest then none else q.slot n k := by
  have hn : 0 < n := by omega
  rw [Queue.pop_of_cons n hc]
  have ho' : (q.oldest + 1) % n < n := Nat.mod_lt _ hn
  by_cases hk : k < n
  · obtain ⟨j, hj, rfl⟩ := ring_index ho hk
    rw [Queue.slot_of_index ho hj, hc]
    rw [hc] at hl; simp at hl
    by_cases hj0 : j = 0
    · subst hj0
      rw [if_pos (by rw [Nat.add_zero, Nat.mod_eq_of_lt ho])]
      have : (q.oldest + 0) % n = ((q.oldest + 1) % n + (n - 1)) % n := by
          rw [Nat.mod_add_mod, show q.oldest + 1 + (n-1) = q.oldest + 0 + n by omega, Nat.add_mod_right]
      simp only
      rw [this, Queue.slot_of_index (q := { content := r, oldest := (q.oldest+1) % n, newest := _ }) ho' (by omega)]
      exact List.getElem?_eq_none (by simp; omega)
    · rw [if_neg]
      · have : (q.oldest + j) % n = ((q.oldest + 1) % n + (j - 1)) % n := by
          rw [Nat.mod_add_mod]; congr 1; omega
        simp only
        rw [this, Queue.slot_of_index (q := { content := r, oldest := (q.oldest+1) % n, newest := _ }) ho' (by omega)]
        simp only
        obtain ⟨j', rfl⟩ : ∃ j', j = j' + 1 := ⟨j - 1, by omega⟩
        simp
      · rcases wrap_cases (a := q.oldest + j) (n := n) (by omega) with ⟨a1, a2⟩ | ⟨a1, a2⟩ <;> rw [a2] <;> omega
  · rw [if_neg (by omega), Queue.slot, if_neg (by omega), Queue.slot, if_neg (by omega)]

/-! ## The canonical form of the stores -/

/-- The state after reset is canonical. -/
theorem State.resetWith_storesWf (c : Config) : (State.resetWith c).storesWf := by
  have h1 := c.nIn_pos
  have h2 := c.nOut_pos
  refine ⟨Nat.zero_le _, rfl, nofun, fun _ => ⟨rfl, rfl, rfl⟩, Nat.zero_le _, h1, ?_, h2, ?_⟩ <;>
    simp only [State.resetWith, Queue.empty] <;> omega

/-- Emptying the assembly keeps the canonical form. -/
theorem clearAssembly_storesWf {s : State} (h : s.storesWf) : (clearAssembly s).storesWf :=
  ⟨Nat.zero_le _, rfl, h.2.2.1, h.2.2.2⟩

/-- Ending the session keeps the canonical form. -/
theorem endSession_storesWf {s : State} (h : s.storesWf) : (endSession s).storesWf :=
  ⟨h.1, h.2.1, nofun, fun _ => ⟨rfl, rfl, rfl⟩, Nat.zero_le _, h.2.2.2.2.2⟩

/-- What `rx_store` does, the assembly being canonical (R155): the byte is appended while there is room, the count saturates, the
inter-byte timer restarts, and nothing else changes. -/
theorem rxStore_eq {s : State} (b : Byte) (h : s.rxbuf.length = min s.rxcnt 21) (hc : s.rxcnt ≤ 22) :
    rxStore b s = { s with
      rxbuf := if s.rxcnt < 21 then s.rxbuf ++ [b] else s.rxbuf, rxcnt := min (s.rxcnt + 1) 22,
      eomt := { period := s.eomt.period, cnt := 0, run := true } } := by
  have hcnt : (if s.rxcnt < 22 then s.rxcnt + 1 else s.rxcnt) = min (s.rxcnt + 1) 22 := by split <;> omega
  by_cases hlt : s.rxcnt < 21
  · simp [rxStore, tRestart, hlt, Config.msgMax, Config.rxCntMax, State.writeRxbuf_append b (show s.rxbuf.length = s.rxcnt by omega), hcnt]
  · simp [rxStore, tRestart, hlt, Config.msgMax, Config.rxCntMax, hcnt]

/-- Storing a received byte keeps the canonical form. -/
theorem rxStore_storesWf {s : State} (b : Byte) (h : s.storesWf) : (rxStore b s).storesWf := by
  obtain ⟨h1, h2, h3⟩ := h
  rw [rxStore_eq b h2 h1]
  refine ⟨by simp only; omega, ?_, h3⟩
  simp only; split
  · simp only [List.length_append, List.length_singleton]; omega
  · omega

/-- Advancing the cursor within the Message keeps the canonical form. -/
theorem sendNext_storesWf {s : State} (h : s.storesWf) (hv : s.txvalid = true) (hc : s.txcur < s.txlen) :
    (sendNext s).storesWf := by
  obtain ⟨h1, h2, h3, h4, h5, h6⟩ := h
  have hl := (h3 hv).1
  refine ⟨h1, h2, fun _ => ⟨hl, hc⟩, fun e => absurd (show s.txvalid = false from e) (by simp [hv]), ?_, h6⟩
  have hM : s.txlen ≤ 21 := hl.2
  show s.txcur + 1 ≤ 21
  omega

/-- A push of a Message and a pop keep the canonical form. -/
theorem qPush_storesWf {s : State} {m : ByteSeq} (q : QueueId) (h : s.storesWf) (hv : s.V9)
    (hm : validLength m.length) : (qPush q m s).storesWf ∧ (qPush q m s).V9 := by
  obtain ⟨h1, h2, h3, h4, h5, h6, h7, h8, h9⟩ := h
  cases q with
  | inq =>
    have hp := Queue.push_wf hv.1 h6 h7 hm
    exact ⟨⟨h1, h2, h3, h4, h5, hp.2.1, hp.2.2, h8, h9⟩, hp.1, hv.2⟩
  | outq =>
    have hp := Queue.push_wf hv.2 h8 h9 hm
    exact ⟨⟨h1, h2, h3, h4, h5, h6, h7, hp.2.1, hp.2.2⟩, hv.1, hp.1⟩

theorem qPop_storesWf {s : State} (q : QueueId) (h : s.storesWf) (hv : s.V9) :
    (qPop q s).2.storesWf ∧ (qPop q s).2.V9 := by
  obtain ⟨h1, h2, h3, h4, h5, h6, h7, h8, h9⟩ := h
  cases q with
  | inq =>
    have hp := Queue.pop_wf hv.1 h6 h7
    exact ⟨⟨h1, h2, h3, h4, h5, hp.2.1, hp.2.2, h8, h9⟩, hp.1, hv.2⟩
  | outq =>
    have hp := Queue.pop_wf hv.2 h8 h9
    exact ⟨⟨h1, h2, h3, h4, h5, h6, h7, hp.2.1, hp.2.2⟩, hv.1, hp.1⟩

end Sys2Proof.Machine
end

