-- ==== Sys2Proof/Laws/Ops.lean ====
section
/-! SUPPORT. One lemma for each case of each shared operation: what it leaves, in full. -/

namespace Sys2Proof

/-! ## Tick counts (R176, R6) -/

/-- Every backoff lies in `1..maxTicks` and is longer than the inter-byte window (R176, R6). -/
theorem Config.collisionTicks_range (c : Config) {p : Nat} (h1 : 1 ≤ p) (h8 : p ≤ 8) :
    c.eomTicks < c.collisionTicks p ∧ c.collisionTicks p ≤ c.maxTicks := by
  have hT := c.ticksPerBit_pos
  have hf := c.periods_fit
  refine ⟨Nat.mul_lt_mul_of_pos_right ?_ hT, Nat.le_trans (Nat.mul_le_mul_right _ ?_) hf⟩ <;>
    simp only [Config.collisionBits, Config.eomBits, Config.prioMax] <;> omega

theorem Config.eomTicks_range (c : Config) : 11 ≤ c.eomTicks ∧ c.eomTicks ≤ c.maxTicks := by
  have hT := c.ticksPerBit_pos
  refine ⟨Nat.le_mul_of_pos_right 11 hT, Nat.le_trans (Nat.mul_le_mul_right _ ?_) c.periods_fit⟩
  simp only [Config.eomBits, Config.prioMax]; omega

/-- A character is ten bit-times long (R7). -/
theorem Config.charBits_eq : Config.charBits = 10 := rfl

end Sys2Proof

namespace Sys2Proof.Machine

/-! ## Timers (R110 to R113) -/

theorem Timer.ticked_of_stopped {t : Timer} (h : t.run = false) : t.ticked = t ∧ t.expires = false := by
  simp [Timer.ticked, Timer.expires, h]

theorem Timer.ticked_of_expires {t : Timer} (h : t.expires = true) :
    t.ticked = { period := t.period, cnt := 0, run := false } := by
  simp [Timer.expires] at h
  simp [Timer.ticked, h]

theorem Timer.ticked_of_counts {t : Timer} (hr : t.run = true) (he : t.expires = false) :
    t.ticked = { period := t.period, cnt := t.cnt + 1, run := true } := by
  simp [Timer.expires, hr] at he
  simp [Timer.ticked, he, hr]

theorem Timer.expires_iff (t : Timer) : t.expires = true ↔ t.run = true ∧ t.cnt + 1 = t.period := by
  simp [Timer.expires]

/-- What one tick can do to a timer whose count is below its period. -/
theorem Timer.ticked_cases (t : Timer) :
    (t.run = false ∧ t.ticked = t ∧ t.expires = false) ∨
    (t.run = true ∧ t.cnt + 1 = t.period ∧ t.expires = true ∧ t.ticked = { period := t.period, cnt := 0, run := false }) ∨
    (t.run = true ∧ t.cnt + 1 ≠ t.period ∧ t.expires = false ∧
      t.ticked = { period := t.period, cnt := t.cnt + 1, run := true }) := by
  cases hr : t.run with
  | false => exact .inl ⟨rfl, Timer.ticked_of_stopped hr⟩
  | true =>
    by_cases hp : t.cnt + 1 = t.period
    · have he : t.expires = true := (Timer.expires_iff t).mpr ⟨hr, hp⟩
      exact .inr (.inl ⟨rfl, hp, he, Timer.ticked_of_expires he⟩)
    · have he : t.expires = false := by simp [Timer.expires, hp]
      exact .inr (.inr ⟨rfl, hp, he, Timer.ticked_of_counts hr he⟩)

@[simp] theorem tConfigure_eomt (k : Nat) (s : State) :
    tConfigure .eomt k s = { s with eomt := { period := k, cnt := 0, run := false } } := rfl
@[simp] theorem tConfigure_colt (k : Nat) (s : State) :
    tConfigure .colt k s = { s with colt := { period := k, cnt := 0, run := false } } := rfl
@[simp] theorem tRestart_eomt (s : State) :
    tRestart .eomt s = { s with eomt := { period := s.eomt.period, cnt := 0, run := true } } := rfl
@[simp] theorem tRestart_colt (s : State) :
    tRestart .colt s = { s with colt := { period := s.colt.period, cnt := 0, run := true } } := rfl
@[simp] theorem tStop_eomt (s : State) :
    tStop .eomt s = { s with eomt := { period := s.eomt.period, cnt := 0, run := false } } := rfl
@[simp] theorem tStop_colt (s : State) :
    tStop .colt s = { s with colt := { period := s.colt.period, cnt := 0, run := false } } := rfl

/-! ## Queues by name (R140, R141) -/

@[simp] theorem qPush_inq (m : ByteSeq) (s : State) : qPush .inq m s = { s with inq := s.inq.push s.cfg.nIn m } := rfl
@[simp] theorem qPush_outq (m : ByteSeq) (s : State) : qPush .outq m s = { s with outq := s.outq.push s.cfg.nOut m } := rfl

theorem qPop_of_nil {q : QueueId} {s : State} (h : (s.queue q).content = []) : qPop q s = (none, s) := by
  simp [qPop, Queue.pop_of_nil _ h]

theorem qPop_of_cons {q : QueueId} {s : State} {m : ByteSeq} {r : List ByteSeq} (h : (s.queue q).content = m :: r) :
    qPop q s = (some m, s.setQueue q
      { content := r, oldest := ((s.queue q).oldest + 1) % s.cfg.capacity q, newest := (s.queue q).newest }) := by
  simp [qPop, Queue.pop_of_cons _ h]

/-! ## Sending (R170, R171) -/

theorem sendNext_of_some {s : State} {b : Byte} (h : s.txmsg[s.txcur]? = some b) :
    sendNext s = { s with out := s.out ++ [.send b], txlast := s.txcur, txcur := s.txcur + 1 } := by
  simp only [sendNext, State.memRead_txmsg h]; rfl

/-- `try_start` does nothing unless the engine is idle, without a session, with a Message waiting. -/
theorem tryStart_of_not {s : State} (h : s.st ≠ .idle ∨ s.txvalid = true ∨ s.outq.content = []) : tryStart s = s := by
  refine if_neg ?_
  rintro ⟨h1, h2, h3⟩
  rcases h with h | h | h
  · exact h h1
  · simp [h] at h2
  · exact (Queue.isEmpty_eq_false_iff _).mp h3 h

/-- `try_start` otherwise: the oldest waiting Message becomes the session and its first byte is sent. -/
theorem tryStart_of_cons {s : State} {b : Byte} {m : ByteSeq} {r : List ByteSeq} (h1 : s.st = .idle)
    (h2 : s.txvalid = false) (h3 : s.outq.content = (b :: m) :: r) :
    tryStart s = { s with
      outq := { content := r, oldest := (s.outq.oldest + 1) % s.cfg.nOut, newest := s.outq.newest },
      txvalid := true, txmsg := b :: m, txcur := 1, txlast := 0, retrycnt := 0, st := .transmitting,
      out := s.out ++ [.send b] } := by
  have h4 : s.outq.isEmpty = false := (Queue.isEmpty_eq_false_iff _).mpr (by simp [h3])
  simp only [tryStart, h1, h2, h4, qPop_of_cons (q := .outq) h3, and_self, if_true]
  rw [sendNext_of_some (b := b) rfl]; rfl

/-- `try_start` as a whole, the queues being canonical: it does nothing or starts the oldest waiting Message. -/
theorem tryStart_cases {s : State} (hq : ∀ m ∈ s.outq.content, validLength m.length) :
    ((s.st ≠ .idle ∨ s.txvalid = true ∨ s.outq.content = []) ∧ tryStart s = s) ∨
    ∃ b m r, s.st = .idle ∧ s.txvalid = false ∧ s.outq.content = (b :: m) :: r ∧ validLength (b :: m).length ∧
      tryStart s = { s with
        outq := { content := r, oldest := (s.outq.oldest + 1) % s.cfg.nOut, newest := s.outq.newest },
        txvalid := true, txmsg := b :: m, txcur := 1, txlast := 0, retrycnt := 0, st := .transmitting,
        out := s.out ++ [.send b] } := by
  by_cases h : s.st ≠ .idle ∨ s.txvalid = true ∨ s.outq.content = []
  · exact .inl ⟨h, tryStart_of_not h⟩
  · simp only [not_or, not_not, Bool.not_eq_true] at h
    obtain ⟨h1, h2, h3⟩ := h
    cases hc : s.outq.content with
    | nil => exact absurd hc h3
    | cons x r =>
      cases x with
      | nil => exact absurd (hq [] (by simp [hc])).1 (by decide)
      | cons b m => exact .inr ⟨b, m, r, h1, h2, rfl, hq _ (by simp [hc]), tryStart_of_cons h1 h2 hc⟩

/-! ## Collisions (R174, R175, R180) -/

theorem priorityOf_fixed (mid : Byte) : priorityOf .fixed mid = 8 := rfl

theorem priorityOf_range (mode : PrioMode) (mid : Byte) : 1 ≤ priorityOf mode mid ∧ priorityOf mode mid ≤ 8 := by
  cases mode
  · exact ⟨Nat.le_add_left 1 7, Nat.le_refl 8⟩
  · simp only [priorityOf, Config.prioMin, Config.prioMax]; omega

/-- Give-up, in full. -/
theorem giveUp_eq (s : State) : giveUp s = { s with
    txvalid := false, retrycnt := 0, txmsg := [], txcur := 0, txlast := 0,
    st := if s.eomt.run then .receiving else .idle } := rfl

theorem collision_of_limit {s : State} (h : s.givesUp) : collision s = giveUp s :=
  if_pos (show s.cfg.retryLimit ≠ 0 ∧ s.retrycnt ≥ s.cfg.retryLimit from h)

/-- A collision that is retried: the backoff timer is configured and started, the cursor goes back to 0, nothing else but
`RETRYCNT` and `ST` changes. -/
theorem collision_of_retry {s : State} {mid : Byte} (h : ¬ s.givesUp) (hm : s.txmsg[0]? = some mid) :
    collision s = { s with
      retrycnt := if s.cfg.retryLimit ≠ 0 then s.retrycnt + 1 else s.retrycnt,
      colt := { period := s.cfg.collisionTicks (priorityOf s.cfg.prioMode mid), cnt := 0, run := true },
      txcur := 0, st := .collisionWait } := by
  rw [collision, if_neg (show ¬ (s.cfg.retryLimit ≠ 0 ∧ s.retrycnt ≥ s.cfg.retryLimit) from h)]
  simp only [tConfigure_colt, tRestart_colt, State.memRead_txmsg hm]

/-! ## The echo comparator (R172), the retry (R177), the validation (R178) -/

theorem echoCompare_match {s : State} {b x : Byte} (hl : s.txmsg[s.txlast]? = some b) (hx : s.txmsg[s.txcur]? = some x) :
    echoCompare b s = { s with out := s.out ++ [.send x], txlast := s.txcur, txcur := s.txcur + 1 } := by
  have hc : s.txcur < s.txlen := by
    rw [State.txlen_eq]; exact (List.getElem?_eq_some_iff.mp hx).1
  rw [echoCompare, if_pos (State.memRead_txmsg hl).symm, if_pos hc, sendNext_of_some hx]

theorem echoCompare_last {s : State} {b : Byte} (hl : s.txmsg[s.txlast]? = some b) (hx : s.txmsg.length ≤ s.txcur) :
    echoCompare b s = s := by
  rw [echoCompare, if_pos (State.memRead_txmsg hl).symm, if_neg (by rw [State.txlen_eq]; omega)]

theorem echoCompare_mismatch {s : State} {b e : Byte} (hl : s.txmsg[s.txlast]? = some e) (h : b ≠ e) :
    echoCompare b s = collision { s with rxtaint := true } := by
  rw [echoCompare, if_neg (by rw [State.memRead_txmsg hl]; exact h)]

theorem onColFire_of_wait {s : State} {b : Byte} (h : s.st = .collisionWait) (hb : s.txmsg[s.txcur]? = some b) :
    onColFire s =
      { s with st := .transmitting, out := s.out ++ [.send b], txlast := s.txcur, txcur := s.txcur + 1 } := by
  rw [onColFire, if_pos h, sendNext_of_some (s := { s with st := .transmitting }) hb]

theorem onColFire_of_not {s : State} (h : s.st ≠ .collisionWait) : onColFire s = s := if_neg h

theorem validateEcho_match {s : State} {frame : ByteSeq} (h : frame = s.txmsg) :
    validateEcho s.txmsg.length false frame s = { s with
      inq := s.inq.push s.cfg.nIn frame, txvalid := false, retrycnt := 0, txmsg := [], txcur := 0, txlast := 0,
      st := .idle } := by
  rw [validateEcho, if_pos ⟨rfl, rfl, h.trans (State.memSlice_txmsg rfl).symm⟩]; rfl

theorem validateEcho_mismatch {s : State} {n : Nat} {taint : Bool} {frame : ByteSeq}
    (h : taint = true ∨ n ≠ s.txmsg.length ∨ frame ≠ s.txmsg) : validateEcho n taint frame s = collision s := by
  refine if_neg ?_
  rintro ⟨h1, h2, h3⟩
  rcases h with h | h | h
  · simp [h] at h1
  · exact h h2
  · exact h (h3.trans (State.memSlice_txmsg rfl))

/-! ## The inter-byte fire (R157 to R159) -/

/-- What delivering a frame changes: `INQ`, if the frame is a Message and not tainted. -/
theorem deliver_eq (n : Nat) (taint : Bool) (frame : ByteSeq) (s : State) : deliver n taint frame s =
    { s with inq := if validLength n ∧ taint = false then s.inq.push s.cfg.nIn frame else s.inq } := by
  unfold deliver; split <;> rfl

/-- The fire in `RECEIVING`, the assembly being canonical. -/
theorem onEomFire_of_receiving {s : State} (h : s.rxbuf.length = min s.rxcnt 21) (hs : s.st = .receiving) :
    onEomFire s = tryStart { clearAssembly s with
      inq := if validLength s.rxcnt ∧ s.rxtaint = false then s.inq.push s.cfg.nIn s.rxbuf else s.inq, st := .idle } := by
  simp only [onEomFire, hs, deliver_eq, State.memSlice_rxbuf (n := min s.rxcnt Config.msgMax) h]; rfl

/-- The fire in `COLLISION_WAIT`: nothing is dequeued. -/
theorem onEomFire_of_wait {s : State} (h : s.rxbuf.length = min s.rxcnt 21) (hs : s.st = .collisionWait) :
    onEomFire s = { clearAssembly s with
      inq := if validLength s.rxcnt ∧ s.rxtaint = false then s.inq.push s.cfg.nIn s.rxbuf else s.inq } := by
  simp only [onEomFire, hs, deliver_eq, State.memSlice_rxbuf (n := min s.rxcnt Config.msgMax) h]
  exact tryStart_of_not (.inl (by simp [hs]))

/-- The fire in `TRANSMITTING`. -/
theorem onEomFire_of_transmitting {s : State} (h : s.rxbuf.length = min s.rxcnt 21) (hs : s.st = .transmitting) :
    onEomFire s = tryStart (validateEcho s.rxcnt s.rxtaint s.rxbuf (clearAssembly s)) := by
  simp only [onEomFire, hs, State.memSlice_rxbuf (n := min s.rxcnt Config.msgMax) h]

/-- The fire in `IDLE`, which no run reaches. -/
theorem onEomFire_of_idle {s : State} (hs : s.st = .idle) : onEomFire s = tryStart (clearAssembly s) := by
  simp only [onEomFire, hs]

/-! ## The stimuli -/

@[simp] theorem rxStore_st (b : Byte) (s : State) : (rxStore b s).st = s.st := by unfold rxStore; split <;> rfl

theorem rxByte_of_idle {s : State} (b : Byte) (h : s.st = .idle) :
    rxByte b s = { rxStore b s with st := .receiving } := by simp only [rxByte, rxStore_st, h]

theorem rxByte_of_receiving {s : State} (b : Byte) (h : s.st = .receiving) : rxByte b s = rxStore b s := by
  simp only [rxByte, rxStore_st, h]

theorem rxByte_of_wait {s : State} (b : Byte) (h : s.st = .collisionWait) : rxByte b s = rxStore b s := by
  simp only [rxByte, rxStore_st, h]

theorem rxByte_of_transmitting {s : State} (b : Byte) (h : s.st = .transmitting) :
    rxByte b s = echoCompare b (rxStore b s) := by
  simp only [rxByte, rxStore_st, h]

/-- A tick: both timers are advanced, then the fires (R115). -/
theorem tick_eq (s : State) : tick s =
    let a := { s with eomt := s.eomt.ticked, colt := s.colt.ticked }
    let f := if s.eomt.expires then onEomFire a else a
    if s.colt.expires then onColFire f else f := rfl

/-- A tick on which no timer expires only advances the timers. -/
theorem tick_of_quiet {s : State} (he : s.eomt.expires = false) (hc : s.colt.expires = false) :
    tick s = { s with eomt := s.eomt.ticked, colt := s.colt.ticked } := by simp [tick_eq, he, hc]

/-- The tick on which only the inter-byte timer expires runs its fire procedure, that timer stopped and the other advanced. -/
theorem tick_of_eomFire {s : State} (he : s.eomt.expires = true) (hc : s.colt.expires = false) :
    tick s = onEomFire { s with
      eomt := { period := s.eomt.period, cnt := 0, run := false }, colt := s.colt.ticked } := by
  simp [tick_eq, he, hc, Timer.ticked_of_expires he]

/-- The tick on which only the backoff timer expires runs its fire procedure, that timer stopped and the other advanced. -/
theorem tick_of_colFire {s : State} (he : s.eomt.expires = false) (hc : s.colt.expires = true) :
    tick s = onColFire { s with
      eomt := s.eomt.ticked, colt := { period := s.colt.period, cnt := 0, run := false } } := by
  simp [tick_eq, he, hc, Timer.ticked_of_expires hc]

theorem tickN_succ (n : Nat) (s : State) : tickN (n + 1) s = tickN n (tick s) := rfl

theorem tickN_add (n k : Nat) (s : State) : tickN (n + k) s = tickN k (tickN n s) := by
  induction n generalizing s with
  | zero => simp [tickN]
  | succ n ih => rw [Nat.succ_add]; exact ih (tick s)

theorem writeMsg_of_invalid {m : ByteSeq} {s : State} (h : ¬ validLength m.length) : writeMsg m s = s := if_neg h

theorem writeMsg_of_valid {m : ByteSeq} {s : State} (h : validLength m.length) :
    writeMsg m s = tryStart { s with outq := s.outq.push s.cfg.nOut m } := if_pos h

theorem readMsg_of_nil {s : State} (h : s.inq.content = []) : readMsg s = { s with out := s.out ++ [.rspMsg []] } := by
  simp only [readMsg, qPop_of_nil (q := .inq) h]; rfl

theorem readMsg_of_cons {s : State} {m : ByteSeq} {r : List ByteSeq} (h : s.inq.content = m :: r) :
    readMsg s = { s with
      inq := { content := r, oldest := (s.inq.oldest + 1) % s.cfg.nIn, newest := s.inq.newest },
      out := s.out ++ [.rspMsg m] } := by
  simp only [readMsg, qPop_of_cons (q := .inq) h]; rfl

/-- `RESET` gives the reset state of the parameters, the outputs, the last returned value and the stimuli kept (R198, R40). -/
theorem resetState_eq (s : State) :
    resetState s = { State.resetWith s.cfg with out := s.out, ret := s.ret, stim := s.stim } := rfl

/-! ## Runs -/

@[simp] theorem execAll_nil (s : State) : execAll [] s = .next s := rfl

theorem execAll_cons {i : Instr} {is : List Instr} {s t : State} (h : exec i s = .next t) :
    execAll (i :: is) s = execAll is t := by simp only [execAll, h]

theorem execAll_append {is js : List Instr} {s t : State} (h : execAll is s = .next t) :
    execAll (is ++ js) s = execAll js t := by
  induction is generalizing s with
  | nil => cases h; rfl
  | cons i is ih =>
    simp only [List.cons_append, execAll] at h ⊢
    split at h <;> rename_i hi
    · exact ih h
    all_goals cases h

theorem execAll_replicate_tick (n : Nat) (s : State) : execAll (List.replicate n .tick) s = .next (tickN n s) := by
  induction n generalizing s with
  | zero => rfl
  | succ n ih => exact ih (tick s)

/-! ## The Transport at the block's boundary (R129, R133) -/

/-- The Transport issues a `RX_BYTE` for every character, whatever its stop bit. -/
theorem lineIn_of_character {w : List Bool} (hl : w.length = 10) (hs : w.head? = some false) :
    lineIn w = some (.rxByte (frameDecode w)) := if_pos ⟨hl, hs⟩

/-- The line at rest issues nothing. -/
theorem lineRead_idle (n : Nat) (ws : List Bool) :
    lineRead [] (List.replicate n idleLevel ++ ws) = lineRead [] ws := by
  induction n with
  | zero => rfl
  | succ n ih => simpa [List.replicate_succ, lineRead] using ih

/-- The values of a character under way are collected, whatever their level. -/
theorem lineRead_collect {got bits : List Bool} (ws : List Bool) (hg : got ≠ []) (hl : got.length + bits.length < 10) :
    lineRead got (bits ++ ws) = lineRead (got ++ bits) ws := by
  induction bits generalizing got with
  | nil => simp
  | cons v bits ih =>
    simp only [List.length_cons] at hl
    rw [List.cons_append, lineRead, if_neg fun h => hg h.1,
      if_pos (show got.length + 1 < Config.charBits by rw [Config.charBits_eq]; omega), ih (by simp) (by simp; omega), List.append_assoc, List.singleton_append]

/-- A character on the line issues its `RX_BYTE`, and reading goes on after it. -/
theorem lineRead_character (b : Byte) (ws : List Bool) :
    lineRead [] (frameEncode b ++ ws) =
      { lineRead [] ws with stimuli := .rxByte (frameDecode (frameEncode b)) :: (lineRead [] ws).stimuli } := by
  have hb : (bitsOf b).length = 8 := by simp [bitsOf]
  have hs : frameEncode b ++ ws = false :: (bitsOf b ++ true :: ws) := by simp [frameEncode]
  have he : false :: bitsOf b ++ [true] = frameEncode b := rfl
  rw [hs, lineRead, if_neg (by simp [idleLevel]), if_pos (show [].length + 1 < Config.charBits by decide), List.nil_append,
    lineRead_collect _ (by simp) (by simp [hb]), List.singleton_append, lineRead, if_neg (by simp),
    if_neg (show ¬ (false :: bitsOf b).length + 1 < Config.charBits by simp [hb, Config.charBits_eq]), if_pos (show true = idleLevel from rfl), he,
    lineIn_of_character (by simp [frameEncode, hb]) rfl]
  rfl

/-- Characters on the line, with whatever rest before each, issue their `RX_BYTE`s in order. -/
theorem lineRead_wave (cs : List (Nat × Byte)) (ws : List Bool) :
    lineRead [] (lineWave cs ++ ws) = { lineRead [] ws with
      stimuli := cs.map (fun c => Instr.rxByte (frameDecode (frameEncode c.2))) ++ (lineRead [] ws).stimuli } := by
  induction cs with
  | nil => rfl
  | cons c cs ih =>
    simp only [lineWave, List.append_assoc, lineRead_idle, lineRead_character, ih, List.map_cons, List.cons_append]

@[simp] theorem echoOf_nil (k : Nat) (b : Byte) : echoOf [] k b = b := rfl

theorem echoOf_replaced (k : Nat) (e b : Byte) : echoOf [(k, e)] k b = e := by simp [echoOf, List.lookup]

theorem echoOf_other {j k : Nat} (h : k ≠ j) (e b : Byte) : echoOf [(j, e)] k b = b := by
  simp [echoOf, List.lookup, beq_eq_false_iff_ne.mpr h]

/-- Without replaced echoes the faulting Transport is the loopback one. -/
theorem faulting_nil (k : Nat) (os : List Output) : faulting [] k os = os.flatMap loopback := by
  induction os generalizing k with
  | nil => rfl
  | cons o os ih => cases o <;> simp [faulting, loopback, ih]

theorem TestRun.run_succ {n : Nat} {r r' : TestRun} {i : Instr} {t : State} (hn : r.next? = some (i, r'))
    (he : exec i r.state = .next t) : TestRun.run (n + 1) r = TestRun.run n (r'.answered t) := by
  simp only [TestRun.run, hn, he]

/-- A run with no answer and no script left stays as it is. -/
theorem TestRun.run_done {n : Nat} {r : TestRun} (h : r.next? = none) : TestRun.run n r = .next r := by
  cases n with
  | zero => rfl
  | succ n => simp only [TestRun.run, h]

end Sys2Proof.Machine
end

