-- ==== Sys2Proof/Laws/PerInstr.lean ====
section
/-! SUPPORT. One lemma per operation: which operations have an encoding, and how long it is (R83, R88, R91). -/

namespace Sys2Proof

/-- The length of a record in bytes: format N 1, B 2, H 3, M 2 and the sequence (R83); 0 for an operation without encoding. -/
def Laws.recordLength : Instr → Nat
  | .reset | .tick | .txDone | .readMsg | .msgAvail => 1
  | .rxByte _ | .send _ | .rspAvail _ => 2
  | .ticks _ => 3
  | .writeMsg m | .rspMsg m => 2 + m.length
  | .tConfigure _ _ | .tRestart _ | .tStop _ | .tTick _ | .qPush _ _ | .qPop _ | .qPeek _ | .qIsEmpty _ | .rxStore _
  | .onEomFire | .tryStart | .sendNext | .echoCompare _ | .collision | .priority _ | .onColFire | .validateEcho _ _ _
  | .txComplete | .giveUp | .frameEncode _ | .frameDecode _ | .hexEncode _ | .hexDecode _ => 0

namespace Laws.RecordLength

/-- The operation has an encoding exactly if it is a well-formed record, and then one of the length its format gives. -/
def Statement (i : Instr) : Prop :=
  ((encode i).isSome = true ↔ i.isRecord ∧ i.wf) ∧ ∀ e, encode i = some e → e.length = Laws.recordLength i

/-- An operation without operand checks whose record is `e`. -/
theorem of_some {i : Instr} {e : List Byte} (h : encode i = some e) (hr : i.isRecord) (hw : i.wf)
    (hl : e.length = Laws.recordLength i) : Statement i :=
  ⟨by simp [h, hr, hw], fun e' h' => by rw [h] at h'; cases h'; exact hl⟩

/-- An operation without an encoding. -/
theorem of_none {i : Instr} (h : encode i = none) (hr : ¬ i.isRecord) : Statement i :=
  ⟨by simp [h, hr], fun e h' => by rw [h] at h'; cases h'⟩

/-- An operation whose record is `e` if its operands are in range. -/
theorem of_ite {i : Instr} [Decidable i.wf] {e : List Byte} (h : encode i = if i.wf then some e else none) (hr : i.isRecord)
    (hl : e.length = Laws.recordLength i) : Statement i := by
  by_cases hw : i.wf
  · rw [if_pos hw] at h; exact of_some h hr hw hl
  · rw [if_neg hw] at h; exact ⟨by simp [h, hw], fun e h' => by rw [h] at h'; cases h'⟩

theorem notRecord {i : Instr} (h : i.direction = .internal ∨ i.direction = .codec) : ¬ i.isRecord := by
  rcases h with h | h <;> simp [h]

theorem reset : Statement .reset := of_some rfl (.inl rfl) trivial rfl
theorem tick : Statement .tick := of_some rfl (.inl rfl) trivial rfl
theorem ticks (n : BitVec 16) : Statement (.ticks n) := of_some rfl (.inl rfl) trivial rfl
theorem rxByte (b : Byte) : Statement (.rxByte b) := of_some rfl (.inl rfl) trivial rfl
theorem txDone : Statement .txDone := of_some rfl (.inl rfl) trivial rfl
theorem writeMsg (m : ByteSeq) : Statement (.writeMsg m) :=
  of_ite (e := 0x30#8 :: BitVec.ofNat 8 m.length :: m) rfl (.inl rfl) (Nat.add_comm m.length 2)
theorem readMsg : Statement .readMsg := of_some rfl (.inl rfl) trivial rfl
theorem msgAvail : Statement .msgAvail := of_some rfl (.inl rfl) trivial rfl
theorem send (b : Byte) : Statement (.send b) := of_some rfl (.inr rfl) trivial rfl
theorem rspMsg (m : ByteSeq) : Statement (.rspMsg m) :=
  of_ite (e := 0x90#8 :: BitVec.ofNat 8 m.length :: m) rfl (.inr rfl) (Nat.add_comm m.length 2)
theorem rspAvail (v : Byte) : Statement (.rspAvail v) :=
  of_ite (e := [0x91#8, v]) rfl (.inr rfl) rfl
theorem tConfigure (t : TimerId) (k : Nat) : Statement (.tConfigure t k) := of_none rfl (notRecord (.inl rfl))
theorem tRestart (t : TimerId) : Statement (.tRestart t) := of_none rfl (notRecord (.inl rfl))
theorem tStop (t : TimerId) : Statement (.tStop t) := of_none rfl (notRecord (.inl rfl))
theorem tTick (t : TimerId) : Statement (.tTick t) := of_none rfl (notRecord (.inl rfl))
theorem qPush (q : QueueId) (m : ByteSeq) : Statement (.qPush q m) := of_none rfl (notRecord (.inl rfl))
theorem qPop (q : QueueId) : Statement (.qPop q) := of_none rfl (notRecord (.inl rfl))
theorem qPeek (q : QueueId) : Statement (.qPeek q) := of_none rfl (notRecord (.inl rfl))
theorem qIsEmpty (q : QueueId) : Statement (.qIsEmpty q) := of_none rfl (notRecord (.inl rfl))
theorem rxStore (b : Byte) : Statement (.rxStore b) := of_none rfl (notRecord (.inl rfl))
theorem onEomFire : Statement .onEomFire := of_none rfl (notRecord (.inl rfl))
theorem tryStart : Statement .tryStart := of_none rfl (notRecord (.inl rfl))
theorem sendNext : Statement .sendNext := of_none rfl (notRecord (.inl rfl))
theorem echoCompare (b : Byte) : Statement (.echoCompare b) := of_none rfl (notRecord (.inl rfl))
theorem collision : Statement .collision := of_none rfl (notRecord (.inl rfl))
theorem priority (mid : Byte) : Statement (.priority mid) := of_none rfl (notRecord (.inl rfl))
theorem onColFire : Statement .onColFire := of_none rfl (notRecord (.inl rfl))
theorem validateEcho (n : Nat) (taint : Bool) (frame : ByteSeq) : Statement (.validateEcho n taint frame) :=
  of_none rfl (notRecord (.inl rfl))
theorem txComplete : Statement .txComplete := of_none rfl (notRecord (.inl rfl))
theorem giveUp : Statement .giveUp := of_none rfl (notRecord (.inl rfl))
theorem frameEncode (b : Byte) : Statement (.frameEncode b) := of_none rfl (notRecord (.inr rfl))
theorem frameDecode (w : List Bool) : Statement (.frameDecode w) := of_none rfl (notRecord (.inr rfl))
theorem hexEncode (m : ByteSeq) : Statement (.hexEncode m) := of_none rfl (notRecord (.inr rfl))
theorem hexDecode (s : List Char) : Statement (.hexDecode s) := of_none rfl (notRecord (.inr rfl))

end Laws.RecordLength

end Sys2Proof
end

