-- ==== Sys2Proof/Machine/Text.lean ====
section
/-! DEFINITION. The text syntax of stimuli and outputs (R89). DESIGN CHOICE (safe, notes/assumptions/13.md): upper-case digits, one arrow before each output. -/

namespace Sys2Proof.Machine

/-- A byte as two hexadecimal digits after a space. -/
def asmByte (b : Byte) : List Char := ' ' :: hex2 b

/-- The text of a record: the mnemonic, then the operand bytes in hexadecimal, the count of `TICKS` in decimal (R89); none for an
operation that is no record (R91). -/
def asmRecord : Instr → Option (List Char)
  | .reset => some "RESET".toList
  | .tick => some "TICK".toList
  | .ticks n => some ("TICKS ".toList ++ Nat.toDigits 10 n.toNat)
  | .rxByte b => some ("RX_BYTE".toList ++ asmByte b)
  | .txDone => some "TX_DONE".toList
  | .writeMsg m => some ("WRITE_MSG".toList ++ m.flatMap asmByte)
  | .readMsg => some "READ_MSG".toList
  | .msgAvail => some "MSG_AVAIL".toList
  | .send b => some ("SEND".toList ++ asmByte b)
  | .rspMsg m => some ("RSP_MSG".toList ++ m.flatMap asmByte)
  | .rspAvail v => some ("RSP_AVAIL".toList ++ asmByte v)
  | .tConfigure _ _ => none
  | .tRestart _ => none
  | .tStop _ => none
  | .tTick _ => none
  | .qPush _ _ => none
  | .qPop _ => none
  | .qPeek _ => none
  | .qIsEmpty _ => none
  | .rxStore _ => none
  | .onEomFire => none
  | .tryStart => none
  | .sendNext => none
  | .echoCompare _ => none
  | .collision => none
  | .priority _ => none
  | .onColFire => none
  | .validateEcho _ _ _ => none
  | .txComplete => none
  | .giveUp => none
  | .frameEncode _ => none
  | .frameDecode _ => none
  | .hexEncode _ => none
  | .hexDecode _ => none

/-- The operation that emits an output record (R85). -/
def Output.record : Output → Instr
  | .send b => .send b
  | .rspMsg m => .rspMsg m
  | .rspAvail v => .rspAvail v

/-- One line of R89: a stimulus and, after `->`, each output it causes. -/
def asmLine (i : Instr) (outs : List Output) : Option (List Char) :=
  (asmRecord i).map fun t =>
    t ++ outs.flatMap fun o => " -> ".toList ++ (asmRecord o.record).getD []

end Sys2Proof.Machine
end

