-- ==== Sys2Proof/Tests/Slice0.lean ====
section
/-! SUPPORT. Named tests: well-formedness, decoding of words written out from the tables of R84 and R85, one or two steps per
operation with the result a vector of 95_test_vectors.md gives, and for every statement with hypotheses a state and operands that
meet them. -/

namespace Sys2Proof.Tests
open Sys2Proof Sys2Proof.Machine

/-! ## Small states -/

/-- What a function of the next state is, none where there is no next state. -/
def seen {α : Type} (f : State → α) : Host.Outcome State Fault Refusal → Option α
  | .next t => some (f t)
  | _ => none

/-- The outcome is a refusal with this reason. -/
def refusedWith (r : Refusal) : Host.Outcome State Fault Refusal → Bool
  | .refused r' => r == r'
  | _ => false

/-- A timer as the vectors write it. -/
abbrev tm (p c : Nat) (r : Bool) : Timer := { period := p, cnt := c, run := r }

/-- Receiving: two bytes assembled, one tick before the fire. -/
def sRecv : State :=
  { State.reset with st := .receiving, rxbuf := [0x80#8, 0x05#8], rxcnt := 2, eomt := tm 11 10 true }

/-- Receiving, with a Message waiting to be sent. -/
def sRecvOut : State := { sRecv with outq := { content := [[0x01#8, 0xAA#8, 0xBB#8]], oldest := 0, newest := 0 } }

/-- Transmitting 01 AA BB with the cursor at `c` and the frame `f` assembled, one tick before the fire. -/
def sTx (c : Nat) (f : ByteSeq) : State :=
  { State.reset with
    st := .transmitting, txvalid := true, txmsg := [0x01#8, 0xAA#8, 0xBB#8], txcur := c, txlast := c - 1,
    rxbuf := f, rxcnt := f.length, eomt := tm 11 10 true }

/-- Backing off with the tainted frame of vector T11, both timers one tick before expiry. -/
def sWait : State :=
  { State.reset with
    st := .collisionWait, txvalid := true, txmsg := [0x01#8, 0xAA#8, 0xBB#8], txcur := 0, txlast := 1,
    rxbuf := [0x00#8, 0x55#8, 0x66#8], rxcnt := 3, rxtaint := true, eomt := tm 11 10 true, colt := tm 27 26 true }

/-- The reference parameters with a bound of one retry. -/
def cfgRetry : Config := { ticksPerBit := 1, nIn := 4, nOut := 4, retryLimit := 1 }

/-- The reference parameters with the priority taken from the MID. -/
def cfgClz : Config := { ticksPerBit := 1, nIn := 4, nOut := 4, prioMode := .midClz }

/-- Transmitting with the one retry used up. -/
def sLast : State := { sTx 2 [0x01#8] with cfg := cfgRetry, retrycnt := 1 }

/-- A full queue of Messages. -/
def fullQ : Queue :=
  { content := [[0x10#8, 0#8], [0x11#8, 0#8], [0x12#8, 0#8], [0x13#8, 0#8]], oldest := 0, newest := 3 }

theorem test_inv_recv : sRecv.Inv :=
  ⟨by decide, by decide, by decide, by decide, by decide, by decide, by decide, by decide, by decide, by decide, by decide,
    by decide, by decide⟩
theorem test_inv_recvOut : sRecvOut.Inv :=
  ⟨by decide, by decide, by decide, by decide, by decide, by decide, by decide, by decide, by decide, by decide, by decide,
    by decide, by decide⟩
theorem test_inv_tx : (sTx 2 [0x01#8]).Inv :=
  ⟨by decide, by decide, by decide, by decide, by decide, by decide, by decide, by decide, by decide, by decide, by decide,
    by decide, by decide⟩
theorem test_inv_txAll : (sTx 3 [0x01#8, 0xAA#8, 0xBB#8]).Inv :=
  ⟨by decide, by decide, by decide, by decide, by decide, by decide, by decide, by decide, by decide, by decide, by decide,
    by decide, by decide⟩
theorem test_inv_wait : sWait.Inv :=
  ⟨by decide, by decide, by decide, by decide, by decide, by decide, by decide, by decide, by decide, by decide, by decide,
    by decide, by decide⟩
theorem test_inv_last : sLast.Inv :=
  ⟨by decide, by decide, by decide, by decide, by decide, by decide, by decide, by decide, by decide, by decide, by decide,
    by decide, by decide⟩
theorem test_inv_reset : State.reset.Inv :=
  ⟨by decide, by decide, by decide, by decide, by decide, by decide, by decide, by decide, by decide, by decide, by decide,
    by decide, by decide⟩

/-! ## Well-formedness: one ill-formed term for each check -/

theorem test_wf_writeMsg : ¬ (Instr.writeMsg (List.replicate 256 0#8)).wf := by decide +kernel
theorem test_wf_rspMsg : ¬ (Instr.rspMsg [0x01#8]).wf := by decide
theorem test_wf_rspAvail : ¬ (Instr.rspAvail 0x02#8).wf := by decide
theorem test_wf_tConfigure : ¬ (Instr.tConfigure .eomt 0).wf := by decide
theorem test_wf_qPush_short : ¬ (Instr.qPush .inq [0x01#8]).wf := by decide
theorem test_wf_qPush_long : ¬ (Instr.qPush .outq (List.replicate 22 0#8)).wf := by decide
theorem test_wf_validateEcho_count : ¬ (Instr.validateEcho 23 false (List.replicate 21 0#8)).wf := by decide
theorem test_wf_validateEcho_frame : ¬ (Instr.validateEcho 3 false [0x01#8]).wf := by decide
theorem test_wf_frameDecode_length : ¬ (Instr.frameDecode [false, true]).wf := by decide
theorem test_wf_frameDecode_start : ¬ (Instr.frameDecode (List.replicate 10 true)).wf := by decide
theorem test_wf_hexEncode : ¬ (Instr.hexEncode []).wf := by decide

/-! ## Decoding: words written out from R84 and R85 (vectors E1 to E20) -/

theorem test_decode_reset : decode [0b00000001#8] = .ok .reset [] := by decide
theorem test_decode_tick : decode [0b00010000#8] = .ok .tick [] := by decide
theorem test_decode_ticks : decode [0b00010001#8, 0b00101100#8, 0b00000001#8] = .ok (.ticks 300#16) [] := by decide
theorem test_decode_rxByte : decode [0b00100000#8, 0b10101000#8] = .ok (.rxByte 0xA8#8) [] := by decide
theorem test_decode_txDone : decode [0b00100001#8] = .ok .txDone [] := by decide
theorem test_decode_writeMsg :
    decode [0b00110000#8, 0b00000011#8, 0b00000001#8, 0b10101010#8, 0b10111011#8] =
      .ok (.writeMsg [0x01#8, 0xAA#8, 0xBB#8]) [] := by decide
theorem test_decode_readMsg : decode [0b00110001#8] = .ok .readMsg [] := by decide
theorem test_decode_msgAvail : decode [0b00110010#8] = .ok .msgAvail [] := by decide
theorem test_decode_send : decode [0b10000000#8, 0b10101010#8] = .ok (.send 0xAA#8) [] := by decide
theorem test_decode_rspMsg : decode [0b10010000#8, 0b00000010#8, 0b10000000#8, 0b00000001#8] =
    .ok (.rspMsg [0x80#8, 0x01#8]) [] := by decide
theorem test_decode_rspAvail : decode [0b10010001#8, 0b00000001#8] = .ok (.rspAvail 0x01#8) [] := by decide

/-- E17: the lengths are found from the opcode byte and `n` alone. -/
theorem test_decode_stream_E17 :
    decode [0x30#8, 0x03#8, 0x01#8, 0xAA#8, 0xBB#8, 0x11#8, 0x0A#8, 0x00#8, 0x20#8, 0x01#8, 0x21#8] =
      .ok (.writeMsg [0x01#8, 0xAA#8, 0xBB#8]) [0x11#8, 0x0A#8, 0x00#8, 0x20#8, 0x01#8, 0x21#8] ∧
    decode [0x11#8, 0x0A#8, 0x00#8, 0x20#8, 0x01#8, 0x21#8] = .ok (.ticks 10#16) [0x20#8, 0x01#8, 0x21#8] := by decide

/-- E18: reserved opcode bytes. -/
theorem test_decode_reserved_E18 :
    [0x00#8, 0x02#8, 0x12#8, 0x22#8, 0x33#8, 0x7F#8, 0xFF#8].all
      (fun b => decodeStimulus [b] == .refuse (.reservedOpcode b)) = true := by decide

/-- E19: output opcodes are no stimuli. -/
theorem test_decode_outputs_E19 :
    decodeStimulus [0x80#8, 0x01#8] = .refuse .outputAsStimulus ∧ decodeStimulus [0x90#8, 0x00#8] = .refuse .outputAsStimulus ∧
    decodeStimulus [0x91#8, 0x01#8] = .refuse .outputAsStimulus := by decide

/-- E20: streams that end inside an operation; R85: output records with illegal operands. -/
theorem test_decode_truncated_E20 :
    decodeStimulus [0x30#8, 0x03#8, 0x01#8, 0xAA#8] = .refuse .truncated ∧ decodeStimulus [0x11#8, 0x0A#8] = .refuse .truncated ∧
    decodeStimulus [0x20#8] = .refuse .truncated ∧ decode [0x90#8, 0x01#8, 0x05#8] = .refuse .illegalOutput ∧
    decode [0x91#8, 0x02#8] = .refuse .illegalOutput := by decide

/-- The host's table words: `RX_BYTE` with operand 0xA8, 16 bits; `TICK`, 8 bits; `WRITE_MSG` of no byte, 16 bits. -/
theorem test_decodeTableWord :
    decodeTableWord 16 0xA820 = some (.rxByte 0xA8#8) ∧ decodeTableWord 8 0x10 = some .tick ∧
    decodeTableWord 16 0x0030 = some (.writeMsg []) ∧ decodeTableWord 16 0x0080 = some (.send 0x00#8) := by decide +kernel

/-- E21: the codes of `ST`. -/
theorem test_state_codes_E21 : [EngineState.idle, .receiving, .transmitting, .collisionWait].map EngineState.code =
    [0b00#2, 0b01#2, 0b10#2, 0b11#2] := by decide

/-! ## Timers (T1 to T14) -/

theorem test_tConfigure_T1 : seen State.eomt (exec (.tConfigure .eomt 11) sRecv) = some (tm 11 0 false) := by decide
theorem test_tConfigure_T6 :
    seen State.colt (exec (.tConfigure .colt 27) { sWait with colt := tm 13 5 true }) = some (tm 27 0 false) := by decide
theorem test_tRestart_T4 : seen State.eomt (exec (.tRestart .eomt) sRecv) = some (tm 11 0 true) := by decide
theorem test_tStop_T5 :
    seen (fun t => (t.colt, t.out)) (exec (.tStop .colt) { sWait with colt := tm 27 4 true }) = some (tm 27 0 false, []) := by
  decide
theorem test_tTick_T3 : seen (fun t => (t.eomt, t.ret)) (exec (.tTick .eomt) sRecv) = some (tm 11 0 false, .bool true) := by
  decide
theorem test_tTick_T7 :
    seen (fun t => (t.colt, t.ret)) (exec (.tTick .colt) { sRecv with colt := tm 1 0 true }) =
      some (tm 1 0 false, .bool true) := by decide

/-- T11: both timers expire; the tainted frame is dropped, then the retry begins. -/
theorem test_tick_T11 :
    seen (fun t => (t.st, t.rxcnt, t.rxtaint, t.inq.count)) (exec .tick sWait) = some (.transmitting, 0, false, 0) ∧
    seen (fun t => (t.txcur, t.txlast, t.out, t.eomt, t.colt)) (exec .tick sWait) =
      some (1, 0, [.send 0x01#8], tm 11 0 false, tm 27 0 false) := by decide

/-- T12: a frame-level collision starts the backoff timer after the tick. -/
theorem test_tick_T12 :
    seen (fun t => (t.st, t.colt, t.txcur)) (exec .tick (sTx 3 [0x01#8, 0xAA#8, 0xBB#8, 0xBB#8])) =
      some (.collisionWait, tm 27 0 true, 0) := by decide

/-- T10, X3: no fire on the tenth tick after the byte, the fire on the eleventh. -/
theorem test_ticks_T10 :
    seen State.eomt (exec (.ticks 10#16) { sRecv with eomt := tm 11 0 true }) = some (tm 11 10 true) := by decide
theorem test_ticks_X3 :
    seen (fun t => (t.st, t.inq.content)) (exec (.ticks 11#16) { sRecv with eomt := tm 11 0 true }) =
      some (.idle, [[0x80#8, 0x05#8]]) := by decide

/-! ## Transport (F1 to F8) -/

theorem test_frameEncode_F2 : seen State.ret (exec (.frameEncode 0xAA#8) sRecv) =
    some (.line [false, false, true, false, true, false, true, false, true, true]) := by decide
theorem test_frameEncode_F4 : seen State.ret (exec (.frameEncode 0x80#8) sRecv) =
    some (.line [false, false, false, false, false, false, false, false, true, true]) := by decide
theorem test_frameDecode_F6 :
    seen State.ret (exec (.frameDecode [false, false, false, false, true, false, true, false, true, false]) sRecv) =
      some (.byte 0xA8#8) := by decide
theorem test_txDone_F8 : exec .txDone sWait = .next sWait := rfl
theorem test_send : seen State.out (exec (.send 0xAA#8) sRecv) = some [.send 0xAA#8] := by decide

/-! ## Queues (Q1 to Q9) -/

theorem test_qPush_Q1 : seen State.inq (exec (.qPush .inq [0x0A#8, 0x00#8]) State.reset) =
    some { content := [[0x0A#8, 0x00#8]], oldest := 0, newest := 0 } := by decide
/-- Q2: the fifth push into a queue of four; slot 0 then holds the new Message. -/
theorem test_qPush_Q2 :
    seen (fun t => (t.outq.oldest, t.outq.newest, t.outq.content.head?, t.outq.slot 4 0))
        (exec (.qPush .outq [0x14#8, 0#8]) { State.reset with outq := fullQ }) =
      some (1, 0, some [0x11#8, 0#8], some [0x14#8, 0#8]) := by decide
theorem test_qPop_Q3 :
    seen (fun t => (t.ret, t.inq.oldest, t.inq.newest, t.inq.count)) (exec (.qPop .inq) { State.reset with inq := fullQ }) =
      some (.message (some [0x10#8, 0#8]), 1, 3, 3) := by decide
theorem test_qPop_Q5 : seen State.ret (exec (.qPop .inq) State.reset) = some (.message none) := by decide
theorem test_qPeek_Q4 :
    seen (fun t => (t.ret, t.inq)) (exec (.qPeek .inq) { State.reset with inq := fullQ }) =
      some (.message (some [0x10#8, 0#8]), fullQ) := by decide
theorem test_qIsEmpty_Q5 :
    seen State.ret (exec (.qIsEmpty .inq) State.reset) = some (.bool true) ∧
    seen State.ret (exec (.qIsEmpty .outq) sRecvOut) = some (.bool false) := by decide

/-! ## Receive side (X1 to X11) -/

theorem test_rxByte_X1 : seen (fun t => (t.st, t.rxbuf, t.rxcnt, t.eomt, t.out)) (exec (.rxByte 0x80#8) State.reset) =
    some (.receiving, [0x80#8], 1, tm 11 0 true, []) := by decide
/-- X16: the echo of byte 1 comes back wrong. -/
theorem test_rxByte_X16 :
    seen (fun t => (t.st, t.rxbuf, t.rxtaint, t.colt)) (exec (.rxByte 0xA8#8) (sTx 2 [0x01#8])) =
      some (.collisionWait, [0x01#8, 0xA8#8], true, tm 27 0 true) ∧
    seen (fun t => (t.txcur, t.txlast, t.out)) (exec (.rxByte 0xA8#8) (sTx 2 [0x01#8])) = some (0, 1, []) := by decide
theorem test_rxStore_X2 : seen (fun t => (t.rxbuf, t.rxcnt, t.eomt)) (exec (.rxStore 0x01#8) sRecv) =
    some ([0x80#8, 0x05#8, 0x01#8], 3, tm 11 0 true) := by decide
/-- X7: the 22nd byte is counted and not stored, the 23rd neither. -/
theorem test_rxStore_X7 :
    seen (fun t => (t.rxbuf.length, t.rxcnt, t.eomt))
        (execAll [.rxStore 0x45#8, .rxStore 0x46#8] { sRecv with rxbuf := List.replicate 21 0x30#8, rxcnt := 21 }) =
      some (21, 22, tm 11 0 true) := by decide
/-- X8: the frame is delivered, then the waiting Message starts. -/
theorem test_onEomFire_X8 :
    seen (fun t => (t.inq.content, t.st, t.out, t.outq.count)) (exec .onEomFire sRecvOut) =
      some ([[0x80#8, 0x05#8]], .transmitting, [.send 0x01#8], 0) := by decide
/-- X9: a foreign frame is delivered during the backoff. -/
theorem test_onEomFire_X9 :
    seen (fun t => (t.inq.content, t.st, t.colt, t.out))
        (exec .onEomFire { sWait with rxbuf := [0xA1#8, 0x07#8], rxcnt := 2, rxtaint := false }) =
      some ([[0xA1#8, 0x07#8]], .collisionWait, tm 27 26 true, []) := by decide

/-! ## Transmit side (X14 to X28) -/

theorem test_tryStart_X14 :
    seen (fun t => (t.outq.count, t.txmsg, t.txcur, t.st, t.out)) (exec .tryStart { sRecvOut with st := .idle }) =
      some (0, [0x01#8, 0xAA#8, 0xBB#8], 1, .transmitting, [.send 0x01#8]) := by decide
theorem test_sendNext_R171 :
    seen (fun t => (t.out, t.txlast, t.txcur)) (exec .sendNext (sTx 1 [])) = some ([.send 0xAA#8], 1, 2) := by decide
theorem test_echoCompare_X15 :
    seen (fun t => (t.out, t.txcur, t.txlast)) (exec (.echoCompare 0xAA#8) (sTx 2 [])) = some ([.send 0xBB#8], 3, 2) := by decide
theorem test_echoCompare_X17 :
    seen (fun t => (t.out, t.st, t.txcur)) (exec (.echoCompare 0xBB#8) (sTx 3 [])) = some ([], .transmitting, 3) := by decide
theorem test_collision_R174 :
    seen (fun t => (t.colt, t.txcur, t.st, t.txmsg)) (exec .collision (sTx 2 [])) =
      some (tm 27 0 true, 0, .collisionWait, [0x01#8, 0xAA#8, 0xBB#8]) := by decide
/-- X27: the bound is reached, the engine gives up and the open frame stays open. -/
theorem test_collision_X27 :
    seen (fun t => (t.txvalid, t.retrycnt, t.st, t.colt)) (exec .collision sLast) =
      some (false, 0, .receiving, tm 27 0 false) := by decide
/-- X21, the eleven values of the vector in mode MID_CLZ, and FIXED. -/
theorem test_priority_X21 :
    [0xFF#8, 0x80#8, 0x7F#8, 0x40#8, 0x2C#8, 0x10#8, 0x08#8, 0x04#8, 0x02#8, 0x01#8, 0x00#8].map
        (fun b => seen State.ret (exec (.priority b) (State.resetWith cfgClz))) =
      [1, 1, 2, 2, 3, 4, 5, 6, 7, 8, 8].map (fun p => some (.prio p)) := by decide
theorem test_priority_fixed : seen State.ret (exec (.priority 0x80#8) State.reset) = some (.prio 8) := by decide
theorem test_onColFire_R177 :
    seen (fun t => (t.out, t.txlast, t.txcur, t.st)) (exec .onColFire sWait) =
      some ([.send 0x01#8], 0, 1, .transmitting) := by decide
theorem test_validateEcho_R178 :
    seen (fun t => (t.inq.content, t.txvalid, t.st))
        (exec (.validateEcho 3 false [0x01#8, 0xAA#8, 0xBB#8]) (sTx 3 [])) =
      some ([[0x01#8, 0xAA#8, 0xBB#8]], false, .idle) := by decide
theorem test_validateEcho_longer :
    seen (fun t => (t.inq.count, t.st)) (exec (.validateEcho 4 false [0x01#8, 0xAA#8, 0xBB#8, 0xBB#8]) (sTx 3 [])) =
      some (0, .collisionWait) := by decide
theorem test_txComplete_R179 : seen (fun t => (t.txvalid, t.retrycnt)) (exec .txComplete sLast) = some (false, 0) := by decide
/-- R180: with the inter-byte timer stopped the engine gives up to `IDLE`. -/
theorem test_giveUp_R180 :
    seen (fun t => (t.txvalid, t.st)) (exec .giveUp { sLast with eomt := tm 11 0 false }) = some (false, .idle) := by decide

/-! ## Host operations (W1 to W10) -/

theorem test_writeMsg_W1 :
    seen (fun t => (t.out, t.st, t.outq.count)) (exec (.writeMsg [0x01#8, 0xAA#8, 0xBB#8]) State.reset) =
      some ([.send 0x01#8], .transmitting, 0) := by decide
/-- W5: a full queue loses its oldest Message silently. -/
theorem test_writeMsg_W5 :
    seen (fun t => (t.outq.content, t.out)) (exec (.writeMsg [0x14#8, 0#8]) { sTx 2 [] with outq := fullQ }) =
      some ([[0x11#8, 0#8], [0x12#8, 0#8], [0x13#8, 0#8], [0x14#8, 0#8]], []) := by decide
theorem test_readMsg_W6 :
    seen (fun t => (t.out, t.inq.count)) (exec .readMsg { State.reset with inq := fullQ }) =
      some ([.rspMsg [0x10#8, 0#8]], 3) := by decide
theorem test_readMsg_W7 : seen State.out (exec .readMsg State.reset) = some [.rspMsg []] := by decide
theorem test_msgAvail_W8 :
    seen State.out (exec .msgAvail State.reset) = some [.rspAvail 0x00#8] ∧
    seen State.out (exec .msgAvail { State.reset with inq := fullQ }) = some [.rspAvail 0x01#8] := by decide
theorem test_reset_W9 : exec .reset sWait = .next State.reset := by rfl
theorem test_reset_T13 :
    seen (fun t => (t.eomt, t.colt))
        (exec .reset { sWait with cfg := { ticksPerBit := 2, nIn := 4, nOut := 4 } }) =
      some (tm 22 0 false, tm 54 0 false) := by decide
theorem test_rspMsg : seen State.out (exec (.rspMsg [0x80#8, 0x01#8]) sRecv) = some [.rspMsg [0x80#8, 0x01#8]] := by decide
theorem test_rspAvail : seen State.out (exec (.rspAvail 0x01#8) sRecv) = some [.rspAvail 0x01#8] := by decide

/-! ## HostBridge (H1 to H12) and the text syntax (R89) -/

theorem test_hexEncode_H1 : seen State.ret (exec (.hexEncode [0x01#8, 0xAA#8, 0xBB#8]) State.reset) =
    some (.text ['$', '0', '1', 'A', 'A', 'B', 'B', '*']) := by decide
theorem test_hexDecode_H6 :
    seen State.ret (exec (.hexDecode ['$', '0', '1', 'a', 'A', 'b', 'B', '*']) State.reset) =
      some (.bytes (some [0x01#8, 0xAA#8, 0xBB#8])) := by decide
/-- H7 to H10, H12 are rejected; H11 decodes to a sequence the block drops. -/
theorem test_hexDecode_H7 :
    hexDecode ['0', '1', 'A', 'A', 'B', 'B', '*'] = none ∧ hexDecode ['$', '0', '1', 'A', 'A', 'B', 'B'] = none ∧
    hexDecode ['$', '0', '1', 'A', 'A', 'B', '*'] = none ∧ hexDecode ['$', '0', '1', 'A', 'G', '*'] = none ∧
    hexDecode ['$'] = none ∧ hexDecode ['*'] = none ∧ hexDecode [] = none ∧
    hexDecode ['$', '*'] = some [] ∧ hexDecode ['$', '0', '1', '*'] = some [0x01#8] := by decide
/-- R212, R214: the two ways through the HostBridge. -/
theorem test_bridge :
    bridgeIn ['$', '8', '0', '0', '1', '*'] = some (.writeMsg [0x80#8, 0x01#8]) ∧ bridgeIn ['$', '8', '*'] = none ∧
    bridgeOut (.rspMsg [0x80#8, 0x01#8]) = some ['$', '8', '0', '0', '1', '*'] ∧ bridgeOut (.rspMsg []) = none := by decide
/-- R89, the two lines of its example that show an operand and an answer. -/
theorem test_asmLine_R89 :
    asmLine (.ticks 11#16) [] = some "TICKS 11".toList ∧
    asmLine .readMsg [.rspMsg [0x01#8, 0xAA#8, 0xBB#8]] = some "READ_MSG -> RSP_MSG 01 AA BB".toList := by decide +kernel
/-- R90: `ECHO 01` and `FRAME 80 01` expanded. -/
theorem test_macros_R90 :
    macroEcho Config.reference 0x01#8 = [.ticks 10#16, .rxByte 0x01#8, .txDone] ∧
    macroFrame Config.reference [0x80#8, 0x01#8] = [.rxByte 0x80#8, .ticks 10#16, .rxByte 0x01#8] := by decide

/-! ## Test Transports (R126, R129, R133) -/

/-- F6 and R129: a character with a wrong stop bit is delivered; a sequence without a start bit is no character. -/
theorem test_lineIn_R129 :
    lineIn [false, false, false, false, true, false, true, false, true, false] = some (.rxByte 0xA8#8) ∧
    lineIn (List.replicate 10 true) = none ∧
    lineOut (.send 0x80#8) = some [false, false, false, false, false, false, false, false, true, true] := by decide
/-- R62, R128: the line rests at 1; characters follow each other with or without a rest between them. -/
theorem test_lineRead_R62 :
    lineWave [(2, 0x80#8)] = [true, true, false, false, false, false, false, false, false, false, true, true] ∧
    lineRead [] (lineWave [(3, 0x80#8), (0, 0x01#8)] ++ [true, true]) =
      { stimuli := [.rxByte 0x80#8, .rxByte 0x01#8], rest := [] } := by decide
/-- F6 on the line: the character with a wrong stop bit is delivered, what follows is open; a character cut short gives nothing. -/
theorem test_lineRead_F6 :
    lineRead [] [true, false, false, false, false, true, false, true, false, true, false, true] =
      { stimuli := [.rxByte 0xA8#8], rest := [true] } ∧
    lineRead [] [true, false, true] = { stimuli := [], rest := [false, true] } := by decide
/-- R126's example: after `SEND AA` the Transport delivers `RX_BYTE AA`, with interference `RX_BYTE A8`. -/
theorem test_faulting_R126 :
    loopback (.send 0xAA#8) = [.rxByte 0xAA#8, .txDone] ∧
    faulting [(1, 0xA8#8)] 0 [.send 0x01#8, .send 0xAA#8, .rspMsg []] =
      [.rxByte 0x01#8, .txDone, .rxByte 0xA8#8, .txDone] := by decide
/-- The state a test run ends in. -/
def ran (n : Nat) (faults : List (Nat × Byte)) (script : List Instr) : Option State :=
  match TestRun.run n { faults := faults, script := script, state := State.reset } with
  | .next r => some r.state
  | _ => none
/-- R184 (program P1): the Message of three bytes is echoed and comes back once. -/
theorem test_loopback_R184 :
    (ran 8 [] [.writeMsg [0x01#8, 0xAA#8, 0xBB#8], .ticks 11#16]).map (fun t => (t.st, t.out, t.inq.content)) =
      some (.idle, [.send 0x01#8, .send 0xAA#8, .send 0xBB#8], [[0x01#8, 0xAA#8, 0xBB#8]]) := by decide
/-- The second echo replaced: the backoff starts; after it the retry is echoed rightly. -/
theorem test_faulting_R133 :
    (ran 5 [(1, 0xA8#8)] [.writeMsg [0x01#8, 0xAA#8]]).map (fun t => (t.st, t.rxbuf, t.rxtaint)) =
      some (.collisionWait, [0x01#8, 0xA8#8], true) ∧
    (ran 11 [(1, 0xA8#8)] [.writeMsg [0x01#8, 0xAA#8], .ticks 27#16, .ticks 11#16]).map (fun t => (t.st, t.inq.content)) =
      some (.idle, [[0x01#8, 0xAA#8]]) := by decide +kernel

/-! ## Simultaneous stimuli (O1, O2) -/

theorem test_instant_O1 :
    seen (fun t => (t.rxcnt, t.eomt, t.st)) (applyInstant { rx := some 0x01#8, tick := true } sRecv) =
      some (3, tm 11 1 true, .receiving) := by decide
theorem test_instant_O2 :
    seen (fun t => (t.st, t.out, t.rxcnt))
        (applyInstant { tick := true, host := some (.write [0x01#8, 0xAA#8]) }
          { sRecv with rxbuf := [0x80#8], rxcnt := 1 }) =
      some (.transmitting, [.send 0x01#8], 0) := by decide

/-! ## The step -/

/-- The first stimulus of program P1 after reset, taken from the stream. -/
theorem test_step_P1 :
    seen (fun t => (t.st, t.out, t.stim)) (step { State.reset with stim := [0x30#8, 0x03#8, 0x01#8, 0xAA#8, 0xBB#8, 0x21#8] }) =
      some (.transmitting, [.send 0x01#8], [0x21#8]) := by decide
theorem test_step_withFetchWord :
    seen (fun t => (t.st, t.rxbuf, t.stim)) (step (State.reset.withFetchWord 16 0xA820)) =
      some (.receiving, [0xA8#8], []) := by decide +kernel
theorem test_step_refused : refusedWith (.illFormedStream .outputAsStimulus) (step { State.reset with stim := [0x80#8, 0x01#8] }) =
    true := by decide

/-! ## Witnesses: for every statement with hypotheses, inputs that meet them (boundary values where a clause has a range) -/

theorem test_witness_DecodeOfEncode :
    (Instr.writeMsg []).isRecord ∧ (Instr.writeMsg []).wf ∧ (Instr.rspMsg (List.replicate 21 0#8)).isRecord ∧
    (Instr.rspMsg (List.replicate 21 0#8)).wf ∧ (Instr.rspAvail 1#8).isRecord ∧ (Instr.rspAvail 1#8).wf ∧
    (Instr.ticks 65535#16).isStimulus := by decide
theorem test_witness_EncodeOfDecode : decode [0x90#8, 0x00#8, 0x21#8] = .ok (.rspMsg []) [0x21#8] := by decide
theorem test_witness_IllFormedStreams :
    0x00#8 ∉ [0x01#8, 0x10#8, 0x11#8, 0x20#8, 0x21#8, 0x30#8, 0x31#8, 0x32#8, 0x80#8, 0x90#8, 0x91#8] ∧
    (Instr.writeMsg [0x01#8, 0xAA#8]).isStimulus ∧
    encode (.writeMsg [0x01#8, 0xAA#8]) = some [0x30#8, 0x02#8, 0x01#8, 0xAA#8] ∧
    [0x30#8, 0x02#8, 0x01#8] <+: [0x30#8, 0x02#8, 0x01#8, 0xAA#8] ∧ (Instr.writeMsg [0x01#8, 0xAA#8]).wf := by decide
theorem test_witness_OperandAssembly :
    (0x01#8).toNat ≤ 1 ∧ (0x00#8).toNat ≤ [].length (α := Byte) ∧ (0x02#8).toNat ≤ [0x80#8, 0x01#8].length ∧
    (0x15#8).toNat ≤ (List.replicate 21 0x00#8).length ∧ 2 ≤ (0x15#8).toNat ∧ (0x15#8).toNat ≤ 21 := by decide
theorem test_witness_StepRunsDecodedStimulus :
    decodeStimulus { State.reset with stim := [0x20#8, 0x80#8, 0x10#8] }.stim = .ok (.rxByte 0x80#8) [0x10#8] ∧
    State.reset.stim = [] := by decide
theorem test_witness_OfferedWordRunsNext : decodeTableWord 8 0x32 = some .msgAvail ∧ Instr.msgAvail.isStimulus := by
  decide +kernel
theorem test_witness_StepKeepsInvariant : sWait.Inv ∧ (seen State.st (step sWait)).isSome = true := ⟨test_inv_wait, by decide⟩
theorem test_witness_Reachable :
    seen State.st (runFromReset Config.reference [0x20#8, 0x80#8, 0x10#8] 2) = some .receiving := by decide
theorem test_witness_EveryOperationCompletes :
    (Instr.tConfigure .colt 65535).wf ∧ 65535 ≤ State.reset.cfg.maxTicks ∧ (Instr.qPush .inq (List.replicate 21 0#8)).wf ∧
    (Instr.validateEcho 22 true (List.replicate 21 0#8)).wf ∧ (Instr.frameDecode (List.replicate 10 false)).wf := by
  decide +kernel
theorem test_witness_IllegalOperands :
    State.reset.cfg.maxTicks < 65536 ∧ (List.replicate 22 0#8).length > 21 ∧ [0x01#8].length < 2 ∧ 1 < (0x02#8).toNat ∧
    [true].length ≠ 10 := by decide +kernel
theorem test_witness_machine_rules :
    (sTx 2 [0x01#8]).Inv ∧ Instr.tick.isStimulus ∧ (∀ n, Instr.tick ≠ .ticks n) ∧ Instr.tick ≠ .reset ∧
    (sTx 2 [0x01#8]).txvalid = true ∧ (seen State.st (exec .tick (sTx 2 [0x01#8]))).isSome = true ∧
    seen (fun t => (t.st, t.txmsg)) (exec .tick { sTx 3 [0x01#8, 0xAA#8, 0xBB#8] with outq := sRecvOut.outq }) =
      some (.transmitting, [0x01#8, 0xAA#8, 0xBB#8]) :=
  ⟨test_inv_tx, rfl, nofun, nofun, rfl, by decide, by decide⟩
theorem test_witness_HostReachesOnlyTheQueues :
    (seen State.st (exec .readMsg sWait)).isSome = true ∧ (seen State.st (exec .msgAvail sWait)).isSome = true ∧
    (seen State.st (exec (.writeMsg [0x01#8, 0x02#8]) sWait)).isSome = true ∧ sWait.st ≠ .idle ∧ sWait.inq = sRecv.inq := by
  decide
/-- The lost-echo state: the first byte of a Message sent from the reset state, nothing echoed. -/
def sLost : State := { sTx 1 [] with eomt := tm 11 0 false }
theorem test_witness_LostEcho : sLost.Inv ∧ sLost.st = .transmitting ∧ sLost.eomt.run = false :=
  ⟨⟨by decide, by decide, by decide, by decide, by decide, by decide, by decide, by decide, by decide, by decide, by decide,
    by decide, by decide⟩, rfl, rfl⟩
theorem test_witness_Configure : 1 ≤ 1 ∧ 1 ≤ State.reset.cfg.maxTicks ∧ 65535 ≤ State.reset.cfg.maxTicks := by decide +kernel
theorem test_witness_TimerTick :
    (State.reset.timer .eomt).run = false ∧ (sWait.timer .colt).run = true ∧
    (sWait.timer .colt).cnt + 1 = (sWait.timer .colt).period ∧ ((tm 27 25 true).run = true ∧ 25 + 1 ≠ (tm 27 25 true).period) ∧
    1 ≤ (sWait.timer .colt).period := by decide
theorem test_witness_TickAdvancesThenFires :
    seen State.ret (exec (.tTick .eomt) sWait) = some (.bool true) ∧ seen State.ret (exec (.tTick .colt) sWait) = some (.bool true) ∧
    seen State.ret (exec (.tTick .colt) sRecv) = some (.bool false) ∧
    seen State.ret (exec (.tTick .eomt) { sWait with eomt := tm 11 9 true }) = some (.bool false) ∧
    State.reset.eomt.run = false ∧ State.reset.colt.run = false := by decide
theorem test_witness_BothTimers :
    sWait.Inv ∧ sWait.st = .collisionWait ∧ sWait.eomt.expires = true ∧ sWait.colt.expires = true ∧
    sWait.txmsg[0]? = some 0x01#8 := ⟨test_inv_wait, by decide⟩
theorem test_witness_queues :
    2 ≤ [0x01#8, 0x02#8].length ∧ (List.replicate 21 0#8).length ≤ 21 ∧ fullQ.content.length = State.reset.cfg.capacity .inq ∧
    (State.reset.queue .inq).content.length ≠ State.reset.cfg.capacity .inq ∧ (State.reset.queue .outq).content = [] ∧
    (sRecvOut.queue .outq).content = [[0x01#8, 0xAA#8, 0xBB#8]] ∧ fullQ.content.length ≤ State.reset.cfg.capacity .outq := by
  decide
theorem test_witness_QueueProceduresTouchOneSlot :
    fullQ.V9 4 ∧ fullQ.oldest < 4 ∧ fullQ.content ≠ [] ∧
    (seen State.st (exec (.qPush .inq [0x01#8, 0x02#8]) { State.reset with inq := fullQ })).isSome = true ∧
    (seen State.st (exec (.qPop .inq) { State.reset with inq := fullQ })).isSome = true := by decide
theorem test_witness_RxStore :
    sRecv.storesWf ∧ sRecv.rxcnt < 21 ∧
    { sRecv with rxbuf := List.replicate 20 0#8, rxcnt := 20 }.storesWf ∧
    { sRecv with rxbuf := List.replicate 21 0#8, rxcnt := 21 }.storesWf ∧
    { sRecv with rxbuf := List.replicate 21 0#8, rxcnt := 22 }.storesWf :=
  ⟨by decide, by decide, by decide, by decide, by decide⟩
theorem test_witness_RxByte_states :
    State.reset.st = .idle ∧ sRecv.st = .receiving ∧ sWait.st = .collisionWait ∧ (sTx 2 []).st = .transmitting := by decide
theorem test_witness_MismatchingByte :
    (sTx 2 [0x01#8]).Inv ∧ (sTx 2 [0x01#8]).st = .transmitting ∧ (sTx 2 [0x01#8]).collidesAtByte 0xA8#8 ∧
    ¬ (sTx 2 [0x01#8]).givesUp ∧ (sTx 2 [0x01#8]).txmsg[0]? = some 0x01#8 ∧ sLast.givesUp :=
  ⟨test_inv_tx, rfl, ⟨rfl, by decide⟩, fun h => h.1 rfl, rfl, ⟨by decide, by decide⟩⟩
/-- The fires as they happen: the state on_eom_fire meets has the EOM timer stopped. -/
theorem test_witness_EomFireDelivers :
    { sRecv with eomt := tm 11 0 false }.storesWf ∧ sRecv.Inv ∧ sRecv.eomt.expires = true ∧ sRecv.st = .receiving ∧
    sRecv.outq.content = [] ∧ { sWait with eomt := tm 11 0 false }.storesWf ∧ sWait.st = .collisionWait :=
  ⟨by decide, test_inv_recv, by decide, rfl, rfl, by decide, rfl⟩
/-- Backing off, the EOM fire next and the backoff not over. -/
def sWaiting : State := { sWait with colt := tm 27 25 true }
theorem test_witness_EomFireDelivers_waiting :
    sWaiting.Inv ∧ sWaiting.eomt.expires = true ∧ sWaiting.st = .collisionWait ∧ sWaiting.colt.expires = false :=
  ⟨⟨by decide, by decide, by decide, by decide, by decide, by decide, by decide, by decide, by decide, by decide, by decide,
    by decide, by decide⟩, by decide⟩
theorem test_witness_EomFireStarts :
    { sRecvOut with eomt := tm 11 0 false }.storesWf ∧ sRecvOut.txvalid = false ∧ sRecvOut.Inv ∧ sRecvOut.eomt.expires = true ∧
    sRecvOut.st = .receiving ∧ sRecvOut.outq.content = (0x01#8 :: [0xAA#8, 0xBB#8]) :: [] :=
  ⟨by decide, rfl, test_inv_recvOut, by decide, rfl, rfl⟩
/-- The state of vector X28: the retry used up, a frame of four bytes, a Message waiting. -/
def sX28 : State :=
  { sTx 3 [0x01#8, 0xAA#8, 0xBB#8, 0xBB#8] with
    cfg := cfgRetry, retrycnt := 1, outq := { content := [[0x02#8, 0xCC#8]], oldest := 0, newest := 0 } }
theorem test_witness_EomFireValidates :
    { sTx 3 [0x01#8, 0xAA#8, 0xBB#8] with eomt := tm 11 0 false }.storesWf ∧ (sTx 3 [0x01#8, 0xAA#8, 0xBB#8]).Inv ∧
    (sTx 3 [0x01#8, 0xAA#8, 0xBB#8]).eomt.expires = true ∧ (sTx 3 [0x01#8, 0xAA#8, 0xBB#8]).rxbuf = (sTx 3 []).txmsg ∧
    (sTx 3 [0x01#8, 0xAA#8, 0xBB#8]).rxtaint = false ∧ (sTx 3 [0x01#8, 0xAA#8, 0xBB#8]).rxcnt = 3 :=
  ⟨by decide, test_inv_txAll, by decide⟩
theorem test_witness_EomFireCollides :
    (sTx 2 [0x01#8]).Inv ∧ (sTx 2 [0x01#8]).eomt.expires = true ∧ (sTx 2 [0x01#8]).rxbuf ≠ (sTx 2 [0x01#8]).txmsg ∧
    ¬ (sTx 2 [0x01#8]).givesUp ∧ (sTx 2 [0x01#8]).txmsg[0]? = some 0x01#8 ∧
    sX28.eomt.expires = true ∧ sX28.rxbuf ≠ sX28.txmsg ∧ sX28.givesUp :=
  ⟨test_inv_tx, by decide, by decide, fun h => h.1 rfl, rfl, by decide, by decide, ⟨by decide, by decide⟩⟩
theorem test_inv_X28 : sX28.Inv :=
  ⟨by decide, by decide, by decide, by decide, by decide, by decide, by decide, by decide, by decide, by decide, by decide,
    by decide, by decide⟩
/-- X28: the give-up at the fire goes to `IDLE` and the waiting Message starts at once. -/
theorem test_tick_X28 :
    seen (fun t => (t.st, t.txmsg, t.retrycnt, t.out)) (exec .tick sX28) =
      some (.transmitting, [0x02#8, 0xCC#8], 0, [.send 0x02#8]) ∧
    seen (fun t => (t.txcur, t.txlast, t.inq.count)) (exec .tick sX28) = some (1, 0, 0) := by decide
theorem test_witness_InterByteRule :
    sRecv.Inv ∧ sRecv.st = .receiving ∧ sRecv.outq.content = [] ∧ 10 < sRecv.cfg.eomTicks ∧ sRecv.cfg.eomTicks ≤ 11 ∧
    sWait.Inv ∧ (sTx 2 [0x01#8]).Inv ∧ sRecvOut.Inv :=
  ⟨test_inv_recv, by decide, by decide, by decide, by decide, test_inv_wait, test_inv_tx, test_inv_recvOut⟩
theorem test_witness_TryStart :
    { sRecvOut with st := .idle }.st = .idle ∧ sRecvOut.txvalid = false ∧
    sRecvOut.outq.content = (0x01#8 :: [0xAA#8, 0xBB#8]) :: [] ∧ sRecvOut.st ≠ .idle ∧ sWait.txvalid = true ∧
    State.reset.outq.content = [] := by decide
theorem test_witness_transmit_reads :
    (sTx 2 []).txmsg[(sTx 2 []).txcur]? = some 0xBB#8 ∧ (sTx 2 []).txmsg[(sTx 2 []).txlast]? = some 0xAA#8 ∧
    (sTx 3 []).txmsg[(sTx 3 []).txlast]? = some 0xBB#8 ∧ (sTx 3 []).txmsg.length ≤ (sTx 3 []).txcur := by decide
theorem test_witness_Collision :
    (sTx 2 []).txmsg[0]? = some 0x01#8 ∧ (sTx 2 []).cfg.retryLimit = 0 ∧ sLast.cfg.retryLimit ≠ 0 ∧
    { sLast with retrycnt := 0 }.retrycnt < sLast.cfg.retryLimit ∧ sLast.cfg.retryLimit ≤ sLast.retrycnt := by decide
theorem test_witness_Priority : State.reset.cfg.prioMode = .fixed ∧ (State.resetWith cfgClz).cfg.prioMode = .midClz := by decide
theorem test_witness_Backoff :
    seen State.st (exec .collision { sLast with retrycnt := 0 }) = some .collisionWait ∧
    seen State.st (exec .collision (sTx 2 [])) = some .collisionWait ∧
    seen State.st (exec .collision { sTx 2 [] with retrycnt := 7 }) = some .collisionWait ∧
    (sTx 2 []).cfg.prioMode = .fixed ∧ 1 ≤ 8 ∧ 8 ≤ 8 := by decide
theorem test_witness_ColFire :
    { sWait with colt := tm 27 0 false }.V7 ∧ sWait.st = .collisionWait ∧ sWait.txmsg[0]? = some 0x01#8 ∧
    sWait.txmsg[sWait.txcur]? = some 0x01#8 ∧ sRecv.st ≠ .collisionWait := by decide
theorem test_witness_ValidateEcho :
    3 = (sTx 3 []).txmsg.length ∧ [0x01#8, 0xAA#8, 0xBB#8] = (sTx 3 []).txmsg ∧ [0x01#8] ≠ (sTx 3 []).txmsg := by decide
theorem test_witness_Retry : sWait.Inv ∧ sWait.st = .collisionWait ∧ sWait.txmsg[0]? = some 0x01#8 ∧
    0 < sWait.colt.period - sWait.colt.cnt := ⟨test_inv_wait, by decide⟩
theorem test_witness_QuietBus :
    State.reset.Inv ∧ State.reset.st = .idle ∧ 2 ≤ [0x01#8, 0xAA#8].length ∧ (List.replicate 21 0x01#8).length ≤ 21 ∧
    [0, 10].length = [0x01#8, 0xAA#8].length ∧ (∀ g ∈ [0, 10], g < State.reset.cfg.eomTicks) ∧ State.reset.cfg.eomTicks ≤ 11 :=
  ⟨test_inv_reset, by decide⟩
theorem test_witness_WriteMsg :
    (0x03#8).toNat ≤ [0x01#8, 0xAA#8, 0xBB#8].length ∧ [0x15#8].length < 2 ∧ 21 < (List.replicate 22 0#8).length ∧ sRecv.st ≠ .idle ∧ 1 ≤ [0xAA#8].length ∧
    (List.replicate 20 0#8).length ≤ 20 ∧ State.reset.Inv ∧ State.reset.st = .idle :=
  ⟨by decide, by decide, by decide, by decide, by decide, by decide, test_inv_reset, rfl⟩
theorem test_witness_ReadMsg :
    State.reset.inq.content = [] ∧ fullQ.content = [0x10#8, 0#8] :: fullQ.content.tail ∧ fullQ.V9 State.reset.cfg.nIn ∧
    [0x10#8, 0#8] ∈ fullQ.content := by decide
theorem test_witness_MsgAvail :
    { State.reset with inq := fullQ }.inq.content ≠ [] ∧
    (seen State.st (exec (.ticks 11#16) { State.reset with inq := fullQ })).isSome = true := by decide
theorem test_witness_Tainted :
    sWait.rxtaint = true ∧ { sTx 2 [0x01#8] with rxtaint := true }.st = .transmitting ∧ Instr.tick.isStimulus ∧
    Instr.tick ≠ .reset ∧ { sWait with eomt := tm 11 9 true }.eomt.expires = false ∧
    seen State.rxtaint (exec .tick { sWait with eomt := tm 11 9 true }) = some true := by decide
theorem test_witness_EmptyInterior :
    exec (.hexDecode ['$', '*']) State.reset = .next { State.reset with ret := .bytes (some []) } := by rfl
theorem test_witness_Reset : sWait.cfg = State.reset.cfg ∧ { reset := true, tick := true : Instant }.reset = true := ⟨rfl, rfl⟩
theorem test_witness_CharacterCodec :
    seen State.ret (exec (.frameEncode 0x01#8) sRecv) =
      some (.line [false, true, false, false, false, false, false, false, false, true]) := by decide
theorem test_witness_Transport :
    State.reset.Inv ∧ State.reset.st = .idle ∧ 2 ≤ [0x01#8, 0xAA#8].length ∧ (List.replicate 21 0x01#8).length ≤ 21 ∧
    [0x01#8, 0xAA#8][1]? = some 0xAA#8 ∧ 0xA8#8 ≠ 0xAA#8 ∧ (List.replicate 21 0x01#8)[20]? = some 0x01#8 ∧ 2 * 1 + 3 ≤ 5 ∧
    2 * [0x01#8, 0xAA#8].length + 1 ≤ 5 := ⟨test_inv_reset, by decide⟩
theorem test_witness_HexRoundTrip : [0x1A#8, 0xBC#8][1]? = some 0xBC#8 := by decide
theorem test_witness_Simultaneous :
    sRecv.Inv ∧ sRecv.st = .receiving ∧ sRecv.eomt.expires = true ∧ sRecv.outq.content = [] ∧ 1 ≤ [0xAA#8].length ∧
    [0xAA#8].length ≤ 20 := ⟨test_inv_recv, by decide⟩

end Sys2Proof.Tests
end

/-! # Encoding: operand assembly (R86), ill-formed streams (R87), the priority table (R92) -/

section

namespace Sys2Proof

/-! ## The record decoder, one equation for each opcode that has an operand (R84 to R86) -/

@[simp] theorem decode_ticks (lo hi : Byte) (r : List Byte) :
    decode (0x11#8 :: lo :: hi :: r) = .ok (.ticks (le16 lo hi)) r := rfl
@[simp] theorem decode_rxByte (b : Byte) (r : List Byte) : decode (0x20#8 :: b :: r) = .ok (.rxByte b) r := rfl
@[simp] theorem decode_send (b : Byte) (r : List Byte) : decode (0x80#8 :: b :: r) = .ok (.send b) r := rfl

theorem decode_rspAvail {v : Byte} (r : List Byte) (h : (Instr.rspAvail v).wf) :
    decode (0x91#8 :: v :: r) = .ok (.rspAvail v) r := if_pos h

theorem takeSeq_of_le {n : Byte} {t : List Byte} (h : n.toNat ≤ t.length) :
    takeSeq (n :: t) = some (t.take n.toNat, t.drop n.toNat) := if_pos h

theorem takeSeq_of_lt {n : Byte} {t : List Byte} (h : t.length < n.toNat) : takeSeq (n :: t) = none :=
  if_neg (Nat.not_le.mpr h)

theorem decode_writeMsg {t r : List Byte} {m : ByteSeq} (h : takeSeq t = some (m, r)) :
    decode (0x30#8 :: t) = .ok (.writeMsg m) r := by simp [decode, h]

theorem decode_writeMsg_truncated {t : List Byte} (h : takeSeq t = none) :
    decode (0x30#8 :: t) = .refuse .truncated := by simp [decode, h]

theorem decode_rspMsg {t r : List Byte} {m : ByteSeq} (h : takeSeq t = some (m, r)) (hw : (Instr.rspMsg m).wf) :
    decode (0x90#8 :: t) = .ok (.rspMsg m) r := by
  have hw' : m.length = 0 ∨ validLength m.length := hw
  simp [decode, h, hw']

/-- Settles O5, from the decoder's equation for each format. -/
theorem operandAssembly : Obligations.OperandAssembly := by
  refine ⟨decode_rxByte, decode_send, fun v r hv => decode_rspAvail r hv,
    fun lo hi r => ⟨le16 lo hi, decode_ticks lo hi r, toNat_le16 lo hi⟩,
    fun n r hn => decode_writeMsg (takeSeq_of_le hn), fun n r hn hw => ?_⟩
  have hl : (r.take n.toNat).length = n.toNat := by simp [hn]
  exact decode_rspMsg (takeSeq_of_le hn) (by simpa only [Instr.wf, hl] using hw)

/-! ## What the stimulus decoder refuses (R87) -/

/-- A byte that neither R84 nor R85 lists is refused as such by the stimulus decoder. -/
theorem decodeStimulus_reserved {op : Byte} (t : List Byte)
    (h : op ∉ [0x01#8, 0x10#8, 0x11#8, 0x20#8, 0x21#8, 0x30#8, 0x31#8, 0x32#8, 0x80#8, 0x90#8, 0x91#8]) :
    decodeStimulus (op :: t) = .refuse (.reservedOpcode op) := by
  simp only [List.mem_cons, List.not_mem_nil, not_or, or_false] at h
  simp [decodeStimulus, decode, h]

theorem decodeStimulus_output {op : Byte} (t : List Byte) (h : op ∈ [0x80#8, 0x90#8, 0x91#8]) :
    decodeStimulus (op :: t) = .refuse .outputAsStimulus :=
  if_pos (by simpa using h)

theorem exists_cons_of_prefix {a : Byte} {p t : List Byte} (hp : p <+: a :: t) (h0 : p ≠ []) : ∃ q, p = a :: q ∧ q <+: t :=
  (List.prefix_cons_iff.mp hp).resolve_left h0

/-- A sequence operand of which the last bytes, or the length byte too, are missing is not taken. -/
theorem takeSeq_of_properPrefix {m : ByteSeq} {q : List Byte} (hm : m.length ≤ 255)
    (hq : q <+: BitVec.ofNat 8 m.length :: m) (hlt : q.length < m.length + 1) : takeSeq q = none := by
  by_cases h0 : q = []
  · rw [h0]; rfl
  · obtain ⟨r, rfl, -⟩ := exists_cons_of_prefix hq h0
    rw [List.length_cons] at hlt
    exact takeSeq_of_lt (by rw [BitVec.toNat_ofNat]; omega)

/-- The encoding of a stimulus, cut short behind its opcode, is refused as truncated: what is left of the operand is shorter than
its format asks for. -/
theorem decodeStimulus_of_properPrefix {i : Instr} {e p : List Byte} (hi : i.isStimulus) (he : encode i = some e)
    (hp : p <+: e) (h0 : p ≠ []) (hlt : p.length < e.length) : decodeStimulus p = .refuse .truncated := by
  cases i with
  | reset | tick | txDone | readMsg | msgAvail =>
    cases he
    exact absurd (List.length_eq_zero_iff.mp (Nat.lt_one_iff.mp hlt)) h0
  | rxByte b =>
    cases he
    obtain ⟨q, rfl, -⟩ := exists_cons_of_prefix hp h0
    match q, hlt with
    | [], _ => rfl
  | ticks n =>
    cases he
    obtain ⟨q, rfl, -⟩ := exists_cons_of_prefix hp h0
    match q, hlt with
    | [], _ | [_], _ => rfl
  | writeMsg m =>
    simp only [encode, Option.ite_none_right_eq_some, Option.some.injEq] at he
    obtain ⟨hm, rfl⟩ := he
    obtain ⟨q, rfl, hq⟩ := exists_cons_of_prefix hp h0
    rw [decodeStimulus_cons q (by decide)]
    exact decode_writeMsg_truncated (takeSeq_of_properPrefix hm hq (Nat.lt_of_succ_lt_succ hlt))
  | _ => cases hi

end Sys2Proof

namespace Sys2Proof.Machine

/-! ## The step on an ill-formed stream (R87) -/

/-- A step refuses what the stimulus decoder refuses. -/
theorem step_of_refuse {s : State} {e : DecodeError} (h0 : s.stim ≠ []) (h : decodeStimulus s.stim = .refuse e) :
    step s = .refused (.illFormedStream e) := by
  simp only [step, applyNext, fetch, h, h0, if_false]

/-- Every stimulus runs in every state, whatever its operand (R87, R39). -/
theorem exec_of_isStimulus {i : Instr} (h : i.isStimulus) (s : State) : ∃ t, exec i s = .next t := by
  cases i with
  | reset | tick | ticks | rxByte | txDone | writeMsg | readMsg | msgAvail => exact ⟨_, rfl⟩
  | _ => cases h

/-- `TICKS 0` is a stimulus like any other, and changes nothing (R116). -/
theorem exec_ticks_zero (s : State) : exec (.ticks 0#16) s = .next s := rfl

/-- Settles O3: a step refuses what the stimulus decoder refuses, and the decoder refuses each of the three kinds of ill-formed
streams by name. -/
theorem illFormedStreamsAreRefused : Obligations.IllFormedStreamsAreRefused := by
  refine ⟨fun s op t hop hs => ?reserved, fun s op t hop hs => ?output, fun s i e hi he hp h0 hne => ?truncated,
    fun s i hi _ => exec_of_isStimulus hi s, exec_ticks_zero⟩
  case reserved => exact step_of_refuse (by simp [hs]) (hs ▸ decodeStimulus_reserved t hop)
  case output => exact step_of_refuse (by simp [hs]) (hs ▸ decodeStimulus_output t hop)
  case truncated =>
    have hlt : s.stim.length < e.length := lt_of_le_of_ne hp.length_le fun h => hne (hp.eq_of_length h)
    exact step_of_refuse h0 (decodeStimulus_of_properPrefix hi he hp h0 hlt)

/-! ## Leading zeros and the priority table (R92, R175) -/

/-- The leading zeros of the `w` lowest bits of a number below `2 ^ w` fill up its binary length to `w`. -/
theorem leadingZeros_bits_add_size {w n : Nat} (h : n < 2 ^ w) :
    leadingZeros ((List.range w).map n.testBit).reverse + n.size = w := by
  induction w with
  | zero =>
    have : n = 0 := by simpa using h
    simp [this, leadingZeros]
  | succ w ih =>
    simp only [List.range_succ, List.map_append, List.reverse_append, List.map_cons, List.map_nil, List.reverse_singleton,
      List.singleton_append]
    by_cases hw : n < 2 ^ w
    · rw [Nat.testBit_eq_false_of_lt hw, leadingZeros]
      have := ih hw
      omega
    · have hle : 2 ^ w ≤ n := Nat.le_of_not_lt hw
      rw [Nat.testBit_of_two_pow_le_and_two_pow_add_one_gt hle h, leadingZeros]
      have h1 := Nat.lt_size.mpr hle
      have h2 := Nat.size_le.mpr h
      omega

theorem clz8_add_size (b : Byte) : clz8 b + b.toNat.size = 8 := leadingZeros_bits_add_size b.isLt

/-- `clz8` as the table of R92 gives it: the first threshold `2 ^ k` that the byte reaches. -/
theorem clz8_eq_table (b : Byte) :
    clz8 b = if 0x80 ≤ b.toNat then 0 else if 0x40 ≤ b.toNat then 1 else if 0x20 ≤ b.toNat then 2
      else if 0x10 ≤ b.toNat then 3 else if 0x08 ≤ b.toNat then 4 else if 0x04 ≤ b.toNat then 5
      else if 0x02 ≤ b.toNat then 6 else if 0x01 ≤ b.toNat then 7 else 8 := by
  have hs := clz8_add_size b
  have hk (k : Nat) : k < b.toNat.size ↔ 2 ^ k ≤ b.toNat := Nat.lt_size
  have h0 := hk 0; have h1 := hk 1; have h2 := hk 2; have h3 := hk 3
  have h4 := hk 4; have h5 := hk 5; have h6 := hk 6; have h7 := hk 7
  split_ifs <;> omega

@[simp] theorem exec_priority (mid : Byte) (s : State) :
    exec (.priority mid) s = .next { s with ret := .prio (priorityOf s.cfg.prioMode mid) } := rfl

theorem priorityOf_midClz (mid : Byte) : priorityOf .midClz mid = max 1 (min 8 (clz8 mid + 1)) := rfl

/-- Settles O44: the priority is `clz8 + 1` held to `1..8`, and `clz8` follows its table. -/
theorem priorityFollowsTable : Obligations.PriorityFollowsTable := by
  intro mid s
  obtain ⟨h1, h8⟩ := priorityOf_range s.cfg.prioMode mid
  refine ⟨_, exec_priority mid s, h1, h8, fun hm => ?fixed, fun hm => ?midClz, clz8_eq_table mid⟩
  case fixed => rw [hm, priorityOf_fixed]
  case midClz =>
    rw [hm, priorityOf_midClz, clz8_eq_table]
    split_ifs <;> rfl

end Sys2Proof.Machine

end

/-! # The bit timers: `TICKS n` as a run of `TICK` (R116) -/

section

namespace Sys2Proof.Machine

@[simp] theorem exec_ticks (n : BitVec 16) (s : State) : exec (.ticks n) s = .next (tickN n.toNat s) := rfl

/-- Settles O26: `TICKS n` and `n` TICK operations, by induction on their number, both end in `tickN n`. -/
theorem ticksIsRepeatedTick : Obligations.TicksIsRepeatedTick := by
  refine ⟨fun lo hi r => ?operand, fun n s => ?run⟩
  case operand => exact ⟨le16 lo hi, decode_ticks lo hi r, toNat_le16 lo hi⟩
  case run => exact ⟨tickN n.toNat s, exec_ticks n s, execAll_replicate_tick n.toNat s⟩

end Sys2Proof.Machine

end

/-! # The MessageQueue (R140 to R143) -/

section

namespace Sys2Proof.Machine

/-! ## What each queue operation answers -/

theorem exec_qPush {q : QueueId} {m : ByteSeq} (s : State) (h : validLength m.length) :
    exec (.qPush q m) s = .next (qPush q m s) := if_pos h

@[simp] theorem exec_qPop (q : QueueId) (s : State) :
    exec (.qPop q) s = .next (returning (.message (qPop q s).1) (qPop q s).2) := rfl

@[simp] theorem exec_qPeek (q : QueueId) (s : State) :
    exec (.qPeek q) s = .next (returning (.message (s.queue q).content.head?) s) := rfl

@[simp] theorem exec_qIsEmpty (q : QueueId) (s : State) :
    exec (.qIsEmpty q) s = .next (returning (.bool (s.queue q).isEmpty) s) := rfl

@[simp] theorem exec_reset (s : State) : exec .reset s = .next (resetState s) := rfl

/-! ## The queues after each operation -/

@[simp] theorem State.queue_returning (s : State) (q : QueueId) (r : Result) : (returning r s).queue q = s.queue q := by
  cases q <;> rfl

@[simp] theorem State.queue_qPush (s : State) (q : QueueId) (m : ByteSeq) :
    (qPush q m s).queue q = (s.queue q).push (s.cfg.capacity q) m :=
  State.queue_setQueue ..

theorem State.queue_resetState (s : State) (q : QueueId) :
    (resetState s).queue q = Queue.empty (s.cfg.capacity q) := by
  cases q <;> rfl

/-- `Q_PUSH` writes one queue (R140). -/
theorem qPush_eq_setQueue (s : State) (q : QueueId) (m : ByteSeq) :
    qPush q m s = s.setQueue q ((qPush q m s).queue q) := by
  rw [State.queue_qPush, qPush]

/-- The Message that `Q_POP` returns is the one that `Q_PEEK` returns in the same state (R141, R142). -/
theorem qPop_fst (q : QueueId) (s : State) : (qPop q s).1 = (s.queue q).content.head? := by
  cases hc : (s.queue q).content with
  | nil => rw [qPop_of_nil hc]; rfl
  | cons m r => rw [qPop_of_cons hc]; rfl

/-! ## Push and pop -/

/-- Settles O27, by whether the queue is full. -/
theorem pushAppendsEvictingOldest : Obligations.PushAppendsEvictingOldest := by
  intro q m s h2 h21
  rw [exec_qPush s ⟨h2, h21⟩, qPush]
  refine ⟨fun hfull => ?full, fun hroom => ?room⟩
  case full => rw [Queue.push_of_full m hfull]
  case room => rw [Queue.push_of_room m hroom]

/-- Settles O28, by whether the queue holds an entry. -/
theorem popRemovesOldest : Obligations.PopRemovesOldest := by
  intro q s
  refine ⟨fun hnil => ?empty, fun m r hcons => ?entry⟩
  case empty => rw [exec_qPop, qPop_of_nil hnil]; rfl
  case entry => rw [exec_qPop, qPop_of_cons hcons]; rfl

/-! ## Peek and emptiness -/

/-- `Q_POP` right after `Q_PEEK` returns what the peek returned (R142). -/
theorem execAll_qPeek_qPop (q : QueueId) (s : State) :
    ∃ u, execAll [.qPeek q, .qPop q] s = .next u ∧ u.ret = .message (s.queue q).content.head? := by
  rw [execAll_cons (exec_qPeek q s), execAll_cons (exec_qPop q _)]
  exact ⟨_, rfl, by rw [returning_ret, qPop_fst, State.queue_returning]⟩

/-- A push on a full queue between the two evicts the peeked entry, so the pop returns the entry after it (R142). -/
theorem execAll_qPeek_qPush_qPop {q : QueueId} {m : ByteSeq} {s : State} (hm : validLength m.length)
    (hfull : (s.queue q).content.length = s.cfg.capacity q) :
    ∃ u, execAll [.qPeek q, .qPush q m, .qPop q] s = .next u ∧
      u.ret = .message ((s.queue q).content.tail ++ [m]).head? := by
  rw [execAll_cons (exec_qPeek q s), execAll_cons (exec_qPush _ hm), execAll_cons (exec_qPop q _)]
  refine ⟨_, rfl, ?_⟩
  rw [returning_ret, qPop_fst, State.queue_qPush, State.queue_returning, returning_cfg, Queue.push_of_full m hfull]

/-- After `RESET` each queue reads as empty (R143, R40). -/
theorem execAll_reset_qIsEmpty (q : QueueId) (s : State) :
    ∃ u, execAll [.reset, .qIsEmpty q] s = .next u ∧ u.ret = .bool true := by
  rw [execAll_cons (exec_reset s), execAll_cons (exec_qIsEmpty q _)]
  refine ⟨_, rfl, ?_⟩
  rw [returning_ret, State.queue_resetState]; rfl

/-- `Q_PUSH` keeps every entry of a queue with room and loses the oldest of a full one (R140, R143). -/
theorem Queue.push_content_cases (n : Nat) (q : Queue) (m : ByteSeq) :
    (q.push n m).content = q.content ++ [m] ∨
      (q.content.length = n ∧ (q.push n m).content = q.content.tail ++ [m]) := by
  by_cases hfull : q.content.length = n
  · exact .inr ⟨hfull, by rw [Queue.push_of_full m hfull]⟩
  · exact .inl (by rw [Queue.push_of_room m hfull])

/-- Settles O29: the two reads answer from the content, and the runs follow from what a pop returns. -/
theorem peekAndIsEmptyOnlyRead : Obligations.PeekAndIsEmptyOnlyRead := by
  intro q s
  refine ⟨exec_qPeek q s, exec_qIsEmpty q s, execAll_qPeek_qPop q s,
    fun m h2 h21 hfull => execAll_qPeek_qPush_qPop ⟨h2, h21⟩ hfull, execAll_reset_qIsEmpty q s, fun m h2 h21 => ?push⟩
  case push =>
    refine ⟨qPush q m s, exec_qPush s ⟨h2, h21⟩, qPush_eq_setQueue s q m, ?_⟩
    rw [State.queue_qPush]
    exact Queue.push_content_cases ..

end Sys2Proof.Machine

end

/-! # The receive side: `RX_BYTE` by state (R156), the tainted frame (R159) -/

section

namespace Sys2Proof.Machine

@[simp] theorem exec_rxByte (b : Byte) (s : State) : exec (.rxByte b) s = .next (rxByte b s) := rfl
@[simp] theorem exec_rxStore (b : Byte) (s : State) : exec (.rxStore b) s = .next (rxStore b s) := rfl
@[simp] theorem exec_echoCompare (b : Byte) (s : State) : exec (.echoCompare b) s = .next (echoCompare b s) := rfl
@[simp] theorem exec_onEomFire (s : State) : exec .onEomFire s = .next (onEomFire s) := rfl
@[simp] theorem exec_collision (s : State) : exec .collision s = .next (collision s) := rfl
@[simp] theorem exec_tryStart (s : State) : exec .tryStart s = .next (tryStart s) := rfl

/-! ## What storing a byte leaves unchanged (R155) -/

/-- `rx_store` writes the assembly and the inter-byte timer only, in every state. -/
theorem rxStore_frame (b : Byte) (s : State) : rxStore b s =
    { s with rxbuf := (rxStore b s).rxbuf, rxcnt := (rxStore b s).rxcnt, eomt := (rxStore b s).eomt } := by
  unfold rxStore; split <;> rfl

@[simp] theorem rxStore_colt (b : Byte) (s : State) : (rxStore b s).colt = s.colt := by rw [rxStore_frame]
@[simp] theorem rxStore_out (b : Byte) (s : State) : (rxStore b s).out = s.out := by rw [rxStore_frame]
@[simp] theorem rxStore_rxtaint (b : Byte) (s : State) : (rxStore b s).rxtaint = s.rxtaint := by rw [rxStore_frame]

/-! ## What the transmit procedures leave of the receive side (R170 to R180) -/

/-- `t` holds the `INQ`, the byte count and the taint of `s`. -/
structure KeepsReceiveSide (s t : State) : Prop where
  inq : t.inq = s.inq
  rxcnt : t.rxcnt = s.rxcnt
  rxtaint : t.rxtaint = s.rxtaint

theorem KeepsReceiveSide.refl (s : State) : KeepsReceiveSide s s := ⟨rfl, rfl, rfl⟩

theorem KeepsReceiveSide.trans {s t u : State} (h : KeepsReceiveSide s t) (h' : KeepsReceiveSide t u) :
    KeepsReceiveSide s u :=
  ⟨h'.inq.trans h.inq, h'.rxcnt.trans h.rxcnt, h'.rxtaint.trans h.rxtaint⟩

theorem sendNext_keepsReceiveSide (s : State) : KeepsReceiveSide s (sendNext s) := ⟨rfl, rfl, rfl⟩

theorem tryStart_keepsReceiveSide (s : State) : KeepsReceiveSide s (tryStart s) := by
  unfold tryStart
  split
  case isFalse => exact .refl s
  case isTrue =>
    cases hc : s.outq.content with
    | nil => rw [qPop_of_nil (q := .outq) hc]; exact .refl s
    | cons m r => rw [qPop_of_cons (q := .outq) hc]; exact ⟨rfl, rfl, rfl⟩

theorem collision_keepsReceiveSide (s : State) : KeepsReceiveSide s (collision s) := by
  unfold collision; split <;> exact ⟨rfl, rfl, rfl⟩

theorem onColFire_keepsReceiveSide (s : State) : KeepsReceiveSide s (onColFire s) := by
  unfold onColFire; split <;> exact ⟨rfl, rfl, rfl⟩

/-- A collision emits nothing, retried or given up (R174, R180). -/
@[simp] theorem collision_out (s : State) : (collision s).out = s.out := by
  unfold collision; split <;> rfl

/-- Everything the echo comparator can do: send the next byte, nothing, or taint the frame and collide (R172). -/
theorem echoCompare_cases (b : Byte) (s : State) :
    echoCompare b s = sendNext s ∨ echoCompare b s = s ∨ echoCompare b s = collision { s with rxtaint := true } := by
  unfold echoCompare; split_ifs <;> simp

/-! ## `RX_BYTE` (R156) -/

/-- The echo comparator emits at most one `SEND`. -/
theorem echoCompare_out (b : Byte) (s : State) :
    (echoCompare b s).out = s.out ∨ ∃ x, (echoCompare b s).out = s.out ++ [.send x] := by
  obtain h | h | h := echoCompare_cases b s
  · exact .inr ⟨_, congrArg State.out h⟩
  · exact .inl (congrArg State.out h)
  · exact .inl (by rw [h, collision_out])

theorem rxByte_out (b : Byte) (s : State) : (rxByte b s).out = s.out ∨ ∃ x, (rxByte b s).out = s.out ++ [.send x] := by
  cases hs : s.st with
  | idle => exact .inl (by rw [rxByte_of_idle b hs, rxStore_out])
  | receiving => exact .inl (by rw [rxByte_of_receiving b hs, rxStore_out])
  | transmitting => simpa only [rxByte_of_transmitting b hs, rxStore_out] using echoCompare_out b (rxStore b s)
  | collisionWait => exact .inl (by rw [rxByte_of_wait b hs, rxStore_out])

/-- Settles O33, from what `RX_BYTE` does after `rx_store` in each of the four states. -/
theorem rxByteStoresThenActsByState : Obligations.RxByteStoresThenActsByState := by
  intro b s
  refine ⟨rxStore b s, exec_rxStore b s, rxStore_colt b s, rxStore_st b s, decode_rxByte b, fun t ht => ?out,
    fun hs => ?idle, fun hs => ?receiving, fun hs => ?wait, fun hs => ?transmitting⟩
  case out => cases ht; exact rxByte_out b s
  case idle => rw [exec_rxByte, rxByte_of_idle b hs]
  case receiving => rw [exec_rxByte, rxByte_of_receiving b hs]
  case wait => rw [exec_rxByte, rxByte_of_wait b hs]
  case transmitting => rw [exec_rxByte, rxByte_of_transmitting b hs, exec_echoCompare]

/-! ## The fire that ends a tainted frame (R157, R159) -/

/-- A tainted frame is not delivered, whatever its length. -/
theorem deliver_of_tainted (n : Nat) (frame : ByteSeq) (s : State) : deliver n true frame s = s :=
  if_neg fun h => Bool.noConfusion h.2

/-- A tainted frame never validates the transmission: the fire is a collision on the emptied assembly (R178). -/
theorem onEomFire_of_tainted_transmitting {s : State} (ht : s.rxtaint = true) (hs : s.st = .transmitting) :
    onEomFire s = tryStart (collision (clearAssembly s)) := by
  simp only [onEomFire, hs, ht, validateEcho_mismatch (.inl rfl)]

/-- In every state the fire of a tainted frame empties the assembly, then acts on the transmit side only. -/
theorem onEomFire_keepsReceiveSide_of_tainted {s : State} (ht : s.rxtaint = true) :
    KeepsReceiveSide (clearAssembly s) (onEomFire s) := by
  cases hs : s.st with
  | idle => rw [onEomFire_of_idle hs]; exact tryStart_keepsReceiveSide _
  | receiving =>
    have he : onEomFire s = tryStart { clearAssembly s with st := .idle } := by
      simp only [onEomFire, hs, ht, deliver_of_tainted]
    rw [he]; refine .trans ?_ (tryStart_keepsReceiveSide _); exact ⟨rfl, rfl, rfl⟩
  | transmitting =>
    rw [onEomFire_of_tainted_transmitting ht hs]
    exact (collision_keepsReceiveSide _).trans (tryStart_keepsReceiveSide _)
  | collisionWait =>
    have he : onEomFire s = tryStart (clearAssembly s) := by
      simp only [onEomFire, hs, ht, deliver_of_tainted]
    rw [he]; exact tryStart_keepsReceiveSide _

/-! ## The taint between the fires (R159) -/

/-- The echo comparator sets the taint or leaves it (R172). -/
theorem echoCompare_rxtaint_of_tainted (b : Byte) {s : State} (ht : s.rxtaint = true) : (echoCompare b s).rxtaint = true := by
  obtain h | h | h := echoCompare_cases b s <;> rw [h]
  · rw [(sendNext_keepsReceiveSide s).rxtaint, ht]
  · exact ht
  · exact (collision_keepsReceiveSide _).rxtaint

theorem rxByte_rxtaint_of_tainted (b : Byte) {s : State} (ht : s.rxtaint = true) : (rxByte b s).rxtaint = true := by
  have hu : (rxStore b s).rxtaint = true := (rxStore_rxtaint b s).trans ht
  cases hs : s.st with
  | idle => rwa [rxByte_of_idle b hs]
  | receiving => rwa [rxByte_of_receiving b hs]
  | transmitting => rw [rxByte_of_transmitting b hs]; exact echoCompare_rxtaint_of_tainted b hu
  | collisionWait => rwa [rxByte_of_wait b hs]

/-- A tick without an inter-byte fire leaves the receive side, its timer apart, as it is, the backoff over or not (R115, R177). -/
theorem tick_keepsReceiveSide {s : State} (he : s.eomt.expires = false) : KeepsReceiveSide s (tick s) := by
  cases hc : s.colt.expires with
  | false => rw [tick_of_quiet he hc]; exact ⟨rfl, rfl, rfl⟩
  | true => rw [tick_of_colFire he hc]; refine .trans ?_ (onColFire_keepsReceiveSide _); exact ⟨rfl, rfl, rfl⟩

theorem writeMsg_keepsReceiveSide (m : ByteSeq) (s : State) : KeepsReceiveSide s (writeMsg m s) := by
  by_cases hm : validLength m.length
  · rw [writeMsg_of_valid hm]; refine .trans ?_ (tryStart_keepsReceiveSide _); exact ⟨rfl, rfl, rfl⟩
  · rw [writeMsg_of_invalid hm]; exact .refl s

@[simp] theorem readMsg_rxtaint (s : State) : (readMsg s).rxtaint = s.rxtaint := by
  cases hc : s.inq.content with
  | nil => rw [readMsg_of_nil hc]
  | cons m r => rw [readMsg_of_cons hc]

/-- A stimulus that neither resets nor ends the frame keeps the taint. `TICKS` runs `TICK`s (R116), a fire perhaps among them, and
is left out. -/
theorem exec_rxtaint_of_tainted {i : Instr} {s t : State} (ht : s.rxtaint = true) (hi : i.isStimulus) (hr : i ≠ .reset)
    (hn : ∀ n, i ≠ .ticks n) (he : i = .tick → s.eomt.expires = false) (hx : exec i s = .next t) : t.rxtaint = true := by
  cases i with
  | reset => exact absurd rfl hr
  | ticks n => exact absurd rfl (hn n)
  | tick => cases hx; exact (tick_keepsReceiveSide (he rfl)).rxtaint.trans ht
  | rxByte b => cases hx; exact rxByte_rxtaint_of_tainted b ht
  | writeMsg m => cases hx; exact (writeMsg_keepsReceiveSide m s).rxtaint.trans ht
  | readMsg => cases hx; exact (readMsg_rxtaint s).trans ht
  | txDone | msgAvail => cases hx; exact ht
  | _ => cases hi

/-- Settles O36: the fire keeps `INQ` and leaves no taint, in `TRANSMITTING` it is a collision, and no other stimulus clears the
taint. -/
theorem taintedFrameIsNeverDelivered : Obligations.TaintedFrameIsNeverDelivered := by
  intro s ht
  refine ⟨?dropped, fun hs => ?transmitting, fun i t hi hr hn he hx => exec_rxtaint_of_tainted ht hi hr hn he hx⟩
  case dropped =>
    obtain ⟨hinq, hcnt, htaint⟩ := onEomFire_keepsReceiveSide_of_tainted ht
    exact ⟨onEomFire s, exec_onEomFire s, hinq, htaint, hcnt⟩
  case transmitting =>
    refine ⟨clearAssembly s, ?_, rfl⟩
    rw [exec_onEomFire, onEomFire_of_tainted_transmitting ht hs, execAll_cons (exec_collision _),
      execAll_cons (exec_tryStart _), execAll_nil]

end Sys2Proof.Machine

end

/-! # The transmit side: the backoff (R176), the retry (R177), the validation (R178), the end of a session (R179, R180) -/

section

namespace Sys2Proof

/-- `COLLISION_TICKS` with the constants of R5 put in (R7, R176). -/
theorem Config.collisionTicks_eq (c : Config) (p : Nat) : c.collisionTicks p = (11 + 2 * p) * c.ticksPerBit := rfl

theorem Config.collisionTicks_strictMono (c : Config) : StrictMono c.collisionTicks := fun p p' h => by
  rw [Config.collisionTicks_eq, Config.collisionTicks_eq]
  exact Nat.mul_lt_mul_of_pos_right (by omega) c.ticksPerBit_pos

end Sys2Proof

namespace Sys2Proof.Machine

@[simp] theorem exec_onColFire (s : State) : exec .onColFire s = .next (onColFire s) := rfl
@[simp] theorem exec_validateEcho (n : Nat) (taint : Bool) (frame : ByteSeq) (s : State) :
    exec (.validateEcho n taint frame) s = .next (validateEcho n taint frame s) := rfl
@[simp] theorem exec_txComplete (s : State) : exec .txComplete s = .next (txComplete s) := rfl
@[simp] theorem exec_giveUp (s : State) : exec .giveUp s = .next (giveUp s) := rfl

/-! ## The validation of the echoed frame (R178) -/

/-- Settles O47, by whether the frame is the Message; `INQ` and the outputs are kept by every collision. -/
theorem validateEchoComparesLengthAndBytes : Obligations.ValidateEchoComparesLengthAndBytes := by
  intro n taint frame s
  refine ⟨fun htaint hlen hframe => ?equal, fun hne => ?different⟩
  case equal =>
    subst htaint hlen
    exact ⟨_, exec_validateEcho .., by rw [validateEcho_match hframe]⟩
  case different =>
    exact ⟨collision s, by rw [exec_validateEcho, validateEcho_mismatch hne], exec_collision s,
      (collision_keepsReceiveSide s).inq, collision_out s⟩

/-! ## The backoff a collision starts (R174, R176) -/

theorem giveUp_st_ne_collisionWait (s : State) : (giveUp s).st ≠ .collisionWait := by
  rw [giveUp_eq]; cases s.eomt.run <;> simp

/-- A collision that leads to `COLLISION_WAIT` has started the backoff timer with the period its priority gives, whatever the
count of retries. -/
theorem collision_colt_of_wait {s : State} (h : (collision s).st = .collisionWait) :
    (collision s).colt =
      { period := s.cfg.collisionTicks (priorityOf s.cfg.prioMode (s.memRead .txmsg 0)), cnt := 0, run := true } := by
  by_cases hg : s.givesUp
  · rw [collision_of_limit hg] at h
    exact absurd h (giveUp_st_ne_collisionWait s)
  · rw [collision, if_neg (show ¬ (s.cfg.retryLimit ≠ 0 ∧ s.retrycnt ≥ s.cfg.retryLimit) from hg)]; rfl

/-- Settles O45: the formula of R176, and the one period that every collision leading to `COLLISION_WAIT` configures. -/
theorem backoffIsLinearInPriority : Obligations.BackoffIsLinearInPriority := by
  refine ⟨Config.collisionTicks_eq, fun c p p' hp => c.collisionTicks_strictMono hp,
    fun c p h1 h8 => c.collisionTicks_range h1 h8, fun s t hx hs hm => ?fixed, fun s t n t' hx hs hx' hs' => ?retries⟩
  case fixed =>
    cases hx
    rw [collision_colt_of_wait hs, hm, priorityOf_fixed, Config.collisionTicks_eq]
  case retries =>
    cases hx; cases hx'
    rw [collision_colt_of_wait hs, collision_colt_of_wait hs']; rfl

/-! ## The retry (R177) -/

/-- Settles O46: V7 puts the cursor at byte 0, and the resend starts at the cursor. -/
theorem colFireResends : Obligations.ColFireResends := by
  refine ⟨fun s b hv7 hs hb => ?byteZero, fun s b hs hb => ?cursor, fun s hs => ?other⟩
  case byteZero =>
    obtain ⟨hcur, -⟩ := hv7 hs
    rw [exec_onColFire, onColFire_of_wait hs (by rwa [hcur]), hcur]
  case cursor => rw [exec_onColFire, onColFire_of_wait hs hb]
  case other => rw [exec_onColFire, onColFire_of_not hs]

/-! ## The end of a session (R179, R180) -/

/-- The session fields after `tx_complete`; nothing else changes. -/
theorem txComplete_eq (s : State) :
    txComplete s = { s with txvalid := false, retrycnt := 0, txmsg := [], txcur := 0, txlast := 0 } := rfl

/-- Settles O48, from what the two procedures leave, in full. -/
theorem sessionEnds : Obligations.SessionEnds := fun s =>
  ⟨⟨_, exec_txComplete s, by rw [txComplete_eq]⟩, ⟨_, exec_giveUp s, by rw [giveUp_eq]⟩⟩

end Sys2Proof.Machine

end

/-! # The host boundary: `MSG_AVAIL` (R197), and `RESET` (R198) -/

section

namespace Sys2Proof.Machine

@[simp] theorem exec_tick (s : State) : exec .tick s = .next (tick s) := rfl
@[simp] theorem exec_txDone (s : State) : exec .txDone s = .next s := rfl
@[simp] theorem exec_readMsg (s : State) : exec .readMsg s = .next (readMsg s) := rfl
@[simp] theorem exec_msgAvail (s : State) : exec .msgAvail s = .next (msgAvail s) := rfl

/-! ## What the bus operations do to `INQ` (R115, R156, R157) -/

/-- `t` holds the `INQ` of `s`, at most one Message pushed on it. -/
def InqKeptOrPushed (s t : State) : Prop := t.inq = s.inq ∨ ∃ m, t.inq = s.inq.push s.cfg.nIn m

/-- A queue that was kept or pushed on has not become empty: even a push that evicts leaves the pushed Message. -/
theorem InqKeptOrPushed.inq_ne_nil {s t : State} (h : InqKeptOrPushed s t) (hs : s.inq.content ≠ []) :
    t.inq.content ≠ [] := by
  obtain h | ⟨m, h⟩ := h
  · rwa [h]
  · rw [h]; exact Queue.push_ne_nil s.cfg.nIn s.inq m

theorem InqKeptOrPushed.trans_keeps {s t u : State} (h : InqKeptOrPushed s t) (h' : KeepsReceiveSide t u) :
    InqKeptOrPushed s u := by
  unfold InqKeptOrPushed
  rwa [h'.inq]

theorem deliver_inqKeptOrPushed (n : Nat) (taint : Bool) (frame : ByteSeq) (s : State) :
    InqKeptOrPushed s (deliver n taint frame s) := by
  unfold deliver; split
  · exact .inr ⟨frame, rfl⟩
  · exact .inl rfl

theorem validateEcho_inqKeptOrPushed (n : Nat) (taint : Bool) (frame : ByteSeq) (s : State) :
    InqKeptOrPushed s (validateEcho n taint frame s) := by
  unfold validateEcho; split
  · exact .inr ⟨frame, rfl⟩
  · exact .inl (collision_keepsReceiveSide s).inq

/-- The inter-byte fire delivers the frame, validates the echo or leaves `INQ`; what it then starts is on the transmit side. -/
theorem onEomFire_inqKeptOrPushed (s : State) : InqKeptOrPushed s (onEomFire s) := by
  refine .trans_keeps ?_ (tryStart_keepsReceiveSide _)
  cases s.st with
  | idle => exact .inl rfl
  | receiving | collisionWait => exact deliver_inqKeptOrPushed _ _ _ (clearAssembly s)
  | transmitting => exact validateEcho_inqKeptOrPushed _ _ _ (clearAssembly s)

/-- A tick, by which of its two fires run, `on_eom_fire` first (R115). -/
theorem tick_inqKeptOrPushed (s : State) : InqKeptOrPushed s (tick s) := by
  have heom (fires : Bool) (a : State) : InqKeptOrPushed a (if fires then onEomFire a else a) := by
    cases fires
    · exact .inl rfl
    · exact onEomFire_inqKeptOrPushed a
  have hs := heom s.eomt.expires { s with eomt := s.eomt.ticked, colt := s.colt.ticked }
  rw [tick_eq]
  dsimp only
  split
  · exact hs.trans_keeps (onColFire_keepsReceiveSide _)
  · exact hs

theorem tickN_inq_ne_nil (n : Nat) {s : State} (h : s.inq.content ≠ []) : (tickN n s).inq.content ≠ [] := by
  induction n generalizing s with
  | zero => exact h
  | succ n ih => exact ih ((tick_inqKeptOrPushed s).inq_ne_nil h)

@[simp] theorem rxStore_inq (b : Byte) (s : State) : (rxStore b s).inq = s.inq := by rw [rxStore_frame]

theorem echoCompare_inq (b : Byte) (s : State) : (echoCompare b s).inq = s.inq := by
  obtain h | h | h := echoCompare_cases b s <;> rw [h]
  · exact (sendNext_keepsReceiveSide s).inq
  · exact (collision_keepsReceiveSide _).inq

/-- A received byte leaves `INQ` in every state; only a fire delivers. -/
theorem rxByte_inq (b : Byte) (s : State) : (rxByte b s).inq = s.inq := by
  cases hs : s.st with
  | idle => rw [rxByte_of_idle b hs, rxStore_inq]
  | receiving => rw [rxByte_of_receiving b hs, rxStore_inq]
  | transmitting => rw [rxByte_of_transmitting b hs, echoCompare_inq, rxStore_inq]
  | collisionWait => rw [rxByte_of_wait b hs, rxStore_inq]

/-! ## `MSG_AVAIL` (R197) -/

theorem msgAvail_of_nil {s : State} (h : s.inq.content = []) :
    msgAvail s = { s with out := s.out ++ [.rspAvail 0x00#8] } := by
  rw [msgAvail, if_pos ((Queue.isEmpty_iff _).mpr h)]; rfl

theorem msgAvail_of_ne_nil {s : State} (h : s.inq.content ≠ []) :
    msgAvail s = { s with out := s.out ++ [.rspAvail 0x01#8] } := by
  rw [msgAvail, if_neg (mt (Queue.isEmpty_iff _).mp h)]; rfl

/-- Settles O53: no bus operation empties `INQ`, and the answer follows its content, which `READ_MSG` then finds as it was. -/
theorem msgAvailAnswersWithoutChange : Obligations.MsgAvailAnswersWithoutChange := by
  intro s
  refine ⟨fun r => rfl, rfl, rfl, fun i t hi hne hx => ?bus, ?answer, fun hne => ?read⟩
  case bus =>
    obtain ⟨b, rfl⟩ | rfl | rfl | ⟨n, rfl⟩ := hi <;> cases hx
    · rwa [rxByte_inq]
    · exact hne
    · exact (tick_inqKeptOrPushed s).inq_ne_nil hne
    · exact tickN_inq_ne_nil _ hne
  case answer =>
    by_cases h : s.inq.content = []
    · rw [exec_msgAvail, msgAvail_of_nil h, if_pos h]
    · rw [exec_msgAvail, msgAvail_of_ne_nil h, if_neg h]
  case read =>
    obtain ⟨m, r, hc⟩ := List.exists_cons_of_ne_nil hne
    have hafter : (msgAvail s).inq.content = m :: r := hc
    rw [execAll_cons (exec_msgAvail s), execAll_cons (exec_readMsg _), execAll_nil]
    refine ⟨m, _, rfl, by rw [hc, List.head?_cons], ?_⟩
    rw [readMsg_of_cons hafter, msgAvail_of_ne_nil hne]
    simp

/-! ## `RESET` (R198, R40) -/

/-- Of the stimuli of one instant `RESET` comes first (R238). -/
theorem Instant.order_of_reset {n : Instant} (h : n.reset = true) : ∃ is, n.order = .reset :: is := by
  simp [Instant.order, h]

/-- The result of `RESET` depends on the parameters and on the model's own three fields only. -/
theorem resetState_congr {s u : State} (hcfg : s.cfg = u.cfg) (hout : s.out = u.out) (hret : s.ret = u.ret)
    (hstim : s.stim = u.stim) : resetState s = resetState u := by
  rw [resetState_eq, resetState_eq, hcfg, hout, hret, hstim]

/-- A reset state is a fixed point: `RESET` keeps everything its result depends on. -/
@[simp] theorem resetState_resetState (s : State) : resetState (resetState s) = resetState s :=
  resetState_congr rfl rfl rfl rfl

/-- A byte that meets an idle engine with an empty assembly begins a foreign frame (R155, R156). -/
theorem rxByte_of_idle_of_empty {s : State} (b : Byte) (hs : s.st = .idle) (hc : s.rxcnt = 0) (hb : s.rxbuf = []) :
    rxByte b s = { s with
      rxbuf := [b], rxcnt := 1, st := .receiving, eomt := { period := s.eomt.period, cnt := 0, run := true } } := by
  rw [rxByte_of_idle b hs, rxStore_eq b (by simp [hc, hb]) (by simp [hc])]
  simp [hc, hb]

/-- Settles O54, from the whole state that `RESET` leaves. -/
theorem resetInitialisesEveryField : Obligations.ResetInitialisesEveryField := by
  refine ⟨fun r => rfl, fun n hn => Instant.order_of_reset hn,
    fun s => ⟨resetState s, exec_reset s, ?fields, ?idempotent, fun b => ?foreign⟩, fun s u hcfg => ?anyState⟩
  case fields => rw [resetState_eq]; rfl
  case idempotent => rw [exec_reset, resetState_resetState]
  case foreign =>
    refine ⟨_, exec_rxByte b _, ?_⟩
    rw [rxByte_of_idle_of_empty b rfl rfl rfl]
    exact ⟨rfl, rfl, rfl⟩
  case anyState =>
    rw [exec_reset, exec_reset]
    exact congrArg _ (resetState_congr hcfg rfl rfl rfl)

end Sys2Proof.Machine

end

/-! # The HostBridge's ASCII-hex framing (R211) -/

section

namespace Sys2Proof.Machine

@[simp] theorem exec_writeMsg (m : ByteSeq) (s : State) : exec (.writeMsg m) s = .next (writeMsg m s) := rfl
@[simp] theorem exec_hexDecode (w : List Char) (s : State) :
    exec (.hexDecode w) s = .next { s with ret := .bytes (hexDecode w) } := rfl

/-! ## Hex digits -/

/-- The upper-case hex digits, each at the index of its value (R210). -/
def upperHexDigits : List Char := ['0', '1', '2', '3', '4', '5', '6', '7', '8', '9', 'A', 'B', 'C', 'D', 'E', 'F']

/-- The lower-case hex digits, each at the index of its value (R211). -/
def lowerHexDigits : List Char := ['0', '1', '2', '3', '4', '5', '6', '7', '8', '9', 'a', 'b', 'c', 'd', 'e', 'f']

/-- The characters R211 allows between `$` and `*`. -/
def hexDigits : List Char := upperHexDigits ++ ['a', 'b', 'c', 'd', 'e', 'f']

/-- `val(c)` is the index of `c` among the digits of one case, by the three ranges of character codes. -/
theorem getElem?_of_hexVal_eq_some {c : Char} {v : Nat} (h : hexVal c = some v) :
    upperHexDigits[v]? = some c ∨ lowerHexDigits[v]? = some c := by
  have hdecimal : ∀ n < 10, upperHexDigits[n]? = some (Char.ofNat (0x30 + n)) := by decide
  have hupper : ∀ n < 6, upperHexDigits[n + 10]? = some (Char.ofNat (0x41 + n)) := by decide
  have hlower : ∀ n < 6, lowerHexDigits[n + 10]? = some (Char.ofNat (0x61 + n)) := by decide
  have hchar {base : Nat} (hb : base ≤ c.toNat) : Char.ofNat (base + (c.toNat - base)) = c := by
    rw [Nat.add_sub_cancel' hb, Char.ofNat_toNat]
  unfold hexVal at h
  split_ifs at h with hd hu hl <;> obtain rfl := Option.some.inj h
  · exact .inl (by rw [hdecimal _ (by omega), hchar hd.1])
  · exact .inl (by rw [hupper _ (by omega), hchar hu.1])
  · exact .inr (by rw [hlower _ (by omega), hchar hl.1])

theorem hexVal_eq_none_iff (c : Char) : hexVal c = none ↔ c ∉ hexDigits := by
  constructor
  · have hdigits : ∀ d ∈ hexDigits, (hexVal d).isSome := by simp [hexDigits, upperHexDigits, hexVal]
    exact fun h hc => Option.isSome_iff_ne_none.mp (hdigits c hc) h
  · intro hc
    have hupper : upperHexDigits ⊆ hexDigits := List.subset_append_left _ _
    have hlower : lowerHexDigits ⊆ hexDigits := by decide
    refine Option.eq_none_iff_forall_ne_some.mpr fun v h => hc ?_
    obtain h | h := getElem?_of_hexVal_eq_some h
    · exact hupper (List.mem_of_getElem? h)
    · exact hlower (List.mem_of_getElem? h)

theorem hexVal_lt {c : Char} {v : Nat} (h : hexVal c = some v) : v < 16 := by
  obtain h | h := getElem?_of_hexVal_eq_some h
  all_goals exact (List.getElem?_eq_some_iff.mp h).1

/-! ## The interior of a frame -/

/-- One pair of digits is one byte, and the rest of the interior is read the same way. -/
theorem hexBody_cons_cons_eq_some_iff {x y : Char} {l : List Char} {m : ByteSeq} :
    hexBody (x :: y :: l) = some m ↔ ∃ hi lo r, hexVal x = some hi ∧ hexVal y = some lo ∧ hexBody l = some r ∧
      BitVec.ofNat 8 (16 * hi + lo) :: r = m := by
  rw [hexBody]
  cases hexVal x <;> cases hexVal y <;> cases hexBody l <;> simp

theorem hexBody_cons_cons_eq_none_iff {x y : Char} {l : List Char} :
    hexBody (x :: y :: l) = none ↔ hexVal x = none ∨ hexVal y = none ∨ hexBody l = none := by
  rw [hexBody]
  cases hexVal x <;> cases hexVal y <;> cases hexBody l <;> simp

/-- The interior is rejected for its odd length or for a character without a value, and for nothing else. -/
theorem hexBody_eq_none_iff (l : List Char) :
    hexBody l = none ↔ l.length % 2 ≠ 0 ∨ ∃ c ∈ l, hexVal c = none := by
  induction l using List.twoStepInduction with
  | nil => simp [hexBody]
  | singleton x => simp [hexBody]
  | cons_cons x y l ih =>
    have hparity : (x :: y :: l).length % 2 = l.length % 2 := Nat.add_mod_right l.length 2
    rw [hexBody_cons_cons_eq_none_iff, ih, hparity]
    simp only [List.exists_mem_cons_iff]
    tauto

theorem length_of_hexBody_eq_some {l : List Char} {m : ByteSeq} (h : hexBody l = some m) :
    2 * m.length = l.length := by
  induction l using List.twoStepInduction generalizing m with
  | nil => cases h; rfl
  | singleton x => cases h
  | cons_cons x y l ih =>
    obtain ⟨hi, lo, r, -, -, hr, rfl⟩ := hexBody_cons_cons_eq_some_iff.mp h
    simp only [List.length_cons, ← ih hr]
    omega

/-- Byte `j` stands in the digits `2j` and `2j + 1`; it does not wrap, because each digit is below 16. -/
theorem getElem?_of_hexBody_eq_some {l : List Char} {m : ByteSeq} (h : hexBody l = some m) {j : Nat} {b : Byte}
    (hb : m[j]? = some b) : ∃ (x y : Char) (hi lo : Nat), l[2 * j]? = some x ∧ l[2 * j + 1]? = some y ∧
      b.toNat = 16 * hi + lo ∧ hexVal x = some hi ∧ hexVal y = some lo := by
  induction l using List.twoStepInduction generalizing m j with
  | nil => cases h; cases hb
  | singleton x => cases h
  | cons_cons x y l ih =>
    obtain ⟨hi, lo, r, hx, hy, hr, rfl⟩ := hexBody_cons_cons_eq_some_iff.mp h
    cases j with
    | zero =>
      obtain rfl := Option.some.inj hb
      have hhi := hexVal_lt hx
      have hlo := hexVal_lt hy
      exact ⟨x, y, hi, lo, rfl, rfl, Nat.mod_eq_of_lt (by omega), hx, hy⟩
    | succ j => exact ih hr hb

/-! ## The whole frame -/

theorem hexDecode_eq_none_iff (w : List Char) :
    hexDecode w = none ↔ w.length < 2 ∨ w.head? ≠ some '$' ∨ w.getLast? ≠ some '*' ∨
      (w.drop 1).dropLast.length % 2 ≠ 0 ∨ ∃ c ∈ (w.drop 1).dropLast, c ∉ hexDigits := by
  simp only [← hexVal_eq_none_iff]
  rw [← hexBody_eq_none_iff, hexDecode]
  by_cases hframe : w.length < 2 ∨ w.head? ≠ some '$' ∨ w.getLast? ≠ some '*'
  · rw [if_pos hframe]; tauto
  · rw [if_neg hframe]; tauto

theorem hexBody_of_hexDecode_eq_some {w : List Char} {m : ByteSeq} (h : hexDecode w = some m) :
    hexBody (w.drop 1).dropLast = some m := by
  rw [hexDecode] at h
  split_ifs at h
  exact h

/-- Settles O58, by the digits' values, then the pairs of the interior, then the delimiters. -/
theorem hexDecodeAcceptsExactlyFrames : Obligations.HexDecodeAcceptsExactlyFrames := by
  intro w s
  refine ⟨hexDecode w, exec_hexDecode w s, hexDecode_eq_none_iff w, fun m hm => ?bytes, ?empty⟩
  case bytes =>
    have hbody := hexBody_of_hexDecode_eq_some hm
    refine ⟨length_of_hexBody_eq_some hbody, fun j b hb => ?_⟩
    obtain ⟨x, y, hi, lo, hx, hy, hval, hhi, hlo⟩ := getElem?_of_hexBody_eq_some hbody hb
    exact ⟨x, y, hi, lo, hx, hy, hval, getElem?_of_hexVal_eq_some hhi, getElem?_of_hexVal_eq_some hlo⟩
  case empty =>
    rintro rfl
    exact ⟨rfl, by rw [exec_writeMsg, writeMsg_of_invalid (by decide)]⟩

end Sys2Proof.Machine

end

/-! # Encoding: the round trip between records and bytes (R83 to R88), and the step that runs what it decodes (R10) -/

section

namespace Sys2Proof

/-! ## Records have an encoding -/

theorem encode_of_record {i : Instr} (hr : i.isRecord) (hw : i.wf) : ∃ e, encode i = some e := by
  cases i with
  | writeMsg m | rspMsg m | rspAvail v => exact ⟨_, if_pos hw⟩
  | reset | tick | ticks | rxByte | txDone | readMsg | msgAvail | send => exact ⟨_, rfl⟩
  | _ => obtain h | h := hr <;> cases h

theorem isRecord_and_wf_of_encode {i : Instr} {e : List Byte} (h : encode i = some e) : i.isRecord ∧ i.wf := by
  cases i with
  | writeMsg m => exact ⟨.inl rfl, (Option.ite_none_right_eq_some.mp h).1⟩
  | rspMsg m | rspAvail v => exact ⟨.inr rfl, (Option.ite_none_right_eq_some.mp h).1⟩
  | reset | tick | ticks | rxByte | txDone | readMsg | msgAvail => exact ⟨.inl rfl, trivial⟩
  | send => exact ⟨.inr rfl, trivial⟩
  | _ => cases h

/-! ## Decoding what was encoded -/

/-- The record of an operation, whatever follows it, decodes to the operation. Only the formats with a sequence need an
argument: their length byte is exact up to 255. -/
theorem decode_encode_append {i : Instr} {e : List Byte} (h : encode i = some e) (rest : List Byte) :
    decode (e ++ rest) = .ok i rest := by
  cases i with
  | writeMsg m =>
    obtain ⟨hm, he⟩ := Option.ite_none_right_eq_some.mp h
    cases he
    exact decode_writeMsg (takeSeq_append rest hm)
  | rspMsg m =>
    obtain ⟨hm, he⟩ := Option.ite_none_right_eq_some.mp h
    cases he
    have hle : m.length ≤ 255 := by
      obtain h0 | ⟨-, h21⟩ := hm
      · omega
      · exact le_trans h21 (by decide)
    exact decode_rspMsg (takeSeq_append rest hle) hm
  | rspAvail v =>
    obtain ⟨hv, he⟩ := Option.ite_none_right_eq_some.mp h
    cases he
    exact decode_rspAvail rest hv
  | ticks n =>
    cases h
    exact (decode_ticks _ _ rest).trans (by rw [le16_lo8_hi8])
  | reset | tick | rxByte | txDone | readMsg | msgAvail | send => cases h; rfl
  | _ => cases h

/-- No stimulus has an output opcode, so the stimulus decoder reads it as the record decoder does (R87). -/
theorem decodeStimulus_encode_append {i : Instr} {e : List Byte} (hi : i.isStimulus) (h : encode i = some e)
    (rest : List Byte) : decodeStimulus (e ++ rest) = decode (e ++ rest) := by
  cases i with
  | writeMsg m =>
    obtain ⟨-, he⟩ := Option.ite_none_right_eq_some.mp h
    cases he
    exact decodeStimulus_cons _ (by decide)
  | reset | tick | ticks | rxByte | txDone | readMsg | msgAvail => cases h; exact decodeStimulus_cons _ (by decide)
  | _ => cases hi

/-- Settles O1: a well-formed record has an encoding, and both decoders undo it. -/
theorem decodeOfEncode : Obligations.DecodeOfEncode := by
  intro i hr hw
  obtain ⟨e, he⟩ := encode_of_record hr hw
  refine ⟨e, he, fun rest => ⟨decode_encode_append he rest, fun hi => ?_⟩⟩
  rw [decodeStimulus_encode_append hi he, decode_encode_append he]

/-! ## Encoding what was decoded -/

/-- The opcode bytes that R84 and R85 list. -/
def recordOpcodes : List Byte :=
  [0x01#8, 0x10#8, 0x11#8, 0x20#8, 0x21#8, 0x30#8, 0x31#8, 0x32#8, 0x80#8, 0x90#8, 0x91#8]

/-- What the record decoder accepts begins with a listed opcode. -/
theorem mem_recordOpcodes_of_decode {op : Byte} {t rest : List Byte} {i : Instr} (h : decode (op :: t) = .ok i rest) :
    op ∈ recordOpcodes := by
  by_contra hop
  simp only [recordOpcodes, List.mem_cons, List.not_mem_nil, not_or, or_false] at hop
  simp [decode, hop] at h

/-- A sequence operand that follows an opcode is the sequence's own length byte and bytes, and the rest. -/
theorem cons_eq_append_of_takeSeq (op : Byte) {t r : List Byte} {m : ByteSeq} (h : takeSeq t = some (m, r)) :
    op :: t = (op :: BitVec.ofNat 8 m.length :: m) ++ r := by
  obtain ⟨-, rfl⟩ := eq_append_of_takeSeq h
  rfl

theorem encode_of_decode_writeMsg {t rest : List Byte} {i : Instr} (h : decode (0x30#8 :: t) = .ok i rest) :
    ∃ e, encode i = some e ∧ 0x30#8 :: t = e ++ rest := by
  cases hseq : takeSeq t with
  | none => rw [decode_writeMsg_truncated hseq] at h; cases h
  | some p =>
    rw [decode_writeMsg hseq] at h
    cases h
    exact ⟨_, if_pos (eq_append_of_takeSeq hseq).1, cons_eq_append_of_takeSeq _ hseq⟩

theorem encode_of_decode_rspMsg {t rest : List Byte} {i : Instr} (h : decode (0x90#8 :: t) = .ok i rest) :
    ∃ e, encode i = some e ∧ 0x90#8 :: t = e ++ rest := by
  cases hseq : takeSeq t with
  | none => simp [decode, hseq] at h
  | some p =>
    by_cases hw : (Instr.rspMsg p.1).wf
    · rw [decode_rspMsg hseq hw] at h
      cases h
      exact ⟨_, if_pos hw, cons_eq_append_of_takeSeq _ hseq⟩
    · have hw' : ¬ (p.1.length = 0 ∨ validLength p.1.length) := hw
      simp [decode, hseq, hw'] at h

theorem encode_of_decode_rspAvail {t rest : List Byte} {i : Instr} (h : decode (0x91#8 :: t) = .ok i rest) :
    ∃ e, encode i = some e ∧ 0x91#8 :: t = e ++ rest := by
  match t with
  | [] => cases h
  | v :: r =>
    by_cases hw : (Instr.rspAvail v).wf
    · rw [decode_rspAvail r hw] at h
      cases h
      exact ⟨_, if_pos hw, rfl⟩
    · have hw' : ¬ v.toNat ≤ 1 := hw
      simp [decode, hw'] at h

/-- Whatever the record decoder accepts, it took exactly the encoding of its answer: by the opcode byte that it read, in the order of
`recordOpcodes`, then by what the operand's format asks for. -/
theorem encode_of_decode {bs rest : List Byte} {i : Instr} (h : decode bs = .ok i rest) :
    ∃ e, encode i = some e ∧ bs = e ++ rest := by
  match bs with
  | [] => cases h
  | op :: t =>
    have hop := mem_recordOpcodes_of_decode h
    simp only [recordOpcodes, List.mem_cons, List.not_mem_nil, or_false] at hop
    obtain rfl | rfl | rfl | rfl | rfl | rfl | rfl | rfl | rfl | rfl | rfl := hop
    · cases h; exact ⟨_, rfl, rfl⟩
    · cases h; exact ⟨_, rfl, rfl⟩
    · match t with
      | [] | [_] => cases h
      | lo :: hi :: r => cases h; exact ⟨_, rfl, by rw [lo8_le16, hi8_le16]; rfl⟩
    · match t with
      | [] => cases h
      | b :: r => cases h; exact ⟨_, rfl, rfl⟩
    · cases h; exact ⟨_, rfl, rfl⟩
    · exact encode_of_decode_writeMsg h
    · cases h; exact ⟨_, rfl, rfl⟩
    · cases h; exact ⟨_, rfl, rfl⟩
    · match t with
      | [] => cases h
      | b :: r => cases h; exact ⟨_, rfl, rfl⟩
    · exact encode_of_decode_rspMsg h
    · exact encode_of_decode_rspAvail h

/-- Settles O2: the bytes taken are the answer's encoding, and only well-formed records have one. -/
theorem encodeOfDecode : Obligations.EncodeOfDecode := by
  intro bs rest i h
  obtain ⟨e, he, hbs⟩ := encode_of_decode h
  obtain ⟨hr, hw⟩ := isRecord_and_wf_of_encode he
  exact ⟨hr, hw, e, he, hbs⟩

/-- Settles O4, by evaluating the decoder on each word. -/
theorem writtenWordsDecode : Obligations.WrittenWordsDecode :=
  ⟨rfl, rfl, rfl, rfl, rfl, rfl, rfl, rfl, rfl, rfl, rfl, rfl, rfl, rfl, rfl, rfl, rfl, rfl, rfl⟩

end Sys2Proof

namespace Sys2Proof.Machine

/-! ## The step on a well-formed stream -/

theorem step_of_empty {s : State} (h : s.stim = []) : step s = .next s := if_pos h

/-- A step runs the stimulus that the decoder reads at the head of the stream, the stream moved past it. -/
theorem step_of_decodeStimulus {s : State} {i : Instr} {rest : List Byte} (h : decodeStimulus s.stim = .ok i rest) :
    step s = exec i { s with stim := rest } := by
  have h0 : s.stim ≠ [] := fun h0 => by rw [h0] at h; cases h
  simp only [step, applyNext, fetch, h, h0, if_false]

/-- Settles O6, by the two cases of a step. -/
theorem stepRunsDecodedStimulus : Obligations.StepRunsDecodedStimulus :=
  ⟨fun _ _ _ h => step_of_decodeStimulus h, fun _ h => step_of_empty h⟩

/-- The record cut out at the head of a byte list is the encoding of the operation that stands there. -/
theorem encode_recordAtHead {bs rest : List Byte} {i : Instr} (h : decode bs = .ok i rest) :
    encode i = some (recordAtHead bs) := by
  obtain ⟨e, he, rfl⟩ := encode_of_decode h
  have htake : (e ++ rest).take ((e ++ rest).length - rest.length) = e := by
    rw [List.length_append, Nat.add_sub_cancel, List.take_left]
  simp only [recordAtHead, h, htake, he]

theorem decode_of_decodeTableWord {nbits w : Nat} {i : Instr} (h : decodeTableWord nbits w = some i) :
    ∃ rest, decode (tableBytes nbits w) = .ok i rest := by
  unfold decodeTableWord at h
  split at h
  · rename_i rest hd
    cases h
    exact ⟨rest, hd⟩
  · cases h

/-- Settles O7: what is offered is the encoding of the word's operation, and decoding it leaves the bytes that waited before. -/
theorem offeredWordRunsNext : Obligations.OfferedWordRunsNext := by
  intro s nbits w i hw hi
  obtain ⟨rest, hd⟩ := decode_of_decodeTableWord hw
  have he := encode_recordAtHead hd
  have hstim : decodeStimulus (s.withFetchWord nbits w).stim = .ok i s.stim :=
    (decodeStimulus_encode_append hi he s.stim).trans (decode_encode_append he s.stim)
  rw [step_of_decodeStimulus hstim]
  rfl

end Sys2Proof.Machine

end

/-! # The invariant (R39): its parts, what each stimulus does in a state that meets it, and that every step keeps it -/

section

namespace Sys2Proof.Machine

/-! ## The parts of the invariant

Each part speaks of the fields it names only, so that it holds as it stands of a state in which other fields changed. -/

/-- A timer whose count is below its period and 0 while it is stopped, the period within `limit` (V8, R28). -/
structure Timer.Wf (limit : Nat) (t : Timer) : Prop where
  cnt_lt : t.cnt < t.period
  stopped : t.run = false → t.cnt = 0
  period_le : t.period ≤ limit

/-- A queue of capacity `n` with its indices in range (V9, R30). -/
abbrev Queue.Wf (n : Nat) (q : Queue) : Prop := q.V9 n ∧ q.oldest < n ∧ q.newest < n

/-- The assembly and the inter-byte timer (V1, V8, V10, R22). -/
structure AssemblyInv (c : Config) (buf : ByteSeq) (cnt : Nat) (taint : Bool) (t : Timer) : Prop where
  cnt_le : cnt ≤ 22
  buffer : buf.length = min cnt 21
  stopped_iff : t.run = false ↔ cnt = 0
  clean : cnt = 0 → taint = false
  timer : t.Wf c.maxTicks
  period : t.period = c.eomTicks

/-- The backoff timer, for a Message `msg` (V3, V7, V8). -/
structure BackoffInv (c : Config) (st : EngineState) (msg : ByteSeq) (t : Timer) : Prop where
  timer : t.Wf c.maxTicks
  running_iff : t.run = true ↔ st = .collisionWait
  period : st = .collisionWait → ∀ mid, msg[0]? = some mid → t.period = c.collisionTicks (priorityOf c.prioMode mid)

/-- The session (V2, V6, V7, V11, R24, R25). -/
structure SessionInv (c : Config) (st : EngineState) (valid : Bool) (msg : ByteSeq) (cur last retries : Nat) : Prop where
  retries : (c.retryLimit = 0 → retries = 0) ∧ (c.retryLimit ≠ 0 → retries ≤ c.retryLimit)
  absent : st = .idle ∨ st = .receiving → valid = false ∧ msg = [] ∧ cur = 0 ∧ last = 0
  present : st = .transmitting ∨ st = .collisionWait → valid = true ∧ validLength msg.length
  sending : st = .transmitting → 1 ≤ cur ∧ cur ≤ msg.length ∧ last = cur - 1
  waiting : st = .collisionWait → cur = 0 ∧ last < msg.length

/-- What `ST` says of the assembly (V4, V5). -/
structure PhaseInv (st : EngineState) (cnt : Nat) : Prop where
  idle : st = .idle → cnt = 0
  receiving : st = .receiving → 1 ≤ cnt

/-- The invariant without its one clause that holds only after `try_start`: no Message waits in `OUTQ` in `IDLE` (V4). -/
structure State.CoreInv (s : State) : Prop where
  assembly : AssemblyInv s.cfg s.rxbuf s.rxcnt s.rxtaint s.eomt
  backoff : BackoffInv s.cfg s.st s.txmsg s.colt
  session : SessionInv s.cfg s.st s.txvalid s.txmsg s.txcur s.txlast s.retrycnt
  inq : s.inq.Wf s.cfg.nIn
  outq : s.outq.Wf s.cfg.nOut
  phase : PhaseInv s.st s.rxcnt

/-- A Message has a first byte (R80). -/
theorem exists_first_of_validLength {m : ByteSeq} (h : validLength m.length) : ∃ b, m[0]? = some b := by
  obtain ⟨h2, -⟩ := h
  exact ⟨m[0]'(Nat.lt_of_lt_of_le (by decide) h2), List.getElem?_eq_getElem _⟩

/-- `ST` is one of the two states without a session or one of the two with one. -/
theorem EngineState.absent_or_present (st : EngineState) :
    (st = .idle ∨ st = .receiving) ∨ (st = .transmitting ∨ st = .collisionWait) := by
  cases st <;> simp

theorem State.Inv.core {s : State} (h : s.Inv) : s.CoreInv := by
  obtain ⟨v1, v2, v3, v4, v5, v6, v7, v8, ⟨hin, hout⟩, -, v11, stores, hpe, hpc⟩ := h
  obtain ⟨⟨he1, he2⟩, ⟨hc1, hc2⟩, hep⟩ := v8
  obtain ⟨hcnt, hbuf, hval, hnone, -, hio, hin', hoo, hon⟩ := stores
  have hpresent : s.st = .transmitting ∨ s.st = .collisionWait → s.txvalid = true := v2.mpr
  have habsent : s.st = .idle ∨ s.st = .receiving → s.txvalid = false := by
    rintro (hs | hs)
    · obtain ⟨-, -, -, -, hv, -⟩ := v4 hs; exact hv
    · obtain ⟨-, -, hv⟩ := v5 hs; exact hv
  refine
    { assembly := ⟨hcnt, hbuf, v1.1, fun h0 => v1.2 (v1.1.mpr h0), ⟨he1, he2, hpe⟩, hep⟩
      backoff := ⟨⟨hc1, hc2, hpc⟩, v3, fun hs mid hm => State.memRead_txmsg hm ▸ (v7 hs).2⟩
      session := ⟨v11, fun hs => ⟨habsent hs, hnone (habsent hs)⟩, fun hs => ⟨hpresent hs, (hval (hpresent hs)).1⟩,
        fun hs => ?sending, fun hs => ⟨(v7 hs).1, (hval (hpresent (.inr hs))).2⟩⟩
      inq := ⟨hin, hio, hin'⟩
      outq := ⟨hout, hoo, hon⟩
      phase := ⟨fun hs => (v4 hs).1, fun hs => ?receiving⟩ }
  case sending =>
    obtain ⟨h1, h2, h3, -, -⟩ := v6 hs
    exact ⟨h1, h2, h3⟩
  case receiving =>
    obtain ⟨-, h1, -⟩ := v5 hs
    exact h1

theorem State.Inv.outq_of_idle {s : State} (h : s.Inv) (hs : s.st = .idle) : s.outq.content = [] := by
  obtain ⟨-, -, -, -, -, h0⟩ := h.v4 hs
  exact List.length_eq_zero_iff.mp h0

/-- A session is there exactly in the two states that have one (V2). -/
theorem SessionInv.valid_iff {c : Config} {st : EngineState} {valid : Bool} {msg : ByteSeq} {cur last retries : Nat}
    (h : SessionInv c st valid msg cur last retries) : valid = true ↔ st = .transmitting ∨ st = .collisionWait := by
  refine ⟨fun hv => ?_, fun hs => (h.present hs).1⟩
  obtain hs | hs := st.absent_or_present
  · rw [(h.absent hs).1] at hv; cases hv
  · exact hs

/-- The session's part of the canonical form (R24, R25). -/
theorem SessionInv.storesWf {c : Config} {st : EngineState} {valid : Bool} {msg : ByteSeq} {cur last retries : Nat}
    (h : SessionInv c st valid msg cur last retries) :
    (valid = true → validLength msg.length ∧ last < msg.length) ∧ (valid = false → msg = [] ∧ cur = 0 ∧ last = 0) ∧
      cur ≤ 21 := by
  obtain hs | hs := st.absent_or_present
  · obtain ⟨hv, hmsg, hcur, hlast⟩ := h.absent hs
    exact ⟨fun hv' => absurd (hv.symm.trans hv') (by decide), fun _ => ⟨hmsg, hcur, hlast⟩, by omega⟩
  · obtain ⟨hv, hlen⟩ := h.present hs
    have hrange : last < msg.length ∧ cur ≤ msg.length := by
      obtain hs | hs := hs
      · obtain ⟨h1, h2, h3⟩ := h.sending hs; omega
      · obtain ⟨h1, h2⟩ := h.waiting hs; omega
    exact ⟨fun _ => ⟨hlen, hrange.1⟩, fun hv' => absurd (hv.symm.trans hv') (by decide), hrange.2.trans hlen.2⟩

theorem State.CoreInv.inv {s : State} (h : s.CoreInv) (hout : s.st = .idle → s.outq.content = []) : s.Inv := by
  obtain ⟨⟨hcnt, hbuf, hrun, hclean, he, hep⟩, ⟨hc, hcrun, hcp⟩, hsess, hin, hoq, hidle, hrecv⟩ := h
  obtain ⟨hin, hio, hin'⟩ := hin
  obtain ⟨hoq, hoo, hon⟩ := hoq
  obtain ⟨hval, hnone, hcur⟩ := hsess.storesWf
  have hcolt : s.st ≠ .collisionWait → s.colt.run = false := fun hs =>
    Bool.eq_false_iff.mpr fun hr => hs (hcrun.mp hr)
  refine
    { v1 := ⟨hrun, fun hr => hclean (hrun.mp hr)⟩
      v2 := hsess.valid_iff
      v3 := hcrun
      v4 := fun hs => ⟨hidle hs, hclean (hidle hs), hrun.mpr (hidle hs), hcolt (by simp [hs]),
        (hsess.absent (.inl hs)).1, congrArg List.length (hout hs)⟩
      v5 := fun hs => ⟨Bool.ne_false_iff.mp fun hr => ?running, hrecv hs, (hsess.absent (.inr hs)).1⟩
      v6 := fun hs => ?sending
      v7 := fun hs => ⟨(hsess.waiting hs).1, ?period⟩
      v8 := ⟨⟨he.cnt_lt, he.stopped⟩, ⟨hc.cnt_lt, hc.stopped⟩, hep⟩
      v9 := ⟨hin, hoq⟩
      v10 := fun ht => Nat.pos_of_ne_zero fun h0 => ?tainted
      v11 := hsess.retries
      stores := ⟨hcnt, hbuf, hval, hnone, hcur, hio, hin', hoo, hon⟩
      periods := ⟨he.period_le, hc.period_le⟩ }
  case running =>
    have h1 := hrecv hs
    have h0 := hrun.mp hr
    omega
  case sending =>
    obtain ⟨h1, h2, h3⟩ := hsess.sending hs
    obtain ⟨-, hlen⟩ := hsess.present (.inl hs)
    exact ⟨h1, h2, h3, hlen⟩
  case period =>
    obtain ⟨-, hlen⟩ := hsess.present (.inr hs)
    obtain ⟨mid, hm⟩ := exists_first_of_validLength hlen
    rw [State.memRead_txmsg hm]
    exact hcp hs mid hm
  case tainted =>
    rw [hclean h0] at ht
    cases ht

/-! ## What keeps each part -/

/-- On a tick that does not expire it a timer goes on running or goes on standing still. -/
theorem Timer.run_ticked {t : Timer} (he : t.expires = false) : t.ticked.run = t.run := by
  obtain ⟨-, ht, -⟩ | ⟨-, -, ht, -⟩ | ⟨hr, -, -, ht⟩ := t.ticked_cases
  · rw [ht]
  · rw [he] at ht; cases ht
  · rw [ht, hr]

theorem Timer.expires_of_ne {t : Timer} (h : t.cnt + 1 ≠ t.period) : t.expires = false := by simp [Timer.expires, h]

theorem Timer.period_ticked (t : Timer) : t.ticked.period = t.period := by
  obtain ⟨-, ht, -⟩ | ⟨-, -, -, ht⟩ | ⟨-, -, -, ht⟩ := t.ticked_cases <;> rw [ht]

theorem Timer.Wf.ticked {limit : Nat} {t : Timer} (h : t.Wf limit) : t.ticked.Wf limit := by
  obtain ⟨hcnt, hstop, hle⟩ := h
  obtain ⟨-, ht, -⟩ | ⟨-, -, -, ht⟩ | ⟨-, hne, -, ht⟩ := t.ticked_cases <;> rw [ht]
  · exact ⟨hcnt, hstop, hle⟩
  · exact ⟨Nat.zero_lt_of_lt hcnt, fun _ => rfl, hle⟩
  · exact ⟨Nat.lt_of_le_of_ne hcnt hne, nofun, hle⟩

/-- A timer put back to count 0, running or not. -/
theorem Timer.Wf.zeroed {limit : Nat} {t : Timer} (h : t.Wf limit) (run : Bool) :
    Timer.Wf limit { period := t.period, cnt := 0, run := run } :=
  ⟨Nat.zero_lt_of_lt h.cnt_lt, fun _ => rfl, h.period_le⟩

section assembly
variable {c : Config} {buf : ByteSeq} {cnt : Nat} {taint : Bool} {t : Timer}

theorem AssemblyInv.stored (h : AssemblyInv c buf cnt taint t) (b : Byte) :
    AssemblyInv c (if cnt < 21 then buf ++ [b] else buf) (min (cnt + 1) 22) taint
      { period := t.period, cnt := 0, run := true } := by
  refine ⟨by omega, ?buffer, ⟨nofun, by omega⟩, by omega, h.timer.zeroed true, h.period⟩
  have hbuf := h.buffer
  split
  · rw [List.length_append, List.length_singleton]; omega
  · omega

theorem AssemblyInv.tainted (h : AssemblyInv c buf cnt taint t) (h1 : 1 ≤ cnt) : AssemblyInv c buf cnt true t :=
  ⟨h.cnt_le, h.buffer, h.stopped_iff, fun h0 => by omega, h.timer, h.period⟩

theorem AssemblyInv.ended (h : AssemblyInv c buf cnt taint t) :
    AssemblyInv c [] 0 false { period := t.period, cnt := 0, run := false } :=
  ⟨by omega, rfl, by simp, fun _ => rfl, h.timer.zeroed false, h.period⟩

theorem AssemblyInv.ticked (h : AssemblyInv c buf cnt taint t) (he : t.expires = false) :
    AssemblyInv c buf cnt taint t.ticked :=
  ⟨h.cnt_le, h.buffer, t.run_ticked he ▸ h.stopped_iff, h.clean, h.timer.ticked, t.period_ticked.trans h.period⟩

/-- While bytes are assembled the inter-byte timer runs (V1). -/
theorem AssemblyInv.running_iff (h : AssemblyInv c buf cnt taint t) : t.run = true ↔ 1 ≤ cnt := by
  rw [← Bool.not_eq_false, h.stopped_iff, Nat.one_le_iff_ne_zero]

end assembly

section backoff
variable {c : Config} {st st' : EngineState} {msg msg' : ByteSeq} {t : Timer}

theorem BackoffInv.ticked (h : BackoffInv c st msg t) (he : t.expires = false) : BackoffInv c st msg t.ticked :=
  ⟨h.timer.ticked, t.run_ticked he ▸ h.running_iff, fun hs mid hm => t.period_ticked.trans (h.period hs mid hm)⟩

theorem BackoffInv.stopped (h : BackoffInv c st msg t) (hs : st ≠ .collisionWait) : t.run = false :=
  Bool.eq_false_iff.mpr fun hr => hs (h.running_iff.mp hr)

/-- Outside `COLLISION_WAIT` the stopped timer is right for any other such state and any Message. -/
theorem BackoffInv.moved (h : BackoffInv c st msg t) (hs : st ≠ .collisionWait) (hs' : st' ≠ .collisionWait) :
    BackoffInv c st' msg' t :=
  ⟨h.timer, by simp [h.stopped hs, hs'], fun hw => absurd hw hs'⟩

theorem BackoffInv.ended (h : BackoffInv c st msg t) (hs' : st' ≠ .collisionWait) :
    BackoffInv c st' msg' { period := t.period, cnt := 0, run := false } :=
  ⟨h.timer.zeroed false, by simp [hs'], fun hw => absurd hw hs'⟩

theorem BackoffInv.armed (c : Config) {mid : Byte} (hm : msg[0]? = some mid) :
    BackoffInv c .collisionWait msg
      { period := c.collisionTicks (priorityOf c.prioMode mid), cnt := 0, run := true } := by
  obtain ⟨h1, h8⟩ := priorityOf_range c.prioMode mid
  obtain ⟨hlt, hle⟩ := c.collisionTicks_range h1 h8
  exact ⟨⟨Nat.zero_lt_of_lt hlt, nofun, hle⟩, by simp, fun _ mid' hm' => by rw [hm] at hm'; cases hm'; rfl⟩

end backoff

section session
variable {c : Config} {st st' : EngineState} {valid : Bool} {msg : ByteSeq} {cur last retries : Nat}

/-- No session, in `IDLE` or `RECEIVING`. -/
theorem SessionInv.none (c : Config) (hs : st = .idle ∨ st = .receiving) : SessionInv c st false [] 0 0 0 := by
  refine ⟨⟨fun _ => rfl, fun _ => Nat.zero_le _⟩, fun _ => ⟨rfl, rfl, rfl, rfl⟩, ?_, ?_, ?_⟩ <;>
    obtain rfl | rfl := hs <;> simp

theorem SessionInv.moved (h : SessionInv c st valid msg cur last retries) (hs : st = .idle ∨ st = .receiving)
    (hs' : st' = .idle ∨ st' = .receiving) : SessionInv c st' valid msg cur last retries := by
  refine ⟨h.retries, fun _ => h.absent hs, ?_, ?_, ?_⟩ <;> obtain rfl | rfl := hs' <;> simp

/-- A session just started: its first byte is sent. -/
theorem SessionInv.started (c : Config) (hm : validLength msg.length) : SessionInv c .transmitting true msg 1 0 0 :=
  ⟨⟨fun _ => rfl, fun _ => Nat.zero_le _⟩, nofun, fun _ => ⟨rfl, hm⟩,
    fun _ => ⟨le_rfl, le_trans (by decide) hm.1, rfl⟩, nofun⟩

theorem SessionInv.sentNext (h : SessionInv c st valid msg cur last retries) (hs : st = .transmitting)
    (hlt : cur < msg.length) : SessionInv c st valid msg (cur + 1) cur retries := by
  subst hs
  exact ⟨h.retries, nofun, h.present, fun _ => ⟨by omega, hlt, rfl⟩, nofun⟩

theorem SessionInv.backedOff (h : SessionInv c st valid msg cur last retries) (hs : st = .transmitting)
    (hg : ¬ (c.retryLimit ≠ 0 ∧ c.retryLimit ≤ retries)) :
    SessionInv c .collisionWait valid msg 0 last (if c.retryLimit = 0 then retries else retries + 1) := by
  obtain ⟨h0, hle⟩ := h.retries
  obtain ⟨h1, h2, h3⟩ := h.sending hs
  refine ⟨⟨fun hl => by rw [if_pos hl, h0 hl], fun hl => by rw [if_neg hl]; omega⟩, nofun,
    fun _ => h.present (.inl hs), nofun, fun _ => ⟨rfl, by omega⟩⟩

/-- A session whose first byte is sent again. -/
theorem SessionInv.resent (h : SessionInv c st valid msg cur last retries) (hs : st = .collisionWait) :
    SessionInv c .transmitting valid msg (cur + 1) cur retries := by
  obtain ⟨hv, hlen⟩ := h.present (.inr hs)
  obtain ⟨rfl, hlast⟩ := h.waiting hs
  exact ⟨h.retries, nofun, fun _ => ⟨hv, hlen⟩, fun _ => ⟨le_rfl, by omega, rfl⟩, nofun⟩

end session

theorem PhaseInv.transmitting (cnt : Nat) : PhaseInv .transmitting cnt := ⟨nofun, nofun⟩
theorem PhaseInv.collisionWait (cnt : Nat) : PhaseInv .collisionWait cnt := ⟨nofun, nofun⟩
theorem PhaseInv.idle_zero : PhaseInv .idle 0 := ⟨fun _ => rfl, nofun⟩
theorem PhaseInv.receiving_pos {cnt : Nat} (h : 1 ≤ cnt) : PhaseInv .receiving cnt := ⟨nofun, fun _ => h⟩

theorem Queue.Wf.pushed {n : Nat} {q : Queue} {m : ByteSeq} (h : q.Wf n) (hm : validLength m.length) :
    (q.push n m).Wf n := by
  obtain ⟨hv, ho, hw⟩ := h
  exact Queue.push_wf hv ho hw hm

theorem Queue.Wf.popped {n : Nat} {q : Queue} {m : ByteSeq} {r : List ByteSeq} (h : q.Wf n) (hc : q.content = m :: r) :
    Queue.Wf n { content := r, oldest := (q.oldest + 1) % n, newest := q.newest } := by
  obtain ⟨hv, ho, hw⟩ := h
  have hp := Queue.pop_wf hv ho hw
  rwa [Queue.pop_of_cons n hc] at hp

theorem Queue.Wf.validLength {n : Nat} {q : Queue} (h : q.Wf n) : ∀ m ∈ q.content, validLength m.length := by
  obtain ⟨⟨-, -, -, hall⟩, -⟩ := h
  exact hall

/-! ## `try_start` gives the missing clause -/

/-- `try_start` leaves no Message waiting in `IDLE` (R170). -/
theorem tryStart_inv {s : State} (h : s.CoreInv) : (tryStart s).Inv := by
  obtain ⟨hnot, he⟩ | ⟨b, m, r, hs, -, hc, hlen, he⟩ := tryStart_cases h.outq.validLength <;> rw [he]
  · refine h.inv fun hs => ?_
    obtain hne | hv | hc := hnot
    · exact absurd hs hne
    · rw [(h.session.absent (.inl hs)).1] at hv; cases hv
    · exact hc
  · refine State.CoreInv.inv ?_ nofun
    exact
      { assembly := h.assembly
        backoff := h.backoff.moved (by simp [hs]) nofun
        session := .started s.cfg hlen
        inq := h.inq
        outq := h.outq.popped hc
        phase := .transmitting _ }

/-! ## What `RX_BYTE` does in a state that meets the invariant (R155, R156, R172, R174) -/

/-- The state with byte `b` stored in the assembly and the inter-byte timer restarted (R155). -/
def State.stored (b : Byte) (s : State) : State :=
  { s with
    rxbuf := if s.rxcnt < 21 then s.rxbuf ++ [b] else s.rxbuf, rxcnt := min (s.rxcnt + 1) 22,
    eomt := { period := s.eomt.period, cnt := 0, run := true } }

theorem rxStore_eq_stored {s : State} (h : s.storesWf) (b : Byte) : rxStore b s = s.stored b := by
  obtain ⟨hcnt, hbuf, -⟩ := h
  exact rxStore_eq b hbuf hcnt

/-- The state with a retry scheduled for a Message of MID `mid` (R174). -/
def State.backedOff (mid : Byte) (s : State) : State :=
  { s with
    retrycnt := if s.cfg.retryLimit = 0 then s.retrycnt else s.retrycnt + 1
    colt := { period := s.cfg.collisionTicks (priorityOf s.cfg.prioMode mid), cnt := 0, run := true }
    txcur := 0, st := .collisionWait }

@[simp] theorem State.backedOff_st (mid : Byte) (s : State) : (s.backedOff mid).st = .collisionWait := rfl

theorem collision_eq_backedOff {s : State} {mid : Byte} (h : ¬ s.givesUp) (hm : s.txmsg[0]? = some mid) :
    collision s = s.backedOff mid := by
  rw [collision_of_retry h hm, ite_not]
  rfl

/-- The state with the byte `x` under the cursor sent (R171). -/
def State.sentByte (x : Byte) (s : State) : State :=
  { s with out := s.out ++ [.send x], txlast := s.txcur, txcur := s.txcur + 1 }

/-- The state with the session ended and the engine in `st` (R179, R180). -/
def State.withoutSession (st : EngineState) (s : State) : State := { endSession s with st := st }

/-- Everything `RX_BYTE b` can do in a state that meets the invariant. -/
inductive State.RxOutcome (b : Byte) (s : State) : State → Prop
  /-- The first byte of a foreign frame. -/
  | begins (hs : s.st = .idle) : RxOutcome b s { s.stored b with st := .receiving }
  /-- A byte that joins a frame, the engine not sending. -/
  | joins (hs : s.st = .receiving ∨ s.st = .collisionWait) : RxOutcome b s (s.stored b)
  /-- The echo of a byte that is not the last one. -/
  | echoed (hs : s.st = .transmitting) (hb : s.txmsg[s.txlast]? = some b) {x : Byte} (hx : s.txmsg[s.txcur]? = some x) :
      RxOutcome b s ((s.stored b).sentByte x)
  /-- The echo of the last byte. -/
  | echoedLast (hs : s.st = .transmitting) (hb : s.txmsg[s.txlast]? = some b) (hx : s.txmsg.length ≤ s.txcur) :
      RxOutcome b s (s.stored b)
  /-- A collision that is retried. -/
  | backsOff (hs : s.st = .transmitting) (hb : s.collidesAtByte b) (hg : ¬ s.givesUp) {mid : Byte}
      (hm : s.txmsg[0]? = some mid) : RxOutcome b s (State.backedOff mid { s.stored b with rxtaint := true })
  /-- A collision with the retries used up; the inter-byte timer runs, so the frame goes on. -/
  | givesUp (hs : s.st = .transmitting) (hb : s.collidesAtByte b) (hg : s.givesUp) :
      RxOutcome b s (State.withoutSession .receiving { s.stored b with rxtaint := true })

/-- In `TRANSMITTING` the byte last sent is held (V6). -/
theorem State.CoreInv.exists_lastSent {s : State} (h : s.CoreInv) (hs : s.st = .transmitting) :
    ∃ e, s.txmsg[s.txlast]? = some e := by
  obtain ⟨h1, h2, h3⟩ := h.session.sending hs
  exact ⟨s.txmsg[s.txlast]'(by omega), List.getElem?_eq_getElem _⟩

/-- In the two states of a session the Message has a first byte. -/
theorem State.CoreInv.exists_mid {s : State} (h : s.CoreInv) (hs : s.st = .transmitting ∨ s.st = .collisionWait) :
    ∃ mid, s.txmsg[0]? = some mid := by
  obtain ⟨-, hlen⟩ := h.session.present hs
  exact exists_first_of_validLength hlen

/-- The echo of the byte last sent makes the next one be sent. -/
theorem rxByte_of_echoed {s : State} {b x : Byte} (h : s.storesWf) (hs : s.st = .transmitting)
    (hb : s.txmsg[s.txlast]? = some b) (hx : s.txmsg[s.txcur]? = some x) : rxByte b s = (s.stored b).sentByte x := by
  rw [rxByte_of_transmitting b hs, rxStore_eq_stored h]
  exact echoCompare_match (s := s.stored b) hb hx

theorem rxByte_of_echoedLast {s : State} {b : Byte} (h : s.storesWf) (hs : s.st = .transmitting)
    (hb : s.txmsg[s.txlast]? = some b) (hx : s.txmsg.length ≤ s.txcur) : rxByte b s = s.stored b := by
  rw [rxByte_of_transmitting b hs, rxStore_eq_stored h]
  exact echoCompare_last (s := s.stored b) hb hx

/-- A byte that differs from the one last sent taints the frame and is a collision. -/
theorem rxByte_of_collides {s : State} {b : Byte} (h : s.Inv) (hb : s.collidesAtByte b) :
    rxByte b s = collision { s.stored b with rxtaint := true } := by
  obtain ⟨hs, hne⟩ := hb
  obtain ⟨e, he⟩ := h.core.exists_lastSent hs
  rw [State.memRead_txmsg he] at hne
  rw [rxByte_of_transmitting b hs, rxStore_eq_stored h.stores]
  exact echoCompare_mismatch (s := s.stored b) he hne

theorem rxByte_of_backsOff {s : State} {b mid : Byte} (h : s.Inv) (hb : s.collidesAtByte b) (hg : ¬ s.givesUp)
    (hm : s.txmsg[0]? = some mid) : rxByte b s = State.backedOff mid { s.stored b with rxtaint := true } := by
  rw [rxByte_of_collides h hb]
  exact collision_eq_backedOff (s := { s.stored b with rxtaint := true }) hg hm

/-- A give-up at a byte finds the inter-byte timer running and goes to `RECEIVING` (R180). -/
theorem rxByte_of_givesUp {s : State} {b : Byte} (h : s.Inv) (hb : s.collidesAtByte b) (hg : s.givesUp) :
    rxByte b s = State.withoutSession .receiving { s.stored b with rxtaint := true } := by
  rw [rxByte_of_collides h hb]
  exact collision_of_limit (s := { s.stored b with rxtaint := true }) hg

theorem rxByte_outcome {s : State} (h : s.Inv) (b : Byte) : s.RxOutcome b (rxByte b s) := by
  have hstore := rxStore_eq_stored h.stores b
  cases hs : s.st with
  | idle => rw [rxByte_of_idle b hs, hstore]; exact .begins hs
  | receiving => rw [rxByte_of_receiving b hs, hstore]; exact .joins (.inl hs)
  | collisionWait => rw [rxByte_of_wait b hs, hstore]; exact .joins (.inr hs)
  | transmitting =>
    obtain ⟨e, he⟩ := h.core.exists_lastSent hs
    by_cases hb : b = e
    · subst hb
      rcases Nat.lt_or_ge s.txcur s.txmsg.length with hlt | hge
      · have hx := List.getElem?_eq_getElem hlt
        rw [rxByte_of_echoed h.stores hs he hx]; exact .echoed hs he hx
      · rw [rxByte_of_echoedLast h.stores hs he hge]; exact .echoedLast hs he hge
    · have hcol : s.collidesAtByte b := ⟨hs, by rwa [State.memRead_txmsg he]⟩
      by_cases hg : s.givesUp
      · rw [rxByte_of_givesUp h hcol hg]; exact .givesUp hs hcol hg
      · obtain ⟨mid, hm⟩ := h.core.exists_mid (.inl hs)
        rw [rxByte_of_backsOff h hcol hg hm]; exact .backsOff hs hcol hg hm

/-! ## What `TICK` does in a state that meets the invariant (R115, R157, R177) -/

/-- The state at the end of a frame: the assembly is emptied and the inter-byte timer stands (R113, R157). -/
def State.frameEnded (s : State) : State :=
  { clearAssembly s with eomt := { period := s.eomt.period, cnt := 0, run := false } }

/-- `INQ` after the end of a foreign frame: the frame is delivered if it is a Message and untainted (R157, R158). -/
def State.deliveredInq (s : State) : Queue :=
  if 2 ≤ s.rxcnt ∧ s.rxcnt ≤ 21 ∧ s.rxtaint = false then s.inq.push s.cfg.nIn s.rxbuf else s.inq

theorem State.deliveredInq_eq (s : State) : s.deliveredInq =
    if validLength s.rxcnt ∧ s.rxtaint = false then s.inq.push s.cfg.nIn s.rxbuf else s.inq := by
  simp only [State.deliveredInq, validLength, and_assoc]

/-- The state at the end of a foreign frame, or of any frame during the backoff (R157). -/
def State.disposed (s : State) : State := { s.frameEnded with inq := s.deliveredInq }

/-- The state at the end of the backoff: byte `b` under the cursor is sent again (R177). -/
def State.retried (b : Byte) (s : State) : State :=
  State.sentByte b { s with colt := { period := s.colt.period, cnt := 0, run := false }, st := .transmitting }

/-- Everything `TICK` can do in a state that meets the invariant. -/
inductive State.TickOutcome (s : State) : State → Prop
  /-- No timer expires. -/
  | quiet (he : s.eomt.expires = false) (hc : s.colt.expires = false) :
      TickOutcome s { s with eomt := s.eomt.ticked, colt := s.colt.ticked }
  /-- A foreign frame ends. -/
  | frameEnds (hs : s.st = .receiving) (he : s.eomt.expires = true) :
      TickOutcome s (tryStart { s.disposed with st := .idle })
  /-- The own frame ends and is the Message. -/
  | validates (hs : s.st = .transmitting) (he : s.eomt.expires = true) (hx : ¬ s.collidesAtFire) :
      TickOutcome s (tryStart (State.withoutSession .idle { s.frameEnded with inq := s.inq.push s.cfg.nIn s.txmsg }))
  /-- The own frame ends and is not the Message, a retry is left. -/
  | backsOff (hs : s.st = .transmitting) (he : s.eomt.expires = true) (hx : s.collidesAtFire) (hg : ¬ s.givesUp)
      {mid : Byte} (hm : s.txmsg[0]? = some mid) : TickOutcome s (s.frameEnded.backedOff mid)
  /-- The own frame ends and is not the Message, no retry is left. -/
  | givesUp (hs : s.st = .transmitting) (he : s.eomt.expires = true) (hx : s.collidesAtFire) (hg : s.givesUp) :
      TickOutcome s (tryStart (s.frameEnded.withoutSession .idle))
  /-- A frame ends during the backoff. -/
  | frameEndsInWait (hs : s.st = .collisionWait) (he : s.eomt.expires = true) (hc : s.colt.expires = false) :
      TickOutcome s { s.disposed with colt := s.colt.ticked }
  /-- The backoff is over. -/
  | retries (hs : s.st = .collisionWait) (he : s.eomt.expires = false) (hc : s.colt.expires = true) {b : Byte}
      (hb : s.txmsg[0]? = some b) : TickOutcome s (State.retried b { s with eomt := s.eomt.ticked })
  /-- A frame ends and the backoff is over. -/
  | frameEndsRetries (hs : s.st = .collisionWait) (he : s.eomt.expires = true) (hc : s.colt.expires = true) {b : Byte}
      (hb : s.txmsg[0]? = some b) : TickOutcome s (s.disposed.retried b)

/-! ### The inter-byte fire, the stores being canonical -/

/-- What the comparison at the fire comes to (R178). -/
theorem State.collidesAtFire_iff {s : State} (h : s.storesWf) :
    s.collidesAtFire ↔
      s.st = .transmitting ∧ (s.rxtaint = true ∨ s.rxbuf ≠ s.txmsg ∨ s.rxcnt ≠ s.txmsg.length) := by
  obtain ⟨-, hbuf, -⟩ := h
  have hframe : s.memSlice .rxbuf (min s.rxcnt 21) = s.rxbuf := State.memSlice_rxbuf hbuf
  have hmsg : s.memSlice .txmsg s.txmsg.length = s.txmsg := State.memSlice_txmsg rfl
  rw [State.collidesAtFire, State.txlen_eq, hframe, hmsg, ← Bool.not_eq_false]
  tauto

/-- The end of a foreign frame makes the engine idle, and perhaps busy again at once (R157, R170). -/
theorem onEomFire_of_receiving_eq {s : State} (h : s.storesWf) (hs : s.st = .receiving) :
    onEomFire s = tryStart { clearAssembly s with inq := s.deliveredInq, st := .idle } := by
  obtain ⟨-, hbuf, -⟩ := h
  rw [onEomFire_of_receiving hbuf hs, ← State.deliveredInq_eq]

/-- During the backoff a frame is disposed of and nothing is started. -/
theorem onEomFire_of_wait_eq {s : State} (h : s.storesWf) (hs : s.st = .collisionWait) :
    onEomFire s = { clearAssembly s with inq := s.deliveredInq } := by
  obtain ⟨-, hbuf, -⟩ := h
  rw [onEomFire_of_wait hbuf hs, ← State.deliveredInq_eq]

/-- The own frame is the Message (R178, R179). -/
theorem onEomFire_of_validates {s : State} (h : s.storesWf) (hs : s.st = .transmitting) (hx : ¬ s.collidesAtFire) :
    onEomFire s =
      tryStart (State.withoutSession .idle { clearAssembly s with inq := s.inq.push s.cfg.nIn s.txmsg }) := by
  rw [State.collidesAtFire_iff h] at hx
  have htaint : s.rxtaint = false := by
    rw [← Bool.not_eq_true]; tauto
  have hbuf : s.rxbuf = s.txmsg := by tauto
  have hcnt : s.rxcnt = s.txmsg.length := by tauto
  obtain ⟨-, hlen, -⟩ := h
  rw [onEomFire_of_transmitting hlen hs, htaint, hcnt, hbuf]
  exact congrArg tryStart (validateEcho_match (s := clearAssembly s) rfl)

/-- The own frame is not the Message (R178). -/
theorem onEomFire_of_collides {s : State} (h : s.storesWf) (hx : s.collidesAtFire) :
    onEomFire s = tryStart (collision (clearAssembly s)) := by
  obtain ⟨hs, hne⟩ := (State.collidesAtFire_iff h).mp hx
  obtain ⟨-, hlen, -⟩ := h
  rw [onEomFire_of_transmitting hlen hs, validateEcho_mismatch]
  rw [clearAssembly_txmsg]
  tauto

/-! ### The tick of each fire -/

/-- In `IDLE` no byte is assembled, so the inter-byte timer does not expire. -/
theorem State.CoreInv.eomt_of_idle {s : State} (h : s.CoreInv) (hs : s.st = .idle) : s.eomt.expires = false :=
  (Timer.ticked_of_stopped (h.assembly.stopped_iff.mpr (h.phase.idle hs))).2

/-- The backoff timer expires in `COLLISION_WAIT` only. -/
theorem State.CoreInv.wait_of_expires {s : State} (h : s.CoreInv) (hc : s.colt.expires = true) :
    s.st = .collisionWait :=
  h.backoff.running_iff.mp ((Timer.expires_iff _).mp hc).1

/-- Outside `COLLISION_WAIT` the backoff timer stands, so the tick of an inter-byte fire runs that fire alone. -/
theorem tick_of_eomFire_of_not_wait {s : State} (h : s.CoreInv) (hs : s.st ≠ .collisionWait)
    (he : s.eomt.expires = true) : tick s = onEomFire (tStop .eomt s) := by
  obtain ⟨hticked, hc⟩ := Timer.ticked_of_stopped (h.backoff.stopped hs)
  rw [tick_of_eomFire he hc, hticked]
  rfl

theorem tick_of_frameEnds {s : State} (h : s.Inv) (hs : s.st = .receiving) (he : s.eomt.expires = true) :
    tick s = tryStart { s.disposed with st := .idle } := by
  rw [tick_of_eomFire_of_not_wait h.core (by simp [hs]) he]
  exact onEomFire_of_receiving_eq (s := tStop .eomt s) h.stores hs

theorem tick_of_validates {s : State} (h : s.Inv) (hs : s.st = .transmitting) (he : s.eomt.expires = true)
    (hx : ¬ s.collidesAtFire) :
    tick s = tryStart (State.withoutSession .idle { s.frameEnded with inq := s.inq.push s.cfg.nIn s.txmsg }) := by
  rw [tick_of_eomFire_of_not_wait h.core (by simp [hs]) he]
  exact onEomFire_of_validates (s := tStop .eomt s) h.stores hs hx

theorem tick_of_collides {s : State} (h : s.Inv) (he : s.eomt.expires = true) (hx : s.collidesAtFire) :
    tick s = tryStart (collision s.frameEnded) := by
  have hs := hx.1
  rw [tick_of_eomFire_of_not_wait h.core (by simp [hs]) he]
  exact onEomFire_of_collides (s := tStop .eomt s) h.stores hx

/-- After a collision that is retried nothing is started. -/
theorem tick_of_backsOff {s : State} (h : s.Inv) (he : s.eomt.expires = true) (hx : s.collidesAtFire)
    (hg : ¬ s.givesUp) {mid : Byte} (hm : s.txmsg[0]? = some mid) : tick s = s.frameEnded.backedOff mid := by
  have hcol := collision_eq_backedOff (s := s.frameEnded) hg hm
  rw [tick_of_collides h he hx, hcol, tryStart_of_not (.inl (by simp))]

/-- A give-up at the fire finds the inter-byte timer stopped and goes to `IDLE` (R180). -/
theorem tick_of_givesUp {s : State} (h : s.Inv) (he : s.eomt.expires = true) (hx : s.collidesAtFire) (hg : s.givesUp) :
    tick s = tryStart (s.frameEnded.withoutSession .idle) := by
  rw [tick_of_collides h he hx, collision_of_limit (s := s.frameEnded) hg]
  rfl

theorem tick_of_frameEndsInWait {s : State} (h : s.Inv) (hs : s.st = .collisionWait) (he : s.eomt.expires = true)
    (hc : s.colt.expires = false) : tick s = { s.disposed with colt := s.colt.ticked } := by
  rw [tick_of_eomFire he hc]
  exact onEomFire_of_wait_eq (s := tStop .eomt { s with colt := s.colt.ticked }) h.stores hs

/-- At the end of the backoff the retry begins with byte 0 (V7, R177). -/
theorem onColFire_eq_retried {s : State} {b : Byte} (hs : s.st = .collisionWait) (hcur : s.txcur = 0)
    (hb : s.txmsg[0]? = some b) : onColFire (tStop .colt s) = s.retried b :=
  onColFire_of_wait (s := tStop .colt s) hs (hcur ▸ hb)

theorem tick_of_retries {s : State} (h : s.Inv) (hs : s.st = .collisionWait) (he : s.eomt.expires = false)
    (hc : s.colt.expires = true) {b : Byte} (hb : s.txmsg[0]? = some b) :
    tick s = State.retried b { s with eomt := s.eomt.ticked } := by
  rw [tick_of_colFire he hc]
  exact onColFire_eq_retried (s := { s with eomt := s.eomt.ticked }) hs (h.core.session.waiting hs).1 hb

/-- On the tick on which both timers expire the fires run one after the other (R115). -/
theorem tick_of_frameEndsRetries {s : State} (h : s.Inv) (hs : s.st = .collisionWait) (he : s.eomt.expires = true)
    (hc : s.colt.expires = true) {b : Byte} (hb : s.txmsg[0]? = some b) : tick s = s.disposed.retried b := by
  have hfires : tick s = onColFire (onEomFire (tStop .eomt (tStop .colt s))) := by
    simp [tick_eq, he, hc, Timer.ticked_of_expires]
  rw [hfires, onEomFire_of_wait_eq (s := tStop .eomt (tStop .colt s)) h.stores hs]
  exact onColFire_eq_retried (s := s.disposed) hs (h.core.session.waiting hs).1 hb

theorem tick_outcome_of_eomFire {s : State} (h : s.Inv) (he : s.eomt.expires = true) : s.TickOutcome (tick s) := by
  cases hs : s.st with
  | idle => rw [h.core.eomt_of_idle hs] at he; cases he
  | receiving => rw [tick_of_frameEnds h hs he]; exact .frameEnds hs he
  | transmitting =>
    by_cases hx : s.collidesAtFire
    · by_cases hg : s.givesUp
      · rw [tick_of_givesUp h he hx hg]; exact .givesUp hs he hx hg
      · obtain ⟨mid, hm⟩ := h.core.exists_mid (.inl hs)
        rw [tick_of_backsOff h he hx hg hm]; exact .backsOff hs he hx hg hm
    · rw [tick_of_validates h hs he hx]; exact .validates hs he hx
  | collisionWait =>
    cases hc : s.colt.expires with
    | false => rw [tick_of_frameEndsInWait h hs he hc]; exact .frameEndsInWait hs he hc
    | true =>
      obtain ⟨b, hb⟩ := h.core.exists_mid (.inr hs)
      rw [tick_of_frameEndsRetries h hs he hc hb]; exact .frameEndsRetries hs he hc hb

theorem tick_outcome {s : State} (h : s.Inv) : s.TickOutcome (tick s) := by
  cases he : s.eomt.expires with
  | true => exact tick_outcome_of_eomFire h he
  | false =>
    cases hc : s.colt.expires with
    | false => rw [tick_of_quiet he hc]; exact .quiet he hc
    | true =>
      have hs := h.core.wait_of_expires hc
      obtain ⟨b, hb⟩ := h.core.exists_mid (.inr hs)
      rw [tick_of_retries h hs he hc hb]; exact .retries hs he hc hb

/-! ## Each stimulus keeps the invariant -/

theorem State.CoreInv.stored {s : State} (h : s.CoreInv) (hs : s.st ≠ .idle) (b : Byte) : (s.stored b).CoreInv where
  assembly := h.assembly.stored b
  backoff := h.backoff
  session := h.session
  inq := h.inq
  outq := h.outq
  phase := ⟨fun hi => absurd hi hs, fun _ => by simp only [State.stored]; omega⟩

/-- A collision that is retried keeps the invariant, whether a byte or the fire showed it. -/
theorem State.CoreInv.backedOff {s : State} (h : s.CoreInv) (hs : s.st = .transmitting) (hg : ¬ s.givesUp) {mid : Byte}
    (hm : s.txmsg[0]? = some mid) : (s.backedOff mid).Inv :=
  State.CoreInv.inv
    { assembly := h.assembly
      backoff := .armed s.cfg hm
      session := h.session.backedOff hs hg
      inq := h.inq
      outq := h.outq
      phase := .collisionWait _ }
    nofun

theorem rxOutcome_inv {s t : State} {b : Byte} (h : s.Inv) (ho : s.RxOutcome b t) : t.Inv := by
  have hcore := h.core
  cases ho with
  | begins hs =>
    refine State.CoreInv.inv ?_ nofun
    exact
      { assembly := hcore.assembly.stored b
        backoff := hcore.backoff.moved (by simp [hs]) nofun
        session := hcore.session.moved (.inl hs) (.inr rfl)
        inq := hcore.inq
        outq := hcore.outq
        phase := .receiving_pos (by simp only [State.stored]; omega) }
  | joins hs => exact (hcore.stored (by obtain hs | hs := hs <;> simp [hs]) b).inv h.outq_of_idle
  | echoed hs hb hx =>
    have hst := hcore.stored (by simp [hs]) b
    have hlt : s.txcur < s.txmsg.length := (List.getElem?_eq_some_iff.mp hx).1
    refine State.CoreInv.inv ?_ h.outq_of_idle
    exact { hst with session := hst.session.sentNext hs hlt }
  | echoedLast hs => exact (hcore.stored (by simp [hs]) b).inv h.outq_of_idle
  | backsOff hs hb hg hm =>
    have hst := hcore.stored (by simp [hs]) b
    have htainted : State.CoreInv { s.stored b with rxtaint := true } :=
      { hst with assembly := hst.assembly.tainted (by simp only [State.stored]; omega) }
    exact htainted.backedOff hs hg hm
  | givesUp hs =>
    have hst := hcore.stored (by simp [hs]) b
    have hcnt : 1 ≤ (s.stored b).rxcnt := by simp only [State.stored]; omega
    refine State.CoreInv.inv ?_ nofun
    exact
      { assembly := hst.assembly.tainted hcnt
        backoff := hcore.backoff.moved (by simp [hs]) nofun
        session := .none s.cfg (.inr rfl)
        inq := hst.inq
        outq := hst.outq
        phase := .receiving_pos hcnt }

theorem State.CoreInv.deliveredInq_wf {s : State} (h : s.CoreInv) : s.deliveredInq.Wf s.cfg.nIn := by
  rw [State.deliveredInq_eq]
  split
  case isTrue hd =>
    obtain ⟨hlen, -⟩ := hd
    have hbuf := h.assembly.buffer
    have heq : s.rxbuf.length = s.rxcnt := by rw [hbuf]; exact min_eq_left hlen.2
    exact h.inq.pushed (heq ▸ hlen)
  case isFalse => exact h.inq

/-- The end of a frame during the backoff keeps the invariant. -/
theorem State.CoreInv.disposed_of_wait {s : State} (h : s.CoreInv) (hs : s.st = .collisionWait) : s.disposed.CoreInv :=
  { h with assembly := h.assembly.ended, inq := h.deliveredInq_wf, phase := hs ▸ .collisionWait 0 }

/-- The end of the backoff keeps the invariant, whether or not a frame ended on the same tick. -/
theorem State.CoreInv.retried {s : State} (h : s.CoreInv) (hs : s.st = .collisionWait) (b : Byte) : (s.retried b).Inv :=
  State.CoreInv.inv
    { assembly := h.assembly
      backoff := h.backoff.ended nofun
      session := h.session.resent hs
      inq := h.inq
      outq := h.outq
      phase := .transmitting _ }
    nofun

theorem tickOutcome_inv {s t : State} (h : s.Inv) (ho : s.TickOutcome t) : t.Inv := by
  have hcore := h.core
  cases ho with
  | quiet he hc =>
    refine State.CoreInv.inv ?_ h.outq_of_idle
    exact { hcore with assembly := hcore.assembly.ticked he, backoff := hcore.backoff.ticked hc }
  | frameEnds hs =>
    refine tryStart_inv ?_
    exact
      { assembly := hcore.assembly.ended
        backoff := hcore.backoff.moved (by simp [hs]) nofun
        session := hcore.session.moved (.inr hs) (.inl rfl)
        inq := hcore.deliveredInq_wf
        outq := hcore.outq
        phase := .idle_zero }
  | validates hs =>
    refine tryStart_inv ?_
    exact
      { assembly := hcore.assembly.ended
        backoff := hcore.backoff.moved (by simp [hs]) nofun
        session := .none s.cfg (.inl rfl)
        inq := hcore.inq.pushed (hcore.session.present (.inl hs)).2
        outq := hcore.outq
        phase := .idle_zero }
  | backsOff hs he hx hg hm =>
    have hended : s.frameEnded.CoreInv :=
      { hcore with assembly := hcore.assembly.ended, phase := hs ▸ .transmitting 0 }
    exact hended.backedOff hs hg hm
  | givesUp hs =>
    refine tryStart_inv ?_
    exact
      { assembly := hcore.assembly.ended
        backoff := hcore.backoff.moved (by simp [hs]) nofun
        session := .none s.cfg (.inl rfl)
        inq := hcore.inq
        outq := hcore.outq
        phase := .idle_zero }
  | frameEndsInWait hs he hc =>
    have hdisposed := hcore.disposed_of_wait hs
    refine State.CoreInv.inv ?_ h.outq_of_idle
    exact { hdisposed with backoff := hcore.backoff.ticked hc }
  | retries hs he hc hb =>
    have hticked : State.CoreInv { s with eomt := s.eomt.ticked } :=
      { hcore with assembly := hcore.assembly.ticked he }
    exact hticked.retried hs _
  | frameEndsRetries hs => exact (hcore.disposed_of_wait hs).retried hs _

theorem rxByte_inv {s : State} (h : s.Inv) (b : Byte) : (rxByte b s).Inv := rxOutcome_inv h (rxByte_outcome h b)

theorem tick_inv {s : State} (h : s.Inv) : (tick s).Inv := tickOutcome_inv h (tick_outcome h)

theorem tickN_inv (n : Nat) {s : State} (h : s.Inv) : (tickN n s).Inv := by
  induction n generalizing s with
  | zero => exact h
  | succ n ih => exact ih (tick_inv h)

theorem State.CoreInv.pushed_outq {s : State} (h : s.CoreInv) {m : ByteSeq} (hm : validLength m.length) :
    State.CoreInv { s with outq := s.outq.push s.cfg.nOut m } :=
  { h with outq := h.outq.pushed hm }

theorem writeMsg_inv {s : State} (h : s.Inv) (m : ByteSeq) : (writeMsg m s).Inv := by
  by_cases hm : validLength m.length
  · rw [writeMsg_of_valid hm]
    exact tryStart_inv (h.core.pushed_outq hm)
  · rwa [writeMsg_of_invalid hm]

theorem readMsg_inv {s : State} (h : s.Inv) : (readMsg s).Inv := by
  have hcore := h.core
  cases hc : s.inq.content with
  | nil => rw [readMsg_of_nil hc]; exact State.CoreInv.inv { hcore with } h.outq_of_idle
  | cons m r =>
    rw [readMsg_of_cons hc]
    exact State.CoreInv.inv { hcore with inq := hcore.inq.popped hc } h.outq_of_idle

theorem msgAvail_inv {s : State} (h : s.Inv) : (msgAvail s).Inv :=
  have hcore := h.core
  State.CoreInv.inv { hcore with } h.outq_of_idle

/-- The reset state meets the invariant, whatever the model's own fields hold (R40). -/
theorem resetWith_inv (c : Config) (out : List Output) (ret : Result) (stim : List Byte) :
    State.Inv { State.resetWith c with out := out, ret := ret, stim := stim } := by
  obtain ⟨he1, he2⟩ := c.eomTicks_range
  obtain ⟨hc1, hc2⟩ := c.collisionTicks_range (p := Config.defaultPrio) (by decide) (by decide)
  refine State.CoreInv.inv ?_ fun _ => rfl
  exact
    { assembly := ⟨Nat.zero_le _, rfl, by simp [State.resetWith], fun _ => rfl,
        ⟨lt_of_lt_of_le (by decide : 0 < 11) he1, fun _ => rfl, he2⟩, rfl⟩
      backoff := ⟨⟨Nat.zero_lt_of_lt hc1, fun _ => rfl, hc2⟩, by simp [State.resetWith], nofun⟩
      session := .none c (.inl rfl)
      inq := Queue.empty_wf c.nIn_pos
      outq := Queue.empty_wf c.nOut_pos
      phase := .idle_zero }

theorem resetState_inv (s : State) : (resetState s).Inv := by
  rw [resetState_eq]
  exact resetWith_inv s.cfg s.out s.ret s.stim

/-- Settles O9: the reset state of any legal parameters meets the invariant, the reference parameters among them. -/
theorem resetHasInvariant : Obligations.ResetHasInvariant :=
  ⟨fun c => resetWith_inv c [] .none [], resetWith_inv Config.reference [] .none []⟩

/-! ## Every step keeps the invariant -/

/-- Every stimulus keeps the invariant. -/
theorem exec_inv {i : Instr} {s t : State} (h : s.Inv) (hi : i.isStimulus) (hx : exec i s = .next t) : t.Inv := by
  cases i with
  | reset => cases hx; exact resetState_inv s
  | tick => cases hx; exact tick_inv h
  | ticks n => cases hx; exact tickN_inv _ h
  | rxByte b => cases hx; exact rxByte_inv h b
  | txDone => cases hx; exact h
  | writeMsg m => cases hx; exact writeMsg_inv h m
  | readMsg => cases hx; exact readMsg_inv h
  | msgAvail => cases hx; exact msgAvail_inv h
  | _ => cases hi

/-- The invariant does not speak of the stimuli that wait. -/
theorem State.Inv.withStim {s : State} (h : s.Inv) (bs : List Byte) : State.Inv { s with stim := bs } :=
  have hcore := h.core
  State.CoreInv.inv { hcore with } h.outq_of_idle

/-- What a step that answers a next state did: nothing, or the stimulus at the head of the stream. -/
theorem step_cases {s t : State} (h : step s = .next t) :
    t = s ∨ ∃ i rest, i.isStimulus ∧ exec i { s with stim := rest } = .next t := by
  by_cases h0 : s.stim = []
  · rw [step_of_empty h0] at h
    cases h
    exact .inl rfl
  · cases hd : decodeStimulus s.stim with
    | ok i rest =>
      rw [step_of_decodeStimulus hd] at h
      exact .inr ⟨i, rest, isStimulus_of_decodeStimulus hd, h⟩
    | refuse e => rw [step_of_refuse h0 hd] at h; cases h

/-- Settles O8: a step runs one stimulus, and each of the eight keeps the invariant. -/
theorem stepKeepsInvariant : Obligations.StepKeepsInvariant := by
  intro s t hinv h
  obtain rfl | ⟨i, rest, hi, hx⟩ := step_cases h
  · exact hinv
  · exact exec_inv (hinv.withStim rest) hi hx

/-- A run of one step more begins with a step. -/
theorem exists_step_of_run_succ {M : Host.Core} {n : Nat} {s t : M.State} (h : M.run (n + 1) s = .next t) :
    ∃ u, M.step s = .next u ∧ M.run n u = .next t := by
  rw [Host.Core.run] at h
  split at h
  · rename_i u hu
    exact ⟨u, hu, h⟩
  all_goals cases h

/-- Every run keeps the invariant. -/
theorem run_inv {n : Nat} {s t : State} (hs : s.Inv) (h : Sys2Proof.core.run n s = .next t) : t.Inv := by
  induction n generalizing s with
  | zero => cases h; exact hs
  | succ n ih =>
    obtain ⟨u, hu, hrun⟩ := exists_step_of_run_succ h
    exact ih (stepKeepsInvariant s u hs hu) hrun

/-- Settles O10: the invariant, which has V1 to V11 as parts, holds after reset and is kept along every run. -/
theorem reachableStatesSatisfyV1ToV11 : Obligations.ReachableStatesSatisfyV1ToV11 := by
  intro c bs n t h
  have hoffered : State.Inv (offer bs (State.resetWith c)) := resetWith_inv c [] .none _
  obtain ⟨v1, v2, v3, v4, v5, v6, v7, v8, v9, v10, v11, -, -⟩ := run_inv hoffered h
  exact ⟨v1, v2, v3, v4, v5, v6, v7, v8, v9, v10, v11⟩

end Sys2Proof.Machine

end

/-! # Rules about the whole machine (R6, R12, R68, R72, R74, R127, R182, R226, R259) -/

section

namespace Sys2Proof.Machine

/-! ## Which operands an operation completes on (R12, R230; U6, U7) -/

/-- Five operations check their operand, and the others complete on any. -/
theorem exec_of_wf {i : Instr} {s : State} (hw : i.wf) (hk : ∀ t k, i = .tConfigure t k → k ≤ s.cfg.maxTicks) :
    ∃ t, exec i s = .next t := by
  cases i with
  | tConfigure t k => exact ⟨_, if_pos ⟨hw, hk t k rfl⟩⟩
  | qPush q m => exact ⟨_, exec_qPush s hw⟩
  | rspMsg m => exact ⟨_, if_pos hw⟩
  | rspAvail v => exact ⟨_, if_pos hw⟩
  | frameDecode w => exact ⟨_, if_pos hw.1⟩
  | _ => exact ⟨_, rfl⟩

/-- Settles O11: well-formed operands pass every check, and there is no fault to raise. -/
theorem everyOperationCompletes : Obligations.EveryOperationCompletes :=
  ⟨fun _ _ hw hk => exec_of_wf hw hk, fun _ _ f => nomatch f⟩

theorem validLength_iff {n : Nat} : validLength n ↔ 2 ≤ n ∧ n ≤ 21 := Iff.rfl

/-- Settles O12, from the check of each of the five operations. -/
theorem illegalOperandsAreRefused : Obligations.IllegalOperandsAreRefused := by
  refine ⟨fun t k s hk => if_neg ?count, fun q m s hm => if_neg ?message, fun m s hm => if_neg ?answer,
    fun v s hv => if_neg ?available, fun w s hw => if_neg hw⟩
  case count => omega
  case message => rw [validLength_iff]; omega
  case answer => rw [validLength_iff]; omega
  case available => omega

/-! ## What every operation keeps (R6, R13) -/

/-- `t` has the parameters and the waiting stimuli of `s`, and its outputs with perhaps more after them. -/
structure Extends (s t : State) : Prop where
  cfg : t.cfg = s.cfg
  stim : t.stim = s.stim
  out : s.out <+: t.out

theorem Extends.refl (s : State) : Extends s s := ⟨rfl, rfl, List.prefix_rfl⟩

theorem Extends.trans {s t u : State} (h : Extends s t) (h' : Extends t u) : Extends s u :=
  ⟨h'.cfg.trans h.cfg, h'.stim.trans h.stim, h.out.trans h'.out⟩

/-- A state that differs in other fields only. -/
theorem Extends.of_eq {s t : State} (hcfg : t.cfg = s.cfg) (hstim : t.stim = s.stim) (hout : t.out = s.out) : Extends s t :=
  ⟨hcfg, hstim, hout ▸ List.prefix_rfl⟩

theorem setTimer_extends (t : TimerId) (v : Timer) (s : State) : Extends s (s.setTimer t v) := by
  refine .of_eq ?_ ?_ ?_ <;> simp

theorem setQueue_extends (q : QueueId) (w : Queue) (s : State) : Extends s (s.setQueue q w) := by
  refine .of_eq ?_ ?_ ?_ <;> simp

theorem returning_extends (r : Result) (s : State) : Extends s (returning r s) := .of_eq rfl rfl rfl

theorem emit_extends (o : Output) (s : State) : Extends s (emit o s) := ⟨rfl, rfl, List.prefix_append ..⟩

theorem sendNext_extends (s : State) : Extends s (sendNext s) := ⟨rfl, rfl, List.prefix_append ..⟩

theorem tryStart_extends (s : State) : Extends s (tryStart s) := by
  unfold tryStart
  split
  case isFalse => exact .refl s
  case isTrue =>
    cases hc : s.outq.content with
    | nil => rw [qPop_of_nil (q := .outq) hc]; exact .refl s
    | cons m r => rw [qPop_of_cons (q := .outq) hc]; exact ⟨rfl, rfl, List.prefix_append ..⟩

theorem collision_extends (s : State) : Extends s (collision s) := by
  unfold collision; split <;> exact .of_eq rfl rfl rfl

theorem echoCompare_extends (b : Byte) (s : State) : Extends s (echoCompare b s) := by
  obtain h | h | h := echoCompare_cases b s <;> rw [h]
  · exact sendNext_extends s
  · exact .refl s
  · have htainted : Extends s { s with rxtaint := true } := .of_eq rfl rfl rfl
    exact htainted.trans (collision_extends _)

theorem onColFire_extends (s : State) : Extends s (onColFire s) := by
  unfold onColFire
  split
  · exact ⟨rfl, rfl, List.prefix_append ..⟩
  · exact .refl s

theorem validateEcho_extends (n : Nat) (taint : Bool) (frame : ByteSeq) (s : State) :
    Extends s (validateEcho n taint frame s) := by
  unfold validateEcho
  split
  · exact .of_eq rfl rfl rfl
  · exact collision_extends s

theorem rxStore_extends (b : Byte) (s : State) : Extends s (rxStore b s) := by
  rw [rxStore_frame]; exact .of_eq rfl rfl rfl

theorem deliver_extends (n : Nat) (taint : Bool) (frame : ByteSeq) (s : State) : Extends s (deliver n taint frame s) := by
  rw [deliver_eq]; exact .of_eq rfl rfl rfl

theorem onEomFire_extends (s : State) : Extends s (onEomFire s) := by
  have hcleared : Extends s (clearAssembly s) := .of_eq rfl rfl rfl
  refine .trans (hcleared.trans ?_) (tryStart_extends _)
  cases s.st with
  | idle => exact .refl _
  | receiving => exact (deliver_extends ..).trans (.of_eq rfl rfl rfl)
  | collisionWait => exact deliver_extends ..
  | transmitting => exact validateEcho_extends ..

theorem rxByte_extends (b : Byte) (s : State) : Extends s (rxByte b s) := by
  refine (rxStore_extends b s).trans ?_
  cases hs : s.st with
  | idle => rw [rxByte_of_idle b hs]; exact .of_eq rfl rfl rfl
  | receiving => rw [rxByte_of_receiving b hs]; exact .refl _
  | transmitting => rw [rxByte_of_transmitting b hs]; exact echoCompare_extends b _
  | collisionWait => rw [rxByte_of_wait b hs]; exact .refl _

theorem tick_extends (s : State) : Extends s (tick s) := by
  have hadvanced : Extends s { s with eomt := s.eomt.ticked, colt := s.colt.ticked } := .of_eq rfl rfl rfl
  rw [tick_eq]
  dsimp only
  split_ifs
  · exact hadvanced.trans ((onEomFire_extends _).trans (onColFire_extends _))
  · exact hadvanced.trans (onColFire_extends _)
  · exact hadvanced.trans (onEomFire_extends _)
  · exact hadvanced

theorem tickN_extends (n : Nat) (s : State) : Extends s (tickN n s) := by
  induction n generalizing s with
  | zero => exact .refl s
  | succ n ih => exact (tick_extends s).trans (ih (tick s))

theorem writeMsg_extends (m : ByteSeq) (s : State) : Extends s (writeMsg m s) := by
  by_cases hm : validLength m.length
  · have hpushed : Extends s { s with outq := s.outq.push s.cfg.nOut m } := .of_eq rfl rfl rfl
    rw [writeMsg_of_valid hm]
    exact hpushed.trans (tryStart_extends _)
  · rw [writeMsg_of_invalid hm]; exact .refl s

theorem readMsg_extends (s : State) : Extends s (readMsg s) := by
  cases hc : s.inq.content with
  | nil => rw [readMsg_of_nil hc]; exact ⟨rfl, rfl, List.prefix_append ..⟩
  | cons m r => rw [readMsg_of_cons hc]; exact ⟨rfl, rfl, List.prefix_append ..⟩

/-- What an operation that checks its operand answers, if it completes. -/
theorem eq_of_ite_eq_next {p : Prop} [Decidable p] {u t : State} {e : Refusal}
    (h : (if p then Host.Outcome.next u else .refused e : Host.Outcome State Fault Refusal) = .next t) : t = u := by
  split_ifs at h
  cases h
  rfl

theorem exec_extends {i : Instr} {s t : State} (h : exec i s = .next t) : Extends s t := by
  cases i with
  | reset => cases h; exact .of_eq rfl rfl rfl
  | tick => cases h; exact tick_extends s
  | ticks n => cases h; exact tickN_extends _ s
  | rxByte b => cases h; exact rxByte_extends b s
  | txDone => cases h; exact .refl s
  | writeMsg m => cases h; exact writeMsg_extends m s
  | readMsg => cases h; exact readMsg_extends s
  | msgAvail => cases h; exact emit_extends _ s
  | send b => cases h; exact emit_extends _ s
  | rspMsg m => cases eq_of_ite_eq_next h; exact emit_extends _ s
  | rspAvail v => cases eq_of_ite_eq_next h; exact emit_extends _ s
  | tConfigure t k => cases eq_of_ite_eq_next h; exact setTimer_extends ..
  | tRestart t | tStop t => cases h; exact setTimer_extends ..
  | tTick t => cases h; exact (setTimer_extends ..).trans (returning_extends ..)
  | qPush q m => cases eq_of_ite_eq_next h; exact setQueue_extends ..
  | qPop q => cases h; exact (setQueue_extends ..).trans (returning_extends ..)
  | rxStore b => cases h; exact rxStore_extends b s
  | onEomFire => cases h; exact onEomFire_extends s
  | tryStart => cases h; exact tryStart_extends s
  | sendNext => cases h; exact sendNext_extends s
  | echoCompare b => cases h; exact echoCompare_extends b s
  | collision => cases h; exact collision_extends s
  | onColFire => cases h; exact onColFire_extends s
  | validateEcho n taint frame => cases h; exact validateEcho_extends n taint frame s
  | txComplete | giveUp => cases h; exact .of_eq rfl rfl rfl
  | frameDecode w => cases eq_of_ite_eq_next h; exact returning_extends ..
  | qPeek | qIsEmpty | priority | frameEncode | hexEncode | hexDecode => cases h; exact returning_extends ..

/-- Settles O13, from what each operation's own procedures keep; a step changes the waiting stimuli only before its operation. -/
theorem parametersConstantOutputsAppended : Obligations.ParametersConstantOutputsAppended := by
  refine ⟨fun i s t h => ?operation, fun s t h => ?step⟩
  case operation =>
    obtain ⟨hcfg, hstim, hout⟩ := exec_extends h
    exact ⟨hcfg, hstim, hout⟩
  case step =>
    obtain rfl | ⟨i, rest, -, hx⟩ := step_cases h
    · exact ⟨rfl, List.prefix_rfl⟩
    · obtain ⟨hcfg, -, hout⟩ := exec_extends hx
      exact ⟨hcfg, hout⟩

/-! ## At most one output (R68, R125) -/

/-- `t` has the outputs of `s` or one more, and a `SEND` leaves its byte under `TXLAST` in `TRANSMITTING`. -/
def OneOutputMore (s t : State) : Prop :=
  t.out = s.out ∨
    ∃ o, t.out = s.out ++ [o] ∧ ∀ b, o = .send b → t.st = .transmitting ∧ t.cell .txmsg t.txlast = some b

/-- The one output is a `SEND`, its byte under `TXLAST`. -/
theorem OneOutputMore.sent {s t : State} {x : Byte} (hout : t.out = s.out ++ [.send x]) (hs : t.st = .transmitting)
    (hx : t.txmsg[t.txlast]? = some x) : OneOutputMore s t :=
  .inr ⟨_, hout, fun b hb => ⟨hs, by cases hb; exact hx⟩⟩

theorem tryStart_oneOutputMore {s : State} (hq : s.outq.Wf s.cfg.nOut) : OneOutputMore s (tryStart s) := by
  obtain ⟨-, he⟩ | ⟨b, m, r, -, -, -, -, he⟩ := tryStart_cases hq.validLength <;> rw [he]
  · exact .inl rfl
  · exact .sent rfl rfl rfl

theorem rxOutcome_oneOutputMore {s t : State} {b : Byte} (ho : s.RxOutcome b t) : OneOutputMore s t := by
  cases ho with
  | echoed hs hb hx => exact .sent rfl hs hx
  | begins | joins | echoedLast | backsOff | givesUp => exact .inl rfl

theorem tickOutcome_oneOutputMore {s t : State} (h : s.Inv) (ho : s.TickOutcome t) : OneOutputMore s t := by
  have hq := h.core.outq
  cases ho with
  | frameEnds => exact tryStart_oneOutputMore (s := { s.disposed with st := .idle }) hq
  | validates =>
    exact tryStart_oneOutputMore
      (s := State.withoutSession .idle { s.frameEnded with inq := s.inq.push s.cfg.nIn s.txmsg }) hq
  | givesUp => exact tryStart_oneOutputMore (s := s.frameEnded.withoutSession .idle) hq
  | retries hs he hc hb | frameEndsRetries hs he hc hb =>
    have hcell := (h.core.session.waiting hs).1.symm ▸ hb
    exact .sent rfl rfl hcell
  | quiet | backsOff | frameEndsInWait => exact .inl rfl

theorem writeMsg_oneOutputMore {s : State} (h : s.Inv) (m : ByteSeq) : OneOutputMore s (writeMsg m s) := by
  by_cases hm : validLength m.length
  · rw [writeMsg_of_valid hm]
    exact tryStart_oneOutputMore (s := { s with outq := s.outq.push s.cfg.nOut m }) (h.core.outq.pushed hm)
  · rw [writeMsg_of_invalid hm]; exact .inl rfl

theorem readMsg_oneOutputMore (s : State) : OneOutputMore s (readMsg s) := by
  cases hc : s.inq.content with
  | nil => rw [readMsg_of_nil hc]; exact .inr ⟨_, rfl, nofun⟩
  | cons m r => rw [readMsg_of_cons hc]; exact .inr ⟨_, rfl, nofun⟩

/-- Settles O14, by the outcomes of each stimulus. -/
theorem atMostOneOutputPerOperation : Obligations.AtMostOneOutputPerOperation := by
  intro i s t h hi hn hx
  cases i with
  | ticks n => exact absurd rfl (hn n)
  | tick => cases hx; exact tickOutcome_oneOutputMore h (tick_outcome h)
  | rxByte b => cases hx; exact rxOutcome_oneOutputMore (rxByte_outcome h b)
  | writeMsg m => cases hx; exact writeMsg_oneOutputMore h m
  | readMsg => cases hx; exact readMsg_oneOutputMore s
  | msgAvail => cases hx; exact .inr ⟨_, rfl, nofun⟩
  | reset | txDone => cases hx; exact .inl rfl
  | _ => cases hi

/-! ## The Message of a session (R72, R182) -/

/-- The own frame ends, and with it the session: the frame is the Message, or no retry is left. -/
def State.EndsAtFire (s : State) : Prop :=
  s.st = .transmitting ∧ s.eomt.expires = true ∧ (¬ s.collidesAtFire ∨ s.givesUp)

theorem rxOutcome_session {s t : State} {b : Byte} (hv : s.txvalid = true) (ho : s.RxOutcome b t) :
    (t.txvalid = true ∧ t.txmsg = s.txmsg) ∨ (t.txvalid = false ∧ s.givesUp ∧ s.collidesAtByte b) := by
  cases ho with
  | givesUp hs hb hg => exact .inr ⟨rfl, hg, hb⟩
  | begins | joins | echoed | echoedLast | backsOff => exact .inl ⟨hv, rfl⟩

theorem tickOutcome_session {s t : State} (h : s.Inv) (hv : s.txvalid = true) (ho : s.TickOutcome t) :
    (t.txvalid = true ∧ t.txmsg = s.txmsg) ∨ s.EndsAtFire := by
  cases ho with
  | frameEnds hs => rw [(h.core.session.absent (.inr hs)).1] at hv; cases hv
  | validates hs he hx => exact .inr ⟨hs, he, .inl hx⟩
  | givesUp hs he hx hg => exact .inr ⟨hs, he, .inr hg⟩
  | quiet | backsOff | frameEndsInWait | retries | frameEndsRetries => exact .inl ⟨hv, rfl⟩

/-- With a session `WRITE_MSG` only queues. -/
theorem writeMsg_of_session {m : ByteSeq} {s : State} (hm : validLength m.length) (hv : s.txvalid = true) :
    writeMsg m s = { s with outq := s.outq.push s.cfg.nOut m } := by
  rw [writeMsg_of_valid hm]
  exact tryStart_of_not (.inr (.inl hv))

theorem writeMsg_session {m : ByteSeq} {s : State} (hv : s.txvalid = true) :
    (writeMsg m s).txvalid = true ∧ (writeMsg m s).txmsg = s.txmsg := by
  by_cases hm : validLength m.length
  · rw [writeMsg_of_session hm hv]; exact ⟨hv, rfl⟩
  · rw [writeMsg_of_invalid hm]; exact ⟨hv, rfl⟩

theorem readMsg_session {s : State} : (readMsg s).txvalid = s.txvalid ∧ (readMsg s).txmsg = s.txmsg := by
  cases hc : s.inq.content with
  | nil => rw [readMsg_of_nil hc]; exact ⟨rfl, rfl⟩
  | cons m r => rw [readMsg_of_cons hc]; exact ⟨rfl, rfl⟩

/-- Settles O16: only the fire and a colliding byte end a session, and only a session's end alters its Message. -/
theorem sessionMessageIsNeverAltered : Obligations.SessionMessageIsNeverAltered := by
  intro i s t h hi hr hn hv hx
  cases i with
  | reset => exact absurd rfl hr
  | ticks n => exact absurd rfl (hn n)
  | tick =>
    cases hx
    obtain hkept | hend := tickOutcome_session h hv (tick_outcome h)
    · exact .inl hkept
    · exact .inr (.inl ⟨rfl, hend⟩)
  | rxByte b =>
    cases hx
    obtain hkept | ⟨hv', hg, hb⟩ := rxOutcome_session hv (rxByte_outcome h b)
    · exact .inl hkept
    · exact .inr (.inr ⟨hv', hg, b, rfl, hb⟩)
  | writeMsg m => cases hx; exact .inl (writeMsg_session hv)
  | readMsg =>
    cases hx
    obtain ⟨hv', hm⟩ := readMsg_session (s := s)
    exact .inl ⟨hv'.trans hv, hm⟩
  | txDone | msgAvail => cases hx; exact .inl ⟨hv, rfl⟩
  | _ => cases hi

/-! ## The state graph (R226) -/

/-- What `try_start` makes of an engine that has just become idle: it stays so exactly if no Message waits. -/
theorem tryStart_st_of_idle {s : State} (hs : s.st = .idle) (hv : s.txvalid = false) (hq : s.outq.Wf s.cfg.nOut) :
    ((tryStart s).st = .idle ∧ s.outq.count = 0) ∨ ((tryStart s).st = .transmitting ∧ 0 < s.outq.count) := by
  obtain ⟨hnot, he⟩ | ⟨b, m, r, -, -, hc, -, he⟩ := tryStart_cases hq.validLength <;> rw [he]
  · obtain hne | hv' | hc := hnot
    · exact absurd hs hne
    · rw [hv] at hv'; cases hv'
    · exact .inl ⟨hs, by rw [Queue.count_eq, hc]; rfl⟩
  · exact .inr ⟨rfl, by rw [Queue.count_eq, hc]; exact Nat.zero_lt_succ _⟩

/-- The edges of the state graph, each with the stimulus that makes it (R226). -/
def State.Edge (i : Instr) (s t : State) : Prop :=
  t.st = s.st ∨
    (s.st = .idle ∧ t.st = .receiving ∧ ∃ b, i = .rxByte b) ∨
    (s.st = .idle ∧ t.st = .transmitting ∧ ∃ m, i = .writeMsg m) ∨
    (s.st = .receiving ∧ t.st = .idle ∧ i = .tick ∧ s.eomt.expires = true ∧ s.outq.count = 0) ∨
    (s.st = .receiving ∧ t.st = .transmitting ∧ i = .tick ∧ s.eomt.expires = true ∧ 0 < s.outq.count) ∨
    (s.st = .transmitting ∧ t.st = .idle ∧ i = .tick ∧ s.eomt.expires = true ∧ s.outq.count = 0 ∧
      (¬ s.collidesAtFire ∨ s.givesUp)) ∨
    (s.st = .transmitting ∧ t.st = .collisionWait ∧
      ((∃ b, i = .rxByte b ∧ s.collidesAtByte b) ∨ (i = .tick ∧ s.eomt.expires = true ∧ s.collidesAtFire))) ∨
    (s.st = .collisionWait ∧ t.st = .transmitting ∧ i = .tick ∧ s.colt.expires = true) ∨
    (s.st = .transmitting ∧ t.st = .receiving ∧ s.givesUp ∧ ∃ b, i = .rxByte b ∧ s.collidesAtByte b) ∨
    (t.st = .idle ∧ i = .reset)

theorem rxOutcome_edge {s t : State} {b : Byte} (ho : s.RxOutcome b t) : State.Edge (.rxByte b) s t := by
  cases ho with
  | begins hs => exact .inr (.inl ⟨hs, rfl, b, rfl⟩)
  | joins | echoed | echoedLast => exact .inl rfl
  | backsOff hs hb hg hm => simp [State.Edge, hs, hb]
  | givesUp hs hb hg => simp [State.Edge, State.withoutSession, hs, hb, hg]

/-- The edges of an own frame that ends with its session. -/
theorem edge_of_endsAtFire {s u : State} (hend : s.EndsAtFire) (hu : u.st = .idle) (hv : u.txvalid = false)
    (hq : u.outq = s.outq) (hw : u.outq.Wf u.cfg.nOut) : State.Edge .tick s (tryStart u) := by
  obtain ⟨hs, he, hcause⟩ := hend
  obtain ⟨ht, hc⟩ | ⟨ht, -⟩ := tryStart_st_of_idle hu hv hw
  · rw [hq] at hc
    exact .inr (.inr (.inr (.inr (.inr (.inl ⟨hs, ht, rfl, he, hc, hcause⟩)))))
  · simp [State.Edge, hs, ht]

theorem tickOutcome_edge {s t : State} (h : s.Inv) (ho : s.TickOutcome t) : State.Edge .tick s t := by
  have hq := h.core.outq
  cases ho with
  | quiet | frameEndsInWait => exact .inl rfl
  | frameEnds hs he =>
    have hv := (h.core.session.absent (.inr hs)).1
    obtain ⟨ht, hc⟩ | ⟨ht, hc⟩ := tryStart_st_of_idle (s := { s.disposed with st := .idle }) rfl hv hq
    · exact .inr (.inr (.inr (.inl ⟨hs, ht, rfl, he, hc⟩)))
    · exact .inr (.inr (.inr (.inr (.inl ⟨hs, ht, rfl, he, hc⟩))))
  | validates hs he hx => exact edge_of_endsAtFire ⟨hs, he, .inl hx⟩ rfl rfl rfl hq
  | givesUp hs he hx hg => exact edge_of_endsAtFire ⟨hs, he, .inr hg⟩ rfl rfl rfl hq
  | backsOff hs he hx => simp [State.Edge, hs, he, hx]
  | retries hs he hc | frameEndsRetries hs he hc => simp [State.Edge, State.retried, State.sentByte, hs, hc]

theorem writeMsg_edge {s : State} (h : s.Inv) (m : ByteSeq) : State.Edge (.writeMsg m) s (writeMsg m s) := by
  by_cases hm : validLength m.length
  · rw [writeMsg_of_valid hm]
    obtain ⟨-, he⟩ | ⟨b, m', r, hs, -, -, -, he⟩ :=
      tryStart_cases (s := { s with outq := s.outq.push s.cfg.nOut m }) (h.core.outq.pushed hm).validLength
    · rw [he]; exact .inl rfl
    · rw [he]; exact .inr (.inr (.inl ⟨hs, rfl, m, rfl⟩))
  · rw [writeMsg_of_invalid hm]; exact .inl rfl

theorem exec_edge {i : Instr} {s t : State} (h : s.Inv) (hi : i.isStimulus) (hn : ∀ n, i ≠ .ticks n)
    (hx : exec i s = .next t) : State.Edge i s t := by
  cases i with
  | reset => cases hx; simp [State.Edge, resetState_eq, State.resetWith]
  | ticks n => exact absurd rfl (hn n)
  | tick => cases hx; exact tickOutcome_edge h (tick_outcome h)
  | rxByte b => cases hx; exact rxOutcome_edge (rxByte_outcome h b)
  | writeMsg m => cases hx; exact writeMsg_edge h m
  | readMsg =>
    cases hx
    cases hc : s.inq.content with
    | nil => rw [readMsg_of_nil hc]; exact .inl rfl
    | cons m r => rw [readMsg_of_cons hc]; exact .inl rfl
  | txDone | msgAvail => cases hx; exact .inl rfl
  | _ => cases hi

/-- An engine just become idle that `try_start` leaves in `TRANSMITTING` had a Message waiting. -/
theorem outq_pos_of_tryStart {s : State} (hs : s.st = .idle) (hv : s.txvalid = false) (hq : s.outq.Wf s.cfg.nOut)
    (ht : (tryStart s).st = .transmitting) : 0 < s.outq.count := by
  obtain ⟨ht', -⟩ | ⟨-, hc⟩ := tryStart_st_of_idle hs hv hq
  · rw [ht] at ht'; cases ht'
  · exact hc

/-- A tick that leaves another Message in `TRANSMITTING` has ended the session and started one that waited. -/
theorem tickOutcome_replaced {s t : State} (h : s.Inv) (hs : s.st = .transmitting) (ho : s.TickOutcome t)
    (ht : t.st = .transmitting) (hne : t.txmsg ≠ s.txmsg) : s.EndsAtFire ∧ 0 < s.outq.count := by
  have hq := h.core.outq
  cases ho with
  | validates _ he hx =>
    exact ⟨⟨hs, he, .inl hx⟩, outq_pos_of_tryStart
      (s := State.withoutSession .idle { s.frameEnded with inq := s.inq.push s.cfg.nIn s.txmsg }) rfl rfl hq ht⟩
  | givesUp _ he hx hg =>
    exact ⟨⟨hs, he, .inr hg⟩, outq_pos_of_tryStart (s := s.frameEnded.withoutSession .idle) rfl rfl hq ht⟩
  | frameEnds hs' => rw [hs] at hs'; cases hs'
  | quiet | backsOff | frameEndsInWait | retries | frameEndsRetries => exact absurd rfl hne

/-- Settles O15: the edges are those of the outcomes, the invariant keeps `OUTQ` empty in `IDLE`, and only a fire replaces a
Message. -/
theorem stateGraphEdges : Obligations.StateGraphEdges := by
  intro i s t h hi hn hx
  refine ⟨exec_edge h hi hn hx, fun ht => ?idle, fun hs ht hne => ?replaced⟩
  case idle => rw [Queue.count_eq, (exec_inv h hi hx).outq_of_idle ht]; rfl
  case replaced =>
    have hv := (h.core.session.present (.inl hs)).1
    cases i with
    | tick =>
      cases hx
      obtain ⟨⟨-, he, hcause⟩, hc⟩ := tickOutcome_replaced h hs (tick_outcome h) ht hne
      exact ⟨rfl, he, hc, hcause⟩
    | rxByte b =>
      obtain ⟨-, hm⟩ | ⟨hv', -⟩ := rxOutcome_session hv (rxByte_outcome h b) <;> cases hx
      · exact absurd hm hne
      · rw [((rxByte_inv h b).core.session.present (.inl ht)).1] at hv'; cases hv'
    | writeMsg m => cases hx; exact absurd (writeMsg_session hv).2 hne
    | readMsg => cases hx; exact absurd readMsg_session.2 hne
    | reset => cases hx; cases ht
    | ticks n => exact absurd rfl (hn n)
    | txDone | msgAvail => cases hx; exact absurd rfl hne
    | _ => cases hi

/-! ## The host reaches the queues only (R74, R201, R242) -/

/-- `try_start` writes the transmit side only. -/
theorem tryStart_frame (s : State) : tryStart s =
    { s with
      st := (tryStart s).st, txvalid := (tryStart s).txvalid, txmsg := (tryStart s).txmsg, txcur := (tryStart s).txcur,
      txlast := (tryStart s).txlast, retrycnt := (tryStart s).retrycnt, outq := (tryStart s).outq,
      out := (tryStart s).out } := by
  unfold tryStart
  split
  case isFalse => rfl
  case isTrue =>
    cases hc : s.outq.content with
    | nil => rw [qPop_of_nil (q := .outq) hc]
    | cons m r => rw [qPop_of_cons (q := .outq) hc]; rfl

/-- What `READ_MSG` answers: the oldest Message, or the empty record. -/
theorem readMsg_out (s : State) : (readMsg s).out = s.out ++ [.rspMsg (s.inq.content.head?.getD [])] := by
  cases hc : s.inq.content with
  | nil => rw [readMsg_of_nil hc]; rfl
  | cons m r => rw [readMsg_of_cons hc]; rfl

/-- `READ_MSG` writes `INQ` and its answer. -/
theorem readMsg_frame (s : State) : readMsg s = { s with inq := (readMsg s).inq, out := (readMsg s).out } := by
  cases hc : s.inq.content with
  | nil => rw [readMsg_of_nil hc]
  | cons m r => rw [readMsg_of_cons hc]

/-- Outside `IDLE` a Message written is only queued. -/
theorem writeMsg_of_not_idle {m : ByteSeq} {s : State} (hm : validLength m.length) (hs : s.st ≠ .idle) :
    writeMsg m s = { s with outq := s.outq.push s.cfg.nOut m } := by
  rw [writeMsg_of_valid hm]
  exact tryStart_of_not (.inl hs)

/-- Settles O17, from the frame of each host operation. -/
theorem hostReachesOnlyTheQueues : Obligations.HostReachesOnlyTheQueues := by
  refine ⟨fun s t hx => ?readMsg, fun s t hx => ?msgAvail, fun m s t hx => ?writeMsg, fun i s u hi hq => ?answer⟩
  case readMsg => cases hx; exact readMsg_frame s
  case msgAvail => cases hx; rfl
  case writeMsg =>
    cases hx
    by_cases hm : validLength m.length
    · refine ⟨fun hs => by rw [writeMsg_of_not_idle hm hs], ?_⟩
      rw [writeMsg_of_valid hm, tryStart_frame]
      exact ⟨rfl, rfl, rfl, rfl, rfl, rfl⟩
    · rw [writeMsg_of_invalid hm]
      exact ⟨fun _ => rfl, rfl, rfl, rfl, rfl, rfl, rfl⟩
  case answer =>
    obtain rfl | rfl := hi
    · exact ⟨_, _, _, exec_readMsg s, exec_readMsg u, readMsg_out s, by rw [readMsg_out u, hq]⟩
    · exact ⟨_, _, _, exec_msgAvail s, exec_msgAvail u, rfl, by rw [hq]; rfl⟩

/-! ## `TX_DONE` (R127) -/

theorem execAll_filter_txDone (is : List Instr) (s : State) :
    execAll (is.filter fun i => i ≠ .txDone) s = execAll is s := by
  induction is generalizing s with
  | nil => rfl
  | cons i is ih =>
    by_cases hi : i = .txDone
    · rw [List.filter_cons_of_neg (by simp [hi]), ih, hi]; rfl
    · rw [List.filter_cons_of_pos (by simp [hi])]
      cases hx : exec i s with
      | next t => rw [execAll_cons hx, execAll_cons hx, ih]
      | fault e | refused e => simp only [execAll, hx]

/-- Settles O18: `TX_DONE` is the identity, so a sequence runs the same without it. -/
theorem txDoneChangesNothing : Obligations.TxDoneChangesNothing :=
  ⟨fun _ => rfl, exec_txDone, execAll_filter_txDone⟩

/-! ## The lost echo (R259) -/

/-- With both timers stopped a tick changes nothing (R113, R115). -/
theorem tick_of_stopped {s : State} (he : s.eomt.run = false) (hc : s.colt.run = false) : tick s = s := by
  obtain ⟨he1, he2⟩ := Timer.ticked_of_stopped he
  obtain ⟨hc1, hc2⟩ := Timer.ticked_of_stopped hc
  rw [tick_of_quiet he2 hc2, he1, hc1]

theorem tickN_of_stopped (n : Nat) {s : State} (he : s.eomt.run = false) (hc : s.colt.run = false) : tickN n s = s := by
  induction n with
  | zero => rfl
  | succ n ih => rw [tickN_succ, tick_of_stopped he hc, ih]

/-- Settles O19: in `TRANSMITTING` the backoff timer stands, so with the inter-byte timer stopped no tick does anything. -/
theorem lostEchoLeavesEngineStuck : Obligations.LostEchoLeavesEngineStuck := by
  intro s n h hs he
  have hc := h.core.backoff.stopped (by simp [hs])
  rw [execAll_replicate_tick, tickN_of_stopped n he hc]

end Sys2Proof.Machine

end

/-! # The bit timers (R110 to R115) -/

section

namespace Sys2Proof.Machine

/-! ## What each timer operation answers -/

theorem exec_tConfigure {t : TimerId} {k : Nat} {s : State} (h1 : 1 ≤ k) (hk : k ≤ s.cfg.maxTicks) :
    exec (.tConfigure t k) s = .next (tConfigure t k s) := if_pos ⟨h1, hk⟩

@[simp] theorem exec_tRestart (t : TimerId) (s : State) : exec (.tRestart t) s = .next (tRestart t s) := rfl
@[simp] theorem exec_tStop (t : TimerId) (s : State) : exec (.tStop t) s = .next (tStop t s) := rfl
@[simp] theorem exec_tTick (t : TimerId) (s : State) : exec (.tTick t) s =
    .next (returning (.bool (s.timer t).expires) (s.setTimer t (s.timer t).ticked)) := rfl

@[simp] theorem State.timer_returning (s : State) (t : TimerId) (r : Result) : (returning r s).timer t = s.timer t := by
  cases t <;> rfl

@[simp] theorem timer_tRestart (t : TimerId) (s : State) :
    (tRestart t s).timer t = { period := (s.timer t).period, cnt := 0, run := true } := by
  cases t <;> rfl

/-- Settles O20, from what `T_CONFIGURE` writes to each timer. -/
theorem configureSetsPeriodAndStops : Obligations.ConfigureSetsPeriodAndStops := by
  intro k s h1 hk
  rw [exec_tConfigure h1 hk, exec_tConfigure h1 hk, tConfigure_eomt, tConfigure_colt]
  exact ⟨rfl, rfl⟩

/-- Settles O21, from what the two operations write to each timer. -/
theorem restartAndStopZeroTheCount : Obligations.RestartAndStopZeroTheCount := by
  intro s
  rw [exec_tRestart, exec_tRestart, exec_tStop, exec_tStop, tRestart_eomt, tRestart_colt, tStop_eomt, tStop_colt]
  exact ⟨rfl, rfl, rfl, rfl⟩

/-! ## One tick of a timer (R113) -/

theorem exec_tTick_of_stopped {t : TimerId} {s : State} (h : (s.timer t).run = false) :
    exec (.tTick t) s = .next { s with ret := .bool false } := by
  obtain ⟨hticked, hexp⟩ := Timer.ticked_of_stopped h
  rw [exec_tTick, hticked, hexp, State.setTimer_timer]
  rfl

theorem exec_tTick_of_expires {t : TimerId} {s : State} (hr : (s.timer t).run = true)
    (hp : (s.timer t).cnt + 1 = (s.timer t).period) :
    exec (.tTick t) s =
      .next { s.setTimer t { period := (s.timer t).period, cnt := 0, run := false } with ret := .bool true } := by
  have hexp : (s.timer t).expires = true := (Timer.expires_iff _).mpr ⟨hr, hp⟩
  rw [exec_tTick, Timer.ticked_of_expires hexp, hexp]
  rfl

theorem exec_tTick_of_counts {t : TimerId} {s : State} (hr : (s.timer t).run = true)
    (hp : (s.timer t).cnt + 1 ≠ (s.timer t).period) :
    exec (.tTick t) s =
      .next { s.setTimer t { period := (s.timer t).period, cnt := (s.timer t).cnt + 1, run := true } with
        ret := .bool false } := by
  have hexp := Timer.expires_of_ne hp
  rw [exec_tTick, Timer.ticked_of_counts hr hexp, hexp]
  rfl

/-- Settles O22, by the three cases of a tick. -/
theorem timerTickCountsOrExpires : Obligations.TimerTickCountsOrExpires := fun _ _ =>
  ⟨exec_tTick_of_stopped, exec_tTick_of_expires, exec_tTick_of_counts⟩

/-! ## A restarted timer over many ticks (R114) -/

/-- A restart of timer `t`, then `k` ticks of it. -/
def restartThenTicks (t : TimerId) (k : Nat) : List Instr := .tRestart t :: List.replicate k (.tTick t)

theorem execAll_restartThenTicks_zero (t : TimerId) (s : State) :
    execAll (restartThenTicks t 0) s = .next (tRestart t s) := rfl

/-- One more tick at the end of the run. -/
theorem execAll_restartThenTicks_succ {t : TimerId} {k : Nat} {s u : State}
    (h : execAll (restartThenTicks t k) s = .next u) :
    execAll (restartThenTicks t (k + 1)) s = exec (.tTick t) u := by
  have hsnoc : restartThenTicks t (k + 1) = restartThenTicks t k ++ [.tTick t] := by
    simp [restartThenTicks, List.replicate_succ']
  rw [hsnoc, execAll_append h, exec_tTick, execAll_cons (exec_tTick t u), execAll_nil]

/-- Before the `PERIOD`-th tick the timer counts. -/
theorem restartThenTicks_counts {t : TimerId} {k : Nat} {s : State} (hk : k < (s.timer t).period) :
    ∃ u, execAll (restartThenTicks t k) s = .next u ∧
      u.timer t = { period := (s.timer t).period, cnt := k, run := true } ∧ (0 < k → u.ret = .bool false) := by
  induction k with
  | zero => exact ⟨_, execAll_restartThenTicks_zero t s, timer_tRestart t s, fun h => absurd h (Nat.lt_irrefl 0)⟩
  | succ k ih =>
    obtain ⟨u, hu, htimer, -⟩ := ih (by omega)
    have hne : (u.timer t).cnt + 1 ≠ (u.timer t).period := by simp only [htimer]; omega
    rw [execAll_restartThenTicks_succ hu, exec_tTick_of_counts (by rw [htimer]) hne]
    refine ⟨_, rfl, ?_, fun _ => rfl⟩
    rw [htimer]
    exact State.timer_setTimer ..

/-- The `PERIOD`-th tick is reported as the expiry. -/
theorem restartThenTicks_expires {t : TimerId} {s : State} (hp : 1 ≤ (s.timer t).period) :
    ∃ u, execAll (restartThenTicks t (s.timer t).period) s = .next u ∧
      u.timer t = { period := (s.timer t).period, cnt := 0, run := false } ∧ u.ret = .bool true := by
  obtain ⟨k, hk⟩ := Nat.exists_eq_add_of_le' hp
  obtain ⟨u, hu, htimer, -⟩ := restartThenTicks_counts (t := t) (k := k) (s := s) (by omega)
  have heq : (u.timer t).cnt + 1 = (u.timer t).period := by simp only [htimer]; omega
  rw [hk, execAll_restartThenTicks_succ hu, exec_tTick_of_expires (by rw [htimer]) heq]
  refine ⟨_, rfl, ?_, rfl⟩
  rw [htimer, ← hk]
  exact State.timer_setTimer ..

/-- After its expiry the timer stands and reports nothing more. -/
theorem restartThenTicks_stands {t : TimerId} {k : Nat} {s : State} (hp : 1 ≤ (s.timer t).period)
    (hk : (s.timer t).period < k) :
    ∃ u, execAll (restartThenTicks t k) s = .next u ∧
      u.timer t = { period := (s.timer t).period, cnt := 0, run := false } ∧ u.ret = .bool false := by
  have hstands {j : Nat} {u : State} (hu : execAll (restartThenTicks t j) s = .next u)
      (htimer : u.timer t = { period := (s.timer t).period, cnt := 0, run := false }) :
      ∃ u', execAll (restartThenTicks t (j + 1)) s = .next u' ∧
        u'.timer t = { period := (s.timer t).period, cnt := 0, run := false } ∧ u'.ret = .bool false := by
    rw [execAll_restartThenTicks_succ hu, exec_tTick_of_stopped (by rw [htimer])]
    exact ⟨_, rfl, htimer ▸ State.timer_returning u t _, rfl⟩
  induction k, hk using Nat.le_induction with
  | base =>
    obtain ⟨u, hu, htimer, -⟩ := restartThenTicks_expires hp
    exact hstands hu htimer
  | succ k _ ih =>
    obtain ⟨u, hu, htimer, -⟩ := ih
    exact hstands hu htimer

/-- Settles O23: the run of a restart and `k` ticks, by whether `k` is below, at or above the period. -/
theorem timerExpiresExactlyOnce : Obligations.TimerExpiresExactlyOnce := fun _ _ hp =>
  ⟨fun _ hk => restartThenTicks_counts hk, restartThenTicks_expires hp, fun _ hk => restartThenTicks_stands hp hk⟩

/-! ## `TICK` (R115) -/

/-- A tick by what `T_TICK` reports of the two timers: the fires of those that expired run on the advanced state. -/
theorem exec_tick_of_reports {s : State} {x y : Bool} (hx : s.eomt.expires = x) (hy : s.colt.expires = y) :
    exec .tick s =
      let a := { s with eomt := s.eomt.ticked, colt := s.colt.ticked }
      let f := if x then onEomFire a else a
      .next (if y then onColFire f else f) := by
  rw [exec_tick, tick_eq, hx, hy]

/-- Settles O24: the fires follow what `T_TICK` reports of each timer, and with both stopped nothing changes. -/
theorem tickAdvancesThenFires : Obligations.TickAdvancesThenFires := by
  intro s e c he hc
  cases he
  cases hc
  refine ⟨fun hx hy => ?none, fun hx hy => ?eomt, fun hx hy => ?colt, fun hx hy => ?both, fun he hc => ?stopped⟩
  case none | eomt | colt | both => exact exec_tick_of_reports (Result.bool.inj hx) (Result.bool.inj hy)
  case stopped => rw [exec_tick, tick_of_stopped he hc]

/-- Settles O25: both fires run on that tick, and the end of the frame leaves the session as it was. -/
theorem bothTimersExpireOnOneTick : Obligations.BothTimersExpireOnOneTick := by
  intro s b h hs he hc hb
  obtain ⟨hcur, -⟩ := h.core.session.waiting hs
  refine ⟨_, exec_tick s, ?_⟩
  rw [tick_of_frameEndsRetries h hs he hc hb]
  exact ⟨rfl, rfl, rfl, rfl, rfl, congrArg (· + 1) hcur, hcur, rfl, rfl, rfl, rfl, rfl, rfl, rfl, rfl, rfl, rfl⟩

end Sys2Proof.Machine

end

/-! # The MessageQueue: eviction (R144) and the slots a push and a pop touch (R30, R140, R141) -/

section

namespace Sys2Proof

theorem Config.capacity_pos (c : Config) (q : QueueId) : 0 < c.capacity q := by
  cases q
  · exact c.nIn_pos
  · exact c.nOut_pos

end Sys2Proof

namespace Sys2Proof.Machine

/-! ## Pushes and pops in a row (R144) -/

@[simp] theorem qPush_cfg (q : QueueId) (m : ByteSeq) (s : State) : (qPush q m s).cfg = s.cfg := State.setQueue_cfg_field ..

theorem length_push_le {n : Nat} {q : Queue} (m : ByteSeq) (hn : 0 < n) (h : q.content.length ≤ n) :
    (q.push n m).content.length ≤ n :=
  Queue.push_length m hn h ▸ min_le_right ..

/-- What a first push and later ones drop comes off the front of one list. -/
theorem drop_drop_append {α : Type*} (l r : List α) {a : Nat} (b : Nat) (ha : a ≤ l.length) :
    (l.drop a ++ r).drop b = (l ++ r).drop (a + b) := by
  rw [← List.drop_append_of_le_length ha, List.drop_drop]

/-- Pushes leave the newest entries of what was held and what was pushed. -/
theorem execAll_pushes {q : QueueId} {ms : List ByteSeq} {s : State} (hms : ∀ m ∈ ms, validLength m.length)
    (h : (s.queue q).content.length ≤ s.cfg.capacity q) :
    ∃ t, execAll (ms.map (.qPush q)) s = .next t ∧
      (t.queue q).content =
        ((s.queue q).content ++ ms).drop ((s.queue q).content.length + ms.length - s.cfg.capacity q) := by
  induction ms generalizing s with
  | nil => exact ⟨s, rfl, by simp [h]⟩
  | cons m ms ih =>
    have hn := s.cfg.capacity_pos q
    have hpush := Queue.push_content m hn h
    have hlen := Queue.push_length m hn h
    obtain ⟨t, ht, hcontent⟩ := ih (s := qPush q m s) (fun x hx => hms x (.tail _ hx))
      (by rw [State.queue_qPush, qPush_cfg]; exact length_push_le m hn h)
    refine ⟨t, by rw [List.map_cons, execAll_cons (exec_qPush s (hms m (.head _)))]; exact ht, ?_⟩
    rw [hcontent, State.queue_qPush, qPush_cfg, hlen, hpush, drop_drop_append _ _ _ (by simp), List.append_assoc,
      List.singleton_append, List.length_cons]
    congr 1
    omega

/-- The operation for an entry of the list: a push of the Message, or a pop. -/
def queueOp (q : QueueId) : Option ByteSeq → Instr
  | some m => .qPush q m
  | none => .qPop q

/-- One operation keeps the bound, and leaves a suffix of what was held and what it pushed. -/
theorem exec_queueOp {q : QueueId} {o : Option ByteSeq} {s : State} (ho : ∀ m, o = some m → validLength m.length)
    (h : (s.queue q).content.length ≤ s.cfg.capacity q) :
    ∃ u, exec (queueOp q o) s = .next u ∧ u.cfg = s.cfg ∧ (u.queue q).content <:+ (s.queue q).content ++ o.toList ∧
      (u.queue q).content.length ≤ s.cfg.capacity q := by
  cases o with
  | some m =>
    have hn := s.cfg.capacity_pos q
    refine ⟨qPush q m s, exec_qPush s (ho m rfl), qPush_cfg q m s, ?_, ?_⟩ <;> rw [State.queue_qPush]
    · rw [Queue.push_content m hn h]; exact List.drop_suffix ..
    · exact length_push_le m hn h
  | none =>
    refine ⟨_, exec_qPop q s, ?_⟩
    cases hc : (s.queue q).content with
    | nil =>
      rw [qPop_of_nil hc, State.queue_returning, hc]
      exact ⟨rfl, List.suffix_rfl, Nat.zero_le _⟩
    | cons m r =>
      rw [qPop_of_cons hc, State.queue_returning, State.queue_setQueue]
      rw [hc, List.length_cons] at h
      refine ⟨State.setQueue_cfg_field .., ?_, Nat.le_of_succ_le h⟩
      rw [Option.toList_none, List.append_nil]
      exact List.suffix_cons ..

theorem execAll_queueOps {q : QueueId} {ops : List (Option ByteSeq)} {s : State}
    (hops : ∀ m, some m ∈ ops → validLength m.length) (h : (s.queue q).content.length ≤ s.cfg.capacity q) :
    ∃ t, execAll (ops.map (queueOp q)) s = .next t ∧
      (t.queue q).content <:+ (s.queue q).content ++ ops.filterMap id ∧
      (t.queue q).content.length ≤ s.cfg.capacity q := by
  induction ops generalizing s with
  | nil => exact ⟨s, rfl, by simp, h⟩
  | cons o ops ih =>
    obtain ⟨u, hu, hcfg, ⟨p, hp⟩, hlen⟩ := exec_queueOp (fun m hm => hops m (hm ▸ .head _)) h
    obtain ⟨t, ht, ⟨p', hp'⟩, hlen'⟩ := ih (fun m hm => hops m (.tail _ hm)) (hcfg ▸ hlen)
    refine ⟨t, by rw [List.map_cons, execAll_cons hu, ht], ⟨p ++ p', ?_⟩, hcfg ▸ hlen'⟩
    have hpushed : (o :: ops).filterMap id = o.toList ++ ops.filterMap id := by cases o <;> rfl
    rw [hpushed, ← List.append_assoc, ← hp, List.append_assoc, hp', List.append_assoc]

/-- Settles O30, by induction on the operations. -/
theorem evictionLaw : Obligations.EvictionLaw := by
  intro q s h
  refine ⟨fun ms hms => execAll_pushes hms h, fun ops hops => ?_⟩
  obtain ⟨t, ht, hsuffix, hlen⟩ := execAll_queueOps hops h
  refine ⟨t, ?_, hsuffix, hlen⟩
  rw [← ht]
  exact congrArg (execAll · s) (List.map_congr_left fun o _ => by cases o <;> rfl)

/-! ## The byte stores after a push and after a pop (R30) -/

/-- A write of a queue that changes no slot but `k` changes no cell outside that slot. -/
theorem cell_setQueue_of_slots {q : QueueId} {w : Queue} {s : State} {k : Nat}
    (h : ∀ k', k' ≠ k → w.slot (s.cfg.capacity q) k' = (s.queue q).slot (s.cfg.capacity q) k')
    {st : Store} (hst : st ≠ .slot q k) (i : Nat) : (s.setQueue q w).cell st i = s.cell st i := by
  cases st with
  | rxbuf => rw [State.cell_rxbuf, State.setQueue_rxbuf_field, State.cell_rxbuf]
  | txmsg => rw [State.cell_txmsg, State.setQueue_txmsg_field, State.cell_txmsg]
  | slot q' k' =>
    rw [State.cell_slot, State.setQueue_cfg_field, State.cell_slot]
    by_cases hq : q = q'
    · subst hq
      rw [State.queue_setQueue, h k' fun hk => hst (by rw [hk])]
    · rw [State.queue_setQueue_of_ne _ _ hq]

@[simp] theorem State.cell_returning (s : State) (r : Result) (st : Store) (i : Nat) :
    (returning r s).cell st i = s.cell st i := by
  cases st with
  | rxbuf | txmsg => rfl
  | slot q k => cases q <;> rfl

/-- Settles O31, from what a push and a pop leave in each slot. -/
theorem queueProceduresTouchOneSlot : Obligations.QueueProceduresTouchOneSlot := by
  intro q s t hv ho
  refine ⟨fun m hx => ?push, fun hx hne => ?pop⟩
  case push =>
    cases eq_of_ite_eq_next hx
    have hslot := Queue.slot_push m hv ho
    refine ⟨fun i => ?_, fun st i hst => cell_setQueue_of_slots (fun k hk => ?_) hst i⟩
    · rw [State.cell_slot, qPush_cfg, State.queue_qPush, hslot, if_pos rfl]; rfl
    · rw [hslot, if_neg hk]
  case pop =>
    obtain ⟨m, r, hc⟩ := List.exists_cons_of_ne_nil hne
    have hslot := Queue.slot_pop hc hv.1 ho
    have ht : t = returning _ (s.setQueue q _) := (Host.Outcome.next.inj hx).symm
    subst ht
    refine ⟨fun i => ?_, fun st i hst => ?_⟩ <;> rw [State.cell_returning]
    · rw [State.cell_slot, State.setQueue_cfg_field, State.queue_setQueue, hslot, if_pos rfl]; rfl
    · exact cell_setQueue_of_slots (fun k hk => by rw [hslot, if_neg hk]) hst i

end Sys2Proof.Machine

end

/-! # The receive side: `rx_store` (R155), the colliding byte (R156, R172, R174), the end of a frame (R157, R158, R161, R178) -/

section

namespace Sys2Proof.Machine

/-! ## `rx_store` (R155) -/

/-- The byte store as a list: its first 21 bytes are kept. -/
theorem State.stored_rxbuf {s : State} (h : s.rxbuf.length = min s.rxcnt 21) (b : Byte) :
    (s.stored b).rxbuf = (s.rxbuf ++ [b]).take 21 := by
  by_cases hlt : s.rxcnt < 21
  · have hlen : (s.rxbuf ++ [b]).length ≤ 21 := by simp; omega
    rw [List.take_of_length_le hlen]
    exact if_pos hlt
  · rw [List.take_append_of_le_length (by omega), List.take_of_length_le (by omega)]
    exact if_neg hlt

/-- The stored byte lies in the cell of the count (R22). -/
theorem State.cell_stored_self {s : State} (h : s.rxbuf.length = min s.rxcnt 21) (b : Byte) (hlt : s.rxcnt < 21) :
    (s.stored b).cell .rxbuf s.rxcnt = some b := by
  have hlen : s.rxbuf.length = s.rxcnt := by omega
  rw [State.cell_rxbuf, State.stored_rxbuf h, List.getElem?_take_of_lt hlt, ← hlen, List.getElem?_concat_length]

/-- No other cell of any store changes, and none at all once the buffer is full. -/
theorem State.cell_stored_of_ne {s : State} (h : s.rxbuf.length = min s.rxcnt 21) (b : Byte) {st : Store} {i : Nat}
    (hi : s.rxcnt < 21 → st = .rxbuf → i ≠ s.rxcnt) : (s.stored b).cell st i = s.cell st i := by
  cases st with
  | txmsg => rfl
  | slot q k => cases q <;> rfl
  | rxbuf =>
    rw [State.cell_rxbuf, State.cell_rxbuf]
    by_cases hlt : s.rxcnt < 21
    · have hne := hi hlt rfl
      have heq : (s.stored b).rxbuf = s.rxbuf ++ [b] := if_pos hlt
      rw [heq, List.getElem?_append]
      split
      · rfl
      · rw [List.getElem?_eq_none (by simp; omega), List.getElem?_eq_none (by omega)]
    · have heq : (s.stored b).rxbuf = s.rxbuf := if_neg hlt
      rw [heq]

/-- Settles O32, from the stored state and its cells. -/
theorem rxStoreBuffersAndRestartsEomTimer : Obligations.RxStoreBuffersAndRestartsEomTimer := by
  intro b s h
  have ⟨_, hbuf, _⟩ := h
  refine ⟨s.stored b, by rw [exec_rxStore, rxStore_eq_stored h], rfl, rfl, State.cell_stored_self hbuf b,
    fun st i hi => State.cell_stored_of_ne hbuf b hi, rfl⟩

/-! ## The colliding byte (R156, R172, R174) -/

/-- Settles O34: the byte is stored, then the collision is retried. -/
theorem mismatchingByteBacksOff : Obligations.MismatchingByteBacksOff := by
  intro s b mid h hs hb hg hm
  have hv := (h.core.session.present (.inl hs)).1
  refine ⟨_, exec_rxByte b s, ?_⟩
  rw [rxByte_of_backsOff h hb hg hm]
  exact ⟨rfl, rfl, rfl, State.cell_stored_self h.core.assembly.buffer b, rfl, rfl, rfl, rfl, rfl, hv, rfl, rfl, rfl, rfl,
    rfl, rfl, rfl⟩

/-! ## The end of a frame (R157, R158) -/

/-- In `COLLISION_WAIT` the backoff timer runs, so on a tick without its expiry it counts (V3, R113). -/
theorem State.CoreInv.colt_ticked_of_wait {s : State} (h : s.CoreInv) (hs : s.st = .collisionWait)
    (hc : s.colt.expires = false) : s.colt.ticked = { period := s.colt.period, cnt := s.colt.cnt + 1, run := true } :=
  Timer.ticked_of_counts (h.backoff.running_iff.mpr hs) hc

/-- Settles O35, by the two states in which a frame is disposed of and nothing is started. -/
theorem eomFireDeliversOrDropsFrame : Obligations.EomFireDeliversOrDropsFrame := by
  refine ⟨fun s h hs => ?fire, fun s h he hs hq => ?receiving, fun s h he hs hc => ?wait⟩
  case fire =>
    obtain ⟨hs, hq⟩ | hs := hs
    · rw [exec_onEomFire, onEomFire_of_receiving_eq h hs, if_pos hs]
      exact congrArg Host.Outcome.next (tryStart_of_not (.inr (.inr hq)))
    · rw [exec_onEomFire, onEomFire_of_wait_eq h hs, if_neg (by simp [hs]), ← hs]
      rfl
  case receiving =>
    rw [exec_tick, tick_of_frameEnds h hs he]
    exact congrArg Host.Outcome.next (tryStart_of_not (.inr (.inr hq)))
  case wait =>
    rw [exec_tick, tick_of_frameEndsInWait h hs he hc, h.core.colt_ticked_of_wait hs hc]
    rfl

/-- Settles O37: the end of the frame leaves the engine idle without a session, so the oldest waiting Message is started. -/
theorem eomFireStartsWaitingMessage : Obligations.EomFireStartsWaitingMessage := by
  intro s b m r hs hc
  refine ⟨fun h hv => ?fire, fun h he => ?tick⟩
  case fire =>
    rw [exec_onEomFire, onEomFire_of_receiving_eq h hs]
    exact congrArg Host.Outcome.next (tryStart_of_cons rfl hv hc)
  case tick =>
    have hv := (h.core.session.absent (.inr hs)).1
    rw [exec_tick, tick_of_frameEnds h hs he]
    exact congrArg Host.Outcome.next (tryStart_of_cons rfl hv hc)

/-! ## The end of the own frame (R178, R180) -/

/-- An untainted frame that has the Message's bytes and length does not collide. -/
theorem not_collidesAtFire {s : State} (h : s.storesWf) (htaint : s.rxtaint = false) (hbuf : s.rxbuf = s.txmsg)
    (hcnt : s.rxcnt = s.txmsg.length) : ¬ s.collidesAtFire := by
  rw [State.collidesAtFire_iff h]
  simp [htaint, hbuf, hcnt]

/-- Settles O38, by whether the frame is the Message, and if not by whether a retry is left. -/
theorem eomFireValidatesOrCollides : Obligations.EomFireValidatesOrCollides := by
  refine ⟨fun s h hs => ⟨fun htaint hbuf hcnt => ?fireMatch, fun hne => ?fireMismatch⟩, fun s h he hs =>
    ⟨fun htaint hbuf hcnt => ?tickMatch, fun hne => ⟨fun hg mid hm => ?tickRetry, fun hg => ?tickGiveUp⟩⟩⟩
  case fireMatch =>
    exact ⟨_, congrArg Host.Outcome.next (onEomFire_of_validates h hs (not_collidesAtFire h htaint hbuf hcnt)), rfl⟩
  case fireMismatch =>
    rw [exec_onEomFire, onEomFire_of_collides h ((State.collidesAtFire_iff h).mpr ⟨hs, hne⟩)]
    rfl
  case tickMatch =>
    exact ⟨_, congrArg Host.Outcome.next (tick_of_validates h hs he (not_collidesAtFire h.stores htaint hbuf hcnt)), rfl⟩
  case tickRetry =>
    rw [exec_tick, tick_of_backsOff h he ((State.collidesAtFire_iff h.stores).mpr ⟨hs, hne⟩) hg hm]
    rfl
  case tickGiveUp =>
    have hx := (State.collidesAtFire_iff h.stores).mpr ⟨hs, hne⟩
    exact ⟨_, congrArg Host.Outcome.next (tick_of_givesUp h he hx hg), rfl⟩

/-! ## Ticks between two bytes (R161) -/

theorem tickN_succ_last (n : Nat) (s : State) : tickN (n + 1) s = tick (tickN n s) := tickN_add n 1 s

/-- Without an inter-byte fire a tick writes the timers and, at the end of the backoff, the transmit side. -/
theorem tick_frame_of_no_eomFire {s : State} (he : s.eomt.expires = false) : tick s =
    { s with
      st := (tick s).st, txcur := (tick s).txcur, txlast := (tick s).txlast, out := (tick s).out,
      eomt := s.eomt.ticked, colt := (tick s).colt } := by
  cases hc : s.colt.expires with
  | false => rw [tick_of_quiet he hc]
  | true => rw [tick_of_colFire he hc]; unfold onColFire; split <;> rfl

/-- In `t`, `k` ticks after `s`, the frame of `s` is still going on. -/
structure FrameGoesOn (k : Nat) (s t : State) : Prop where
  rxbuf : t.rxbuf = s.rxbuf
  rxcnt : t.rxcnt = s.rxcnt
  inq : t.inq = s.inq
  eomt : t.eomt = { period := s.eomt.period, cnt := s.eomt.cnt + k, run := true }

/-- The frame goes on as long as the inter-byte timer counts. -/
theorem tickN_frameGoesOn {k : Nat} {s : State} (hr : s.eomt.run = true) (hk : s.eomt.cnt + k < s.eomt.period) :
    FrameGoesOn k s (tickN k s) := by
  induction k with
  | zero => exact ⟨rfl, rfl, rfl, by rw [Nat.add_zero, ← hr]; rfl⟩
  | succ k ih =>
    obtain ⟨hbuf, hcnt, hinq, heomt⟩ := ih (by omega)
    have he : (tickN k s).eomt.expires = false := Timer.expires_of_ne (by rw [heomt]; simp only; omega)
    have hticked := Timer.ticked_of_counts (t := (tickN k s).eomt) (by rw [heomt]) he
    rw [tickN_succ_last, tick_frame_of_no_eomFire he]
    exact ⟨hbuf, hcnt, hinq, hticked.trans (by rw [heomt, Nat.add_assoc])⟩

/-- The tick on which a running inter-byte timer expires comes. -/
theorem exists_tickN_eomFire {s : State} (hr : s.eomt.run = true) (hlt : s.eomt.cnt < s.eomt.period) :
    ∃ n, s.eomt.cnt + n + 1 = s.eomt.period ∧ (tickN n s).eomt.expires = true := by
  obtain ⟨n, hn⟩ : ∃ n, s.eomt.cnt + n + 1 = s.eomt.period := ⟨s.eomt.period - s.eomt.cnt - 1, by omega⟩
  refine ⟨n, hn, ?_⟩
  rw [(tickN_frameGoesOn (k := n) hr (by omega)).eomt, Timer.expires_iff]
  exact ⟨rfl, hn⟩

theorem tickOutcome_rxcnt_of_eomFire {s t : State} (he : s.eomt.expires = true) (ho : s.TickOutcome t) : t.rxcnt = 0 := by
  cases ho with
  | quiet he' | retries _ he' => rw [he] at he'; cases he'
  | frameEnds | validates | givesUp => exact (tryStart_keepsReceiveSide _).rxcnt
  | backsOff | frameEndsInWait | frameEndsRetries => rfl

/-- An empty assembly stays empty however many ticks pass: the inter-byte timer stands (V1). -/
theorem tickN_rxcnt_of_empty (n : Nat) {s : State} (h : s.Inv) (h0 : s.rxcnt = 0) : (tickN n s).rxcnt = 0 := by
  induction n with
  | zero => exact h0
  | succ n ih =>
    have hrun : (tickN n s).eomt.run = false := (tickN_inv n h).core.assembly.stopped_iff.mpr ih
    rw [tickN_succ_last, (tick_keepsReceiveSide (Timer.ticked_of_stopped hrun).2).rxcnt, ih]

/-- Once the inter-byte timer has counted its period the assembly is empty. -/
theorem tickN_rxcnt_of_elapsed {k : Nat} {s : State} (h : s.Inv) (hr : s.eomt.run = true)
    (hk : s.eomt.period ≤ s.eomt.cnt + k) : (tickN k s).rxcnt = 0 := by
  obtain ⟨n, hn, he⟩ := exists_tickN_eomFire hr h.core.assembly.timer.cnt_lt
  obtain ⟨r, rfl⟩ : ∃ r, k = n + 1 + r := ⟨k - (n + 1), by omega⟩
  have hfired := tickOutcome_rxcnt_of_eomFire he (tick_outcome (tickN_inv n h))
  rw [tickN_add]
  refine tickN_rxcnt_of_empty r (tickN_inv _ h) ?_
  rw [tickN_succ_last, hfired]

/-- The engine neither sends nor has anything to send. -/
def State.NotSending (s : State) : Prop := (s.st = .idle ∨ s.st = .receiving) ∧ s.outq.content = []

theorem tickOutcome_notSending {s t : State} (h : s.NotSending) (ho : s.TickOutcome t) : t.NotSending := by
  obtain ⟨hst, hq⟩ := h
  cases ho with
  | quiet => exact ⟨hst, hq⟩
  | frameEnds =>
    rw [tryStart_of_not (s := { s.disposed with st := .idle }) (.inr (.inr hq))]
    exact ⟨.inl rfl, hq⟩
  | validates hs | backsOff hs | givesUp hs | frameEndsInWait hs | retries hs | frameEndsRetries hs =>
    rw [hs] at hst; simp at hst

theorem tickN_notSending (n : Nat) {s : State} (h : s.Inv) (hn : s.NotSending) : (tickN n s).NotSending := by
  induction n with
  | zero => exact hn
  | succ n ih => rw [tickN_succ_last]; exact tickOutcome_notSending ih (tick_outcome (tickN_inv n h))

/-- Two writes to a buffer of `n` cells keep the first `n` bytes of both. -/
theorem take_take_append {α : Type*} (l r : List α) (n : Nat) : (l.take n ++ r).take n = (l ++ r).take n := by
  rw [List.take_append, List.take_append, List.take_take, min_self, List.length_take]
  congr 2
  omega

/-- A received byte joins the assembly in every state. -/
theorem rxByte_assembly {s : State} (h : s.Inv) (b : Byte) :
    (rxByte b s).rxbuf = (s.rxbuf ++ [b]).take 21 ∧ (rxByte b s).rxcnt = min (s.rxcnt + 1) 22 ∧
      (rxByte b s).eomt = { period := s.eomt.period, cnt := 0, run := true } := by
  rw [← State.stored_rxbuf h.core.assembly.buffer]
  have ho := rxByte_outcome h b
  generalize rxByte b s = t at ho
  cases ho <;> exact ⟨rfl, rfl, rfl⟩

theorem rxByte_notSending {s : State} (h : s.NotSending) (b : Byte) :
    (rxByte b s).st = .receiving ∧ (rxByte b s).outq = s.outq := by
  obtain ⟨hs | hs, -⟩ := h
  · rw [rxByte_of_idle b hs, rxStore_frame]; exact ⟨rfl, rfl⟩
  · rw [rxByte_of_receiving b hs, rxStore_frame]; exact ⟨hs, rfl⟩

/-- Settles O39: the first byte restarts the inter-byte timer, and the ticks between the bytes end the frame exactly if they reach
its period. -/
theorem interByteRule : Obligations.InterByteRule := by
  intro s b b' k h
  have hu := rxByte_inv h b
  have hv := tickN_inv k hu
  obtain ⟨hbuf, hcnt, heomt⟩ := rxByte_assembly h b
  obtain ⟨hbuf', hcnt', -⟩ := rxByte_assembly hv b'
  have hperiod : (rxByte b s).eomt.period = s.cfg.eomTicks := by rw [heomt]; exact h.core.assembly.period
  refine ⟨rxByte b' (tickN k (rxByte b s)), ?run, fun hk => ?sameFrame, fun hk => ?newFrame, fun hs hq => ?receiving⟩
  case run =>
    rw [execAll_cons (exec_rxByte b s), execAll_append (execAll_replicate_tick k _), execAll_cons (exec_rxByte b' _),
      execAll_nil]
  case sameFrame =>
    obtain ⟨hb, hc, hi, -⟩ := tickN_frameGoesOn (k := k) (s := rxByte b s) (by rw [heomt]) (by rw [hperiod, heomt]; simpa)
    refine ⟨by rw [hcnt', hc, hcnt]; omega, ?_, by rw [rxByte_inq, hi, rxByte_inq]⟩
    rw [hbuf', hb, hbuf, take_take_append, List.append_assoc, List.singleton_append]
  case newFrame =>
    have h0 := tickN_rxcnt_of_elapsed (k := k) hu (by rw [heomt]) (by rw [hperiod, heomt]; simpa)
    have hnil : (tickN k (rxByte b s)).rxbuf = [] := by
      rw [← List.length_eq_zero_iff, hv.core.assembly.buffer, h0]; rfl
    rw [hcnt', h0, hbuf', hnil]
    exact ⟨rfl, rfl⟩
  case receiving =>
    obtain ⟨hst, hout⟩ := rxByte_notSending ⟨hs, hq⟩ b
    exact (rxByte_notSending (tickN_notSending k hu ⟨.inr hst, hout ▸ hq⟩) b').1

end Sys2Proof.Machine

end

/-! # The transmit side: start (R170), send (R171), echo (R172), collision (R174), retry (R177, R182) -/

section

namespace Sys2Proof.Machine

@[simp] theorem exec_sendNext (s : State) : exec .sendNext s = .next (sendNext s) := rfl

/-! ## The procedures -/

/-- Settles O40, by whether the engine is idle, without a session, with a Message waiting. -/
theorem tryStartDequeuesWhenIdle : Obligations.TryStartDequeuesWhenIdle := by
  refine ⟨fun s b m r hs hv hc => ?start, fun s hnot => ?nothing⟩
  case start => rw [exec_tryStart, tryStart_of_cons hs hv hc]
  case nothing => rw [exec_tryStart, tryStart_of_not hnot]

/-- Settles O41: the cell under the cursor holds the byte that is read. -/
theorem sendNextEmitsByteUnderCursor : Obligations.SendNextEmitsByteUnderCursor := by
  intro s b hb
  rw [exec_sendNext, sendNext_of_some hb]

/-- Settles O42, by the comparison and whether the cursor has reached the end. -/
theorem echoCompareMatchesOrCollides : Obligations.EchoCompareMatchesOrCollides := by
  intro s b e he
  refine ⟨fun hb x hx => ?next, fun hb hx => ?last, fun hb => ?mismatch⟩
  case next => rw [exec_echoCompare, echoCompare_match (hb ▸ he) hx]
  case last => rw [exec_echoCompare, echoCompare_last (hb ▸ he) hx]
  case mismatch => rw [exec_echoCompare, echoCompare_mismatch he hb, exec_collision]

/-- Settles O43, by the configured bound and the retries already made. -/
theorem collisionSchedulesRetry : Obligations.CollisionSchedulesRetry := by
  intro s mid hm
  refine ⟨fun h0 => ?unbounded, fun h0 hlt => ?bounded, fun h0 hle => ?reached⟩
  case unbounded =>
    rw [exec_collision, collision_eq_backedOff (fun hg => hg.1 h0) hm, State.backedOff, if_pos h0]
  case bounded =>
    rw [exec_collision, collision_eq_backedOff (fun hg => Nat.not_lt.mpr hg.2 hlt) hm, State.backedOff, if_neg h0]
  case reached => rw [exec_collision, collision_of_limit ⟨h0, hle⟩, exec_giveUp]

/-! ## The backoff without a byte (R174, R177, R182) -/

/-- In `t`, `k` ticks after `s`, the engine is still backing off and has sent nothing. -/
structure BackingOff (k : Nat) (s t : State) : Prop where
  st : t.st = .collisionWait
  out : t.out = s.out
  txmsg : t.txmsg = s.txmsg
  colt : t.colt = { period := s.colt.period, cnt := s.colt.cnt + k, run := true }

/-- A tick on which the backoff timer does not expire counts on, whether or not a frame ends. -/
theorem tickOutcome_backingOff {s t : State} (h : s.CoreInv) (hs : s.st = .collisionWait) (hc : s.colt.expires = false)
    (ho : s.TickOutcome t) : BackingOff 1 s t := by
  have hcolt := h.colt_ticked_of_wait hs hc
  cases ho with
  | quiet | frameEndsInWait => exact ⟨hs, rfl, rfl, hcolt⟩
  | frameEnds hs' | validates hs' | backsOff hs' | givesUp hs' => rw [hs] at hs'; cases hs'
  | retries _ _ hc' | frameEndsRetries _ _ hc' => rw [hc] at hc'; cases hc'

theorem tickN_backingOff {k : Nat} {s : State} (h : s.Inv) (hs : s.st = .collisionWait)
    (hk : s.colt.cnt + k < s.colt.period) : BackingOff k s (tickN k s) := by
  induction k with
  | zero =>
    have hr := h.core.backoff.running_iff.mpr hs
    exact ⟨hs, rfl, rfl, by rw [Nat.add_zero, ← hr]; rfl⟩
  | succ k ih =>
    obtain ⟨hst, hout, hmsg, hcolt⟩ := ih (by omega)
    have hinv := tickN_inv k h
    have hc : (tickN k s).colt.expires = false := Timer.expires_of_ne (by rw [hcolt]; simp only; omega)
    obtain ⟨hst', hout', hmsg', hcolt'⟩ := tickOutcome_backingOff hinv.core hst hc (tick_outcome hinv)
    rw [tickN_succ_last]
    exact ⟨hst', hout'.trans hout, hmsg'.trans hmsg, by rw [hcolt', hcolt, Nat.add_assoc]⟩

/-- The tick on which the backoff timer expires sends byte 0 again, whether or not a frame ends. -/
theorem tickOutcome_retries {s t : State} {b : Byte} (h : s.CoreInv) (hc : s.colt.expires = true)
    (hb : s.txmsg[0]? = some b) (ho : s.TickOutcome t) :
    t.st = .transmitting ∧ t.out = s.out ++ [.send b] ∧ t.txmsg = s.txmsg ∧ t.txcur = 1 ∧ t.txlast = 0 := by
  have hs := h.wait_of_expires hc
  obtain ⟨hcur, -⟩ := h.session.waiting hs
  cases ho with
  | retries _ _ _ hb' | frameEndsRetries _ _ _ hb' =>
    rw [hb] at hb'
    cases hb'
    exact ⟨rfl, rfl, rfl, congrArg (· + 1) hcur, hcur⟩
  | frameEnds hs' | validates hs' | backsOff hs' | givesUp hs' => rw [hs] at hs'; cases hs'
  | quiet _ hc' | frameEndsInWait _ _ hc' => rw [hc] at hc'; cases hc'

/-- Settles O49: the timer counts up to its last tick, and that tick is the retry. -/
theorem retryBeginsWhenBackoffElapses : Obligations.RetryBeginsWhenBackoffElapses := by
  intro s b h hs hb
  refine ⟨fun j hj => ?waiting, ?retry⟩
  case waiting =>
    obtain ⟨hst, hout, hmsg, -⟩ := tickN_backingOff (k := j) h hs (by omega)
    exact ⟨_, execAll_replicate_tick j s, hst, hout, hmsg⟩
  case retry =>
    have hlt := h.core.backoff.timer.cnt_lt
    obtain ⟨n, hn⟩ : ∃ n, s.colt.period - s.colt.cnt = n + 1 := ⟨s.colt.period - s.colt.cnt - 1, by omega⟩
    obtain ⟨-, hout, hmsg, hcolt⟩ := tickN_backingOff (k := n) h hs (by omega)
    have hc : (tickN n s).colt.expires = true := by
      rw [hcolt, Timer.expires_iff]; exact ⟨rfl, by simp only; omega⟩
    have hinv := tickN_inv n h
    obtain ⟨hst', hout', hmsg', hcur, hlast⟩ := tickOutcome_retries hinv.core hc (hmsg ▸ hb) (tick_outcome hinv)
    rw [hn, execAll_replicate_tick, tickN_succ_last]
    exact ⟨_, rfl, hst', by rw [hout', hout], hmsg'.trans hmsg, hcur, hlast⟩

end Sys2Proof.Machine

end

/-! # The host boundary: `WRITE_MSG` (R195), `READ_MSG` (R196), the output records (R85), stimuli of one instant (R238) -/

section

namespace Sys2Proof.Machine

/-! ## `WRITE_MSG` -/

/-- In `IDLE` nothing waits, so the Message written is the one that is started. -/
theorem writeMsg_of_idle {b : Byte} {m : ByteSeq} {s : State} (h : s.Inv) (hs : s.st = .idle)
    (hm : validLength (b :: m).length) :
    writeMsg (b :: m) s = { s with
      outq := { content := [], oldest := (s.outq.oldest + 1) % s.cfg.nOut, newest := (s.outq.newest + 1) % s.cfg.nOut },
      txvalid := true, txmsg := b :: m, txcur := 1, txlast := 0, retrycnt := 0, st := .transmitting,
      out := s.out ++ [.send b] } := by
  have hv := (h.core.session.absent (.inl hs)).1
  have hq := h.outq_of_idle hs
  have hroom : s.outq.content.length ≠ s.cfg.nOut := by
    rw [hq]; exact (Nat.ne_of_gt s.cfg.nOut_pos).symm
  rw [writeMsg_of_valid hm, Queue.push_of_room _ hroom, hq]
  exact tryStart_of_cons hs hv rfl

/-- Settles O51, by the length and by whether the engine is idle. -/
theorem writeMsgQueuesOrStarts : Obligations.WriteMsgQueuesOrStarts := by
  refine ⟨fun n r hn => decode_writeMsg (takeSeq_of_le hn), fun m s hm => ?dropped, fun m s h2 h21 hs => ?queued,
    fun b m s h1 h20 h hs => ?started⟩
  case dropped => rw [exec_writeMsg, writeMsg_of_invalid (by rw [validLength_iff]; omega)]
  case queued => rw [exec_writeMsg, writeMsg_of_not_idle ⟨h2, h21⟩ hs]
  case started =>
    have hm : validLength (b :: m).length := by rw [validLength_iff, List.length_cons]; omega
    rw [exec_writeMsg, writeMsg_of_idle h hs hm]

/-! ## `READ_MSG` -/

/-- The record of an answer that is a Message (R85, R196). -/
theorem encode_rspMsg {m : ByteSeq} (h : validLength m.length) :
    encode (.rspMsg m) = some (0x90#8 :: BitVec.ofNat 8 m.length :: m) := if_pos (.inr h)

/-- Settles O52, by whether `INQ` holds a Message. -/
theorem readMsgAnswersOldest : Obligations.ReadMsgAnswersOldest := by
  refine fun s => ⟨fun r => rfl, rfl, fun hv m hm => ?record, fun hc => ?empty, fun m r hc => ?message⟩
  case record =>
    obtain ⟨-, -, -, hall⟩ := hv
    obtain ⟨h2, h21⟩ := hall m hm
    exact ⟨h2, h21, encode_rspMsg ⟨h2, h21⟩⟩
  case empty => rw [exec_readMsg, readMsg_of_nil hc]
  case message => rw [exec_readMsg, readMsg_of_cons hc]

/-! ## The output records -/

/-- Settles O55, from the three operations and their operands' checks. -/
theorem outputRecordsAreAppended : Obligations.OutputRecordsAreAppended :=
  ⟨fun _ _ => rfl, fun _ _ hm => if_pos hm, fun _ _ hv => if_pos hv⟩

/-! ## Stimuli of one instant (R118, R238, R268) -/

theorem applyInstant_rx_tick (b : Byte) (s : State) :
    applyInstant { rx := some b, tick := true } s = .next (tick (rxByte b s)) := rfl

theorem applyInstant_tick_write (m : ByteSeq) (s : State) :
    applyInstant { tick := true, host := some (.write m) } s = .next (writeMsg m (tick s)) := rfl

/-- Settles O59: the byte restarts the timer before the tick can end the frame; the Message finds the engine idle after it. -/
theorem simultaneousStimuliAtTheFire : Obligations.SimultaneousStimuliAtTheFire := by
  intro s h hs he hq
  refine ⟨fun b => ?byte, fun b m h1 h20 => ?message⟩
  case byte =>
    obtain ⟨-, hcnt, heomt⟩ := rxByte_assembly h b
    have hst := (rxByte_notSending ⟨.inr hs, hq⟩ b).1
    have hcolt : (rxByte b s).colt.run = false := (rxByte_inv h b).core.backoff.stopped (by simp [hst])
    have hperiod : 11 ≤ s.eomt.period := h.core.assembly.period ▸ s.cfg.eomTicks_range.1
    have hexp : (rxByte b s).eomt.expires = false := Timer.expires_of_ne (by rw [heomt]; simp only; omega)
    obtain ⟨-, hc⟩ := Timer.ticked_of_stopped hcolt
    have hticked := Timer.ticked_of_counts (by rw [heomt]) hexp
    refine ⟨_, applyInstant_rx_tick b s, ?_⟩
    rw [tick_of_quiet hexp hc]
    exact ⟨hst, hcnt, rxByte_inq b s, hticked.trans (by rw [heomt])⟩
  case message =>
    have hm : validLength (b :: m).length := by rw [validLength_iff, List.length_cons]; omega
    have hidle : tick s = { s.disposed with st := .idle } :=
      (tick_of_frameEnds h hs he).trans (tryStart_of_not (.inr (.inr hq)))
    have hinv : State.Inv { s.disposed with st := .idle } := hidle ▸ tick_inv h
    refine ⟨_, applyInstant_tick_write _ s, ?_⟩
    rw [hidle, writeMsg_of_idle hinv rfl hm]
    exact ⟨rfl, rfl, rfl, rfl⟩

end Sys2Proof.Machine

end

/-! # A Message and its echoes: the quiet bus (R184) and the test Transports (R133) -/

section

namespace Sys2Proof.Machine

/-! ## The session after some echoes -/

/-- In `t` the Message `m` written in the idle state `s` is being sent, and its first `i` bytes have been echoed. -/
structure Echoed (s : State) (m : ByteSeq) (i : Nat) (t : State) : Prop where
  inv : t.Inv
  st : t.st = .transmitting
  txmsg : t.txmsg = m
  txcur : t.txcur = min (i + 1) m.length
  rxbuf : t.rxbuf = m.take i
  rxcnt : t.rxcnt = i
  rxtaint : t.rxtaint = false
  out : t.out = s.out ++ (m.take (i + 1)).map .send
  cfg : t.cfg = s.cfg
  inq : t.inq = s.inq
  outq : t.outq.content = []
  colt : t.colt = s.colt
  retrycnt : t.retrycnt = 0

theorem writeMsg_echoed {s : State} {m : ByteSeq} (h : s.Inv) (hs : s.st = .idle) (hm : validLength m.length) :
    Echoed s m 0 (writeMsg m s) := by
  have hinv := writeMsg_inv h m
  have hcnt := h.core.phase.idle hs
  have hbuf : s.rxbuf = [] := by
    rw [← List.length_eq_zero_iff, h.core.assembly.buffer, hcnt]; rfl
  match m with
  | [] => exact absurd hm.1 (by decide)
  | b :: m =>
    have hone : min (0 + 1) (b :: m).length = 1 := Nat.min_eq_left (Nat.le_add_left ..)
    rw [writeMsg_of_idle h hs hm] at hinv ⊢
    exact ⟨hinv, rfl, rfl, hone.symm, hbuf, hcnt, h.core.assembly.clean hcnt, rfl, rfl, rfl, rfl, rfl, rfl⟩

section echoed
variable {s t : State} {m : ByteSeq} {i : Nat}

theorem Echoed.validLength (h : Echoed s m i t) : validLength m.length := by
  have hlen := (h.inv.core.session.present (.inl h.st)).2
  rwa [h.txmsg] at hlen

/-- The byte last sent is the one whose echo comes next. -/
theorem Echoed.txlast (h : Echoed s m i t) (hi : i < m.length) : t.txlast = i := by
  obtain ⟨-, -, hlast⟩ := h.inv.core.session.sending h.st
  rw [hlast, h.txcur]
  omega

/-- The right echo of byte `i` makes byte `i + 1`, if there is one, be sent. -/
theorem Echoed.rxByte_right {b : Byte} (h : Echoed s m i t) (hb : m[i]? = some b) : Echoed s m (i + 1) (rxByte b t) := by
  have hi : i < m.length := (List.getElem?_eq_some_iff.mp hb).1
  have h21 : m.length ≤ 21 := h.validLength.2
  have hcell : t.txmsg[t.txlast]? = some b := by rw [h.txlast hi, h.txmsg, hb]
  have hinv := rxByte_inv h.inv b
  obtain ⟨hbuf, hcnt, -⟩ := rxByte_assembly h.inv b
  have hbuf' : (rxByte b t).rxbuf = m.take (i + 1) := by
    have htake : m.take i ++ [b] = m.take (i + 1) := by rw [List.take_add_one, hb]; rfl
    rw [hbuf, h.rxbuf, htake, List.take_of_length_le]
    exact (List.length_take_le' ..).trans h21
  have hcnt' : (rxByte b t).rxcnt = i + 1 := by rw [hcnt, h.rxcnt]; omega
  rcases Nat.lt_or_ge (i + 1) m.length with hlt | hge
  · have hx : t.txmsg[t.txcur]? = some m[i + 1] := by
      rw [h.txmsg, h.txcur, Nat.min_eq_left hi, List.getElem?_eq_getElem hlt]
    have hout : t.out ++ [.send m[i + 1]] = s.out ++ (m.take (i + 1 + 1)).map .send := by
      rw [h.out, List.take_add_one (i := i + 1), List.getElem?_eq_getElem hlt, List.map_append, List.append_assoc]; rfl
    rw [rxByte_of_echoed h.inv.stores h.st hcell hx] at hinv hbuf' hcnt' ⊢
    exact ⟨hinv, h.st, h.txmsg, by simp only [State.sentByte, State.stored, h.txcur]; omega, hbuf', hcnt', h.rxtaint, hout,
      h.cfg, h.inq, h.outq, h.colt, h.retrycnt⟩
  · have hcur : t.txmsg.length ≤ t.txcur := by rw [h.txmsg, h.txcur]; omega
    have hout : t.out = s.out ++ (m.take (i + 1 + 1)).map .send := by
      rw [h.out, List.take_of_length_le hge, List.take_of_length_le (by omega)]
    rw [rxByte_of_echoedLast h.inv.stores h.st hcell hcur] at hinv hbuf' hcnt' ⊢
    exact ⟨hinv, h.st, h.txmsg, by simp only [State.stored, h.txcur]; omega, hbuf', hcnt', h.rxtaint, hout, h.cfg, h.inq,
      h.outq, h.colt, h.retrycnt⟩

/-- The inter-byte timer may take any value the invariant allows. -/
theorem Echoed.withEomt {e : Timer} (h : Echoed s m i t) (hinv : State.Inv { t with eomt := e }) :
    Echoed s m i { t with eomt := e } :=
  ⟨hinv, h.st, h.txmsg, h.txcur, h.rxbuf, h.rxcnt, h.rxtaint, h.out, h.cfg, h.inq, h.outq, h.colt, h.retrycnt⟩

/-- A tick that ends no frame leaves the session as it is: the backoff timer stands. -/
theorem Echoed.tick_of_no_fire (h : Echoed s m i t) (he : t.eomt.expires = false) :
    Echoed s m i (tick t) ∧ (tick t).eomt = t.eomt.ticked := by
  obtain ⟨hticked, hc⟩ := Timer.ticked_of_stopped (h.inv.core.backoff.stopped (by simp [h.st]))
  have hinv := tick_inv h.inv
  have htick : tick t = { t with eomt := t.eomt.ticked } := by rw [tick_of_quiet he hc, hticked]
  rw [htick] at hinv ⊢
  exact ⟨h.withEomt hinv, rfl⟩

/-- Before the first echo the inter-byte timer stands, and no tick does anything. -/
theorem Echoed.ticks_of_stopped (h : Echoed s m i t) (hr : t.eomt.run = false) (k : Nat) : tickN k t = t :=
  tickN_of_stopped k hr (h.inv.core.backoff.stopped (by simp [h.st]))

/-- Fewer ticks than the inter-byte timer has left. -/
theorem Echoed.ticks (h : Echoed s m i t) (hr : t.eomt.run = true) {k : Nat} (hk : t.eomt.cnt + k < t.eomt.period) :
    Echoed s m i (tickN k t) := by
  induction k with
  | zero => exact h
  | succ k ih =>
    have heomt := (tickN_frameGoesOn (k := k) hr (by omega)).eomt
    have he : (tickN k t).eomt.expires = false := Timer.expires_of_ne (by rw [heomt]; simp only; omega)
    rw [tickN_succ_last]
    exact ((ih (by omega)).tick_of_no_fire he).1

end echoed

/-! ## The quiet bus (R184) -/

/-- The inter-byte timer has not counted since it was started, or stands. -/
def State.Fresh (t : State) : Prop := t.eomt.run = false ∨ t.eomt.cnt = 0

/-- A gap shorter than the inter-byte window, then the right echo. -/
theorem Echoed.gap_rxByte {s t : State} {m : ByteSeq} {i g : Nat} {b : Byte} (h : Echoed s m i t) (hf : t.Fresh)
    (hg : g < s.cfg.eomTicks) (hb : m[i]? = some b) :
    Echoed s m (i + 1) (rxByte b (tickN g t)) ∧ State.Fresh (rxByte b (tickN g t)) := by
  have hgap : Echoed s m i (tickN g t) := by
    cases hr : t.eomt.run with
    | false => rwa [h.ticks_of_stopped hr]
    | true =>
      have hcnt : t.eomt.cnt = 0 := hf.resolve_left (by simp [hr])
      refine h.ticks hr ?_
      rw [hcnt, h.inv.core.assembly.period, h.cfg]
      omega
  obtain ⟨-, -, heomt⟩ := rxByte_assembly hgap.inv b
  exact ⟨hgap.rxByte_right hb, .inr (by rw [heomt])⟩

/-- The stimuli of a quiet bus: before each byte's echo some ticks. -/
def echoStimuli (gaps : List Nat) (bytes : ByteSeq) : List Instr :=
  (List.zipWith (fun g b => List.replicate g .tick ++ [.rxByte b]) gaps bytes).flatten

/-- Short gaps and right echoes carry the session on from byte `i` to its last byte. -/
theorem execAll_echoStimuli {s t : State} {m rest : ByteSeq} {i : Nat} {gaps : List Nat} (h : Echoed s m i t)
    (hf : t.Fresh) (hrest : m.drop i = rest) (hlen : gaps.length = rest.length) (hg : ∀ g ∈ gaps, g < s.cfg.eomTicks) :
    ∃ u, execAll (echoStimuli gaps rest) t = .next u ∧ Echoed s m (i + rest.length) u ∧ u.Fresh := by
  induction rest generalizing i t gaps with
  | nil => exact ⟨t, by rw [List.length_eq_zero_iff.mp hlen]; rfl, h, hf⟩
  | cons b rest ih =>
    match gaps, hlen with
    | g :: gaps, hlen =>
      have hb : m[i]? = some b := by rw [← List.head?_drop, hrest]; rfl
      have hrest' : m.drop (i + 1) = rest := by rw [← List.drop_drop, hrest]; rfl
      obtain ⟨h', hf'⟩ := h.gap_rxByte hf (hg g (.head _)) hb
      obtain ⟨u, hu, hend, hfend⟩ := ih h' hf' hrest' (Nat.succ.inj hlen) fun g' hg' => hg g' (.tail _ hg')
      refine ⟨u, ?_, by rwa [List.length_cons, Nat.add_comm rest.length, ← Nat.add_assoc], hfend⟩
      have hcons : echoStimuli (g :: gaps) (b :: rest) =
          List.replicate g .tick ++ (.rxByte b :: echoStimuli gaps rest) := by simp [echoStimuli]
      rw [hcons, execAll_append (execAll_replicate_tick g t), execAll_cons (exec_rxByte b _), hu]

/-- What the fire after the last echo leaves: the Message delivered, the session over, the engine idle. -/
structure Delivered (s : State) (m : ByteSeq) (t : State) : Prop where
  inv : t.Inv
  st : t.st = .idle
  out : t.out = s.out ++ m.map .send
  inq : t.inq = s.inq.push s.cfg.nIn m
  outq : t.outq.content = []
  colt : t.colt = s.colt
  retrycnt : t.retrycnt = 0

theorem Echoed.tick_delivers {s t : State} {m : ByteSeq} (h : Echoed s m m.length t) (he : t.eomt.expires = true) :
    Delivered s m (tick t) := by
  have hbuf : t.rxbuf = t.txmsg := by rw [h.rxbuf, h.txmsg, List.take_length]
  have hx := not_collidesAtFire h.inv.stores h.rxtaint hbuf (by rw [h.rxcnt, h.txmsg])
  have hinv := tick_inv h.inv
  have htick : tick t = State.withoutSession .idle { t.frameEnded with inq := t.inq.push t.cfg.nIn t.txmsg } :=
    (tick_of_validates h.inv h.st he hx).trans (tryStart_of_not (.inr (.inr h.outq)))
  have hout : t.out = s.out ++ m.map .send := by rw [h.out, List.take_of_length_le (Nat.le_succ _)]
  have hinq : t.inq.push t.cfg.nIn t.txmsg = s.inq.push s.cfg.nIn m := by rw [h.inq, h.cfg, h.txmsg]
  rw [htick] at hinv ⊢
  exact ⟨hinv, rfl, hout, hinq, h.outq, h.colt, rfl⟩

/-- In `IDLE` both timers stand. -/
theorem tickN_of_idle {t : State} (h : t.Inv) (hs : t.st = .idle) (k : Nat) : tickN k t = t :=
  tickN_of_stopped k (h.core.assembly.stopped_iff.mpr (h.core.phase.idle hs)) (h.core.backoff.stopped (by simp [hs]))

/-- The inter-byte window after the last echo delivers the Message, and further ticks do nothing. -/
theorem Echoed.ticks_deliver {s t : State} {m : ByteSeq} {k : Nat} (h : Echoed s m m.length t) (hf : t.Fresh)
    (hk : s.cfg.eomTicks ≤ k) : Delivered s m (tickN k t) := by
  obtain ⟨h2, -⟩ := h.validLength
  have hr : t.eomt.run = true := h.inv.core.assembly.running_iff.mpr (by rw [h.rxcnt]; exact le_trans (by decide) h2)
  have hcnt : t.eomt.cnt = 0 := hf.resolve_left (by simp [hr])
  have hperiod : t.eomt.period = s.cfg.eomTicks := by rw [h.inv.core.assembly.period, h.cfg]
  obtain ⟨n, hn, he⟩ := exists_tickN_eomFire hr h.inv.core.assembly.timer.cnt_lt
  obtain ⟨r, rfl⟩ : ∃ r, k = n + 1 + r := ⟨k - (n + 1), by omega⟩
  have hdelivered := (h.ticks hr (k := n) (by omega)).tick_delivers he
  rw [← tickN_succ_last] at hdelivered
  rwa [tickN_add, tickN_of_idle hdelivered.inv hdelivered.st]

/-- Settles O50: the write sends byte 0, each echo the next byte, and the window after the last echo delivers the Message. -/
theorem quietBusDeliversMessageOnce : Obligations.QuietBusDeliversMessageOnce := by
  intro s m gaps k h hs h2 h21 hlen hg hk
  have hwritten := writeMsg_echoed h hs ⟨h2, h21⟩
  have hfresh : State.Fresh (writeMsg m s) :=
    .inl (hwritten.inv.core.assembly.stopped_iff.mpr hwritten.rxcnt)
  obtain ⟨u, hu, hechoed, hf⟩ := execAll_echoStimuli hwritten hfresh rfl hlen hg
  rw [List.drop_zero, Nat.zero_add] at hechoed
  obtain ⟨hinv, hst, hout, hinq, hoq, hcolt, hret⟩ := hechoed.ticks_deliver hf hk
  refine ⟨tickN k u, ?_, hst, (hinv.core.session.absent (.inl hst)).1, hinv.core.phase.idle hst, hout, hinq, hoq, hcolt, hret⟩
  rw [execAll_cons (exec_writeMsg m s)]
  exact (execAll_append hu).trans (execAll_replicate_tick k u)

/-! ## Test runs (R126, R133) -/

/-- The run that waits for the echo of byte `i`: the Transport has answered the `SEND` of that byte, if there is one. -/
def echoRun (faults : List (Nat × Byte)) (m : ByteSeq) (i : Nat) (t : State) : TestRun :=
  { faults := faults, sends := min (i + 1) m.length, pending := faulting faults i (m[i]?.toList.map .send), script := []
    state := t }

theorem echoRun_pending {faults : List (Nat × Byte)} {m : ByteSeq} {i : Nat} {b : Byte} (t : State) (hb : m[i]? = some b) :
    (echoRun faults m i t).pending = [.rxByte (echoOf faults i b), .txDone] := by
  rw [echoRun, hb]; rfl

/-- After the last byte nothing is pending. -/
theorem echoRun_pending_nil {faults : List (Nat × Byte)} {m : ByteSeq} {i : Nat} (t : State) (hi : m.length ≤ i) :
    (echoRun faults m i t).pending = [] := by
  rw [echoRun, List.getElem?_eq_none hi]; rfl

/-- An operation that emits nothing is not answered. -/
theorem answered_of_out_eq {r : TestRun} {t : State} (h : t.out = r.state.out) : r.answered t = { r with state := t } := by
  rw [TestRun.answered, h, List.drop_length]
  simp [sendCount, faulting]

/-- What the Transport adds for the outputs `os`. -/
theorem answered_of_out_append {r : TestRun} {t : State} {os : List Output} (h : t.out = r.state.out ++ os) :
    r.answered t =
      { r with sends := r.sends + sendCount os, pending := r.pending ++ faulting r.faults r.sends os, state := t } := by
  rw [TestRun.answered, h, List.drop_left]

/-- A stimulus and the transmit-complete that follows it, the script at its end. -/
theorem run_pending_txDone {n : Nat} {r : TestRun} {i : Instr} {t : State} {os : List Output}
    (hp : r.pending = [i, .txDone]) (hx : exec i r.state = .next t) (hout : t.out = r.state.out ++ os) :
    TestRun.run (n + 2) r = TestRun.run n
      { r with sends := r.sends + sendCount os, pending := faulting r.faults r.sends os, state := t } := by
  have hnext : r.next? = some (i, { r with pending := [.txDone] }) := by rw [TestRun.next?, hp]
  have hanswer := answered_of_out_append (r := { r with pending := [.txDone] }) hout
  rw [TestRun.run_succ hnext hx, hanswer, TestRun.run_succ rfl (exec_txDone t)]
  exact congrArg (TestRun.run n) (answered_of_out_eq rfl)

/-- The written Message's byte 0 is sent, and the Transport answers it. -/
theorem run_writeMsg {n : Nat} {s : State} {m : ByteSeq} (faults : List (Nat × Byte)) (h : s.Inv) (hs : s.st = .idle)
    (hm : validLength m.length) :
    TestRun.run (n + 1) { faults := faults, script := [.writeMsg m], state := s } =
      TestRun.run n (echoRun faults m 0 (writeMsg m s)) := by
  match m with
  | [] => exact absurd hm.1 (by decide)
  | b :: m =>
    have hout := (writeMsg_echoed h hs hm).out
    rw [TestRun.run_succ rfl (exec_writeMsg _ s)]
    refine congrArg (TestRun.run n) ((answered_of_out_append hout).trans ?_)
    simp [echoRun, sendCount]

/-- The outputs of a session grow by the next byte, if there is one. -/
theorem Echoed.out_succ {s t u : State} {m : ByteSeq} {i : Nat} (h : Echoed s m i t) (h' : Echoed s m (i + 1) u) :
    u.out = t.out ++ m[i + 1]?.toList.map .send := by
  rw [h'.out, h.out, List.take_add_one (i := i + 1), List.map_append, List.append_assoc]

/-- The right echo of byte `i`. -/
theorem run_echo {n : Nat} {faults : List (Nat × Byte)} {s t : State} {m : ByteSeq} {i : Nat} {b : Byte}
    (h : Echoed s m i t) (hb : m[i]? = some b) (hf : echoOf faults i b = b) :
    TestRun.run (n + 2) (echoRun faults m i t) = TestRun.run n (echoRun faults m (i + 1) (rxByte b t)) := by
  have hi : i < m.length := (List.getElem?_eq_some_iff.mp hb).1
  have hp := echoRun_pending (faults := faults) t hb
  rw [hf] at hp
  rw [run_pending_txDone hp (exec_rxByte b t) (h.out_succ (h.rxByte_right hb))]
  have hsends : min (i + 1) m.length = i + 1 := Nat.min_eq_left hi
  have hcount : i + 1 + sendCount (m[i + 1]?.toList.map .send) = min (i + 1 + 1) m.length := by
    rcases Nat.lt_or_ge (i + 1) m.length with hlt | hge
    · rw [List.getElem?_eq_getElem hlt, Nat.min_eq_left hlt]; rfl
    · rw [List.getElem?_eq_none hge, Nat.min_eq_right (by omega)]; exact Nat.le_antisymm hi hge
  simp only [echoRun, hsends, hcount]

/-- The first `j` right echoes. -/
theorem run_echoes {n j : Nat} {faults : List (Nat × Byte)} {s t : State} {m : ByteSeq} (h : Echoed s m 0 t)
    (hj : j ≤ m.length) (hf : ∀ i < j, ∀ b, echoOf faults i b = b) :
    ∃ u, Echoed s m j u ∧ TestRun.run (2 * j + n) (echoRun faults m 0 t) = TestRun.run n (echoRun faults m j u) := by
  induction j generalizing n with
  | zero => exact ⟨t, h, by rw [Nat.mul_zero, Nat.zero_add]⟩
  | succ j ih =>
    obtain ⟨u, hu, hrun⟩ := ih (n := n + 2) (by omega) fun i hi => hf i (by omega)
    have hb : m[j]? = some m[j] := List.getElem?_eq_getElem (by omega)
    refine ⟨rxByte m[j] u, hu.rxByte_right hb, ?_⟩
    rw [show 2 * (j + 1) + n = 2 * j + (n + 2) by omega, hrun, run_echo hu hb (hf j (by omega) _)]

/-- A wrong echo of byte `i` is a collision that is retried, no retry having been made. -/
theorem Echoed.rxByte_wrong {s t : State} {m : ByteSeq} {i : Nat} {b e : Byte} (h : Echoed s m i t) (hb : m[i]? = some b)
    (he : e ≠ b) :
    (rxByte e t).st = .collisionWait ∧ (rxByte e t).rxtaint = true ∧
      (rxByte e t).rxbuf = m.take i ++ [e] ∧ (rxByte e t).out = t.out ∧
      (rxByte e t).txmsg = m := by
  have hi : i < m.length := (List.getElem?_eq_some_iff.mp hb).1
  have h21 : m.length ≤ 21 := h.validLength.2
  have hcell : t.txmsg[t.txlast]? = some b := by rw [h.txlast hi, h.txmsg, hb]
  have hcol : t.collidesAtByte e := ⟨h.st, by rwa [State.memRead_txmsg hcell]⟩
  have hg : ¬ t.givesUp := fun hg => hg.1 (Nat.le_zero.mp (h.retrycnt ▸ hg.2))
  obtain ⟨mid, hm⟩ := h.inv.core.exists_mid (.inl h.st)
  have hbuf := (rxByte_assembly h.inv e).1
  have hlen : (m.take i ++ [e]).length ≤ 21 := by simp; omega
  rw [h.rxbuf, List.take_of_length_le hlen] at hbuf
  rw [rxByte_of_backsOff h.inv hcol hg hm] at hbuf ⊢
  exact ⟨rfl, rfl, hbuf, rfl, h.txmsg⟩

/-- Settles O60: the write, then two stimuli for each byte sent; the run ends when the Transport has nothing more to answer. -/
theorem transportEchoesDriveTheSession : Obligations.TransportEchoesDriveTheSession := by
  intro s m h hs h2 h21
  have hm : validLength m.length := ⟨h2, h21⟩
  have hwritten := writeMsg_echoed h hs hm
  refine ⟨fun n hn => ?loopback, fun j n b e hb he hn => ?faulty⟩
  case loopback =>
    obtain ⟨k, rfl⟩ : ∃ k, n = 2 * m.length + k + 1 := ⟨n - (2 * m.length + 1), by omega⟩
    obtain ⟨u, hu, hrun⟩ := run_echoes (n := k) hwritten le_rfl fun i _ => echoOf_nil i
    have hp := echoRun_pending_nil (faults := []) u (le_refl m.length)
    have hdone : (echoRun [] m m.length u).next? = none := by rw [TestRun.next?, hp]; rfl
    refine ⟨echoRun [] m m.length u, ?_, hp, rfl, hu.st, hu.rxtaint, ?_, ?_, hu.txmsg, hu.inq⟩
    · rw [run_writeMsg [] h hs hm, hrun, TestRun.run_done hdone]
    · exact hu.rxbuf.trans (List.take_length ..)
    · exact hu.out.trans (by rw [List.take_of_length_le (Nat.le_succ _)])
  case faulty =>
    have hj : j < m.length := (List.getElem?_eq_some_iff.mp hb).1
    obtain ⟨k, rfl⟩ : ∃ k, n = 2 * j + (k + 2) + 1 := ⟨n - (2 * j + 3), by omega⟩
    obtain ⟨u, hu, hrun⟩ := run_echoes (n := k + 2) (faults := [(j, e)]) hwritten hj.le
      fun i hi => echoOf_other (Nat.ne_of_lt hi) e
    obtain ⟨hst, htaint, hbuf, hout, hmsg⟩ := hu.rxByte_wrong hb he
    have hp := echoRun_pending (faults := [(j, e)]) u hb
    rw [echoOf_replaced] at hp
    rw [run_writeMsg _ h hs hm, hrun,
      run_pending_txDone (os := []) hp (exec_rxByte e u) (hout.trans (List.append_nil _).symm), TestRun.run_done rfl]
    exact ⟨_, rfl, rfl, rfl, hst, htaint, hbuf, hout.trans hu.out, hmsg, (rxByte_inq e u).trans hu.inq⟩

end Sys2Proof.Machine

end

/-! # The codec functions: the character on the line (R128, R129), the frame of the HostBridge (R210, R213) -/

section

namespace Sys2Proof.Machine

@[simp] theorem exec_frameEncode (b : Byte) (s : State) :
    exec (.frameEncode b) s = .next { s with ret := .line (frameEncode b) } := rfl
@[simp] theorem exec_hexEncode (m : ByteSeq) (s : State) :
    exec (.hexEncode m) s = .next { s with ret := .text (hexEncode m) } := rfl

theorem exec_frameDecode {w : List Bool} (s : State) (h : w.length = 10) :
    exec (.frameDecode w) s = .next { s with ret := .byte (frameDecode w) } := if_pos h

/-! ## Bits and numbers -/

theorem natOfBits_cons (b : Bool) (t : List Bool) : natOfBits (b :: t) = Nat.bit b (natOfBits t) := by
  rw [natOfBits, Nat.bit_val, Nat.add_comm]

/-- Bit `i` of the number is the bit of index `i` in the list. -/
theorem testBit_natOfBits (l : List Bool) (i : Nat) : (natOfBits l).testBit i = l[i]?.getD false := by
  induction l generalizing i with
  | nil => simp [natOfBits]
  | cons b t ih =>
    rw [natOfBits_cons]
    cases i with
    | zero => rw [Nat.testBit_bit_zero]; rfl
    | succ i => rw [Nat.testBit_bit_succ, ih, List.getElem?_cons_succ]

theorem getElem?_bitsOf (b : Byte) {i : Nat} (hi : i < 8) : (bitsOf b)[i]? = some (b.getLsbD i) := by
  simp [bitsOf, hi]

theorem length_bitsOf (b : Byte) : (bitsOf b).length = 8 := by simp [bitsOf]

/-- The byte of eight bits has these bits. -/
theorem bitsOf_ofNat_natOfBits {l : List Bool} (h : l.length = 8) : bitsOf (BitVec.ofNat 8 (natOfBits l)) = l := by
  refine List.ext_getElem (by rw [length_bitsOf, h]) fun i h1 h2 => ?_
  have hi : i < 8 := h ▸ h2
  rw [← Option.some_inj, ← List.getElem?_eq_getElem, getElem?_bitsOf _ hi, BitVec.getLsbD_ofNat, testBit_natOfBits,
    List.getElem?_eq_getElem h2]
  simp [hi]

/-- The bits of a byte make up the byte. -/
theorem ofNat_natOfBits_bitsOf (b : Byte) : BitVec.ofNat 8 (natOfBits (bitsOf b)) = b := by
  refine BitVec.eq_of_getLsbD_eq fun i hi => ?_
  rw [BitVec.getLsbD_ofNat, testBit_natOfBits, getElem?_bitsOf b hi]
  simp [hi]

/-! ## The character (R128, R129) -/

/-- A byte's bits one by one, the least significant first. -/
theorem bitsOf_eq (b : Byte) : bitsOf b = [b[0], b[1], b[2], b[3], b[4], b[5], b[6], b[7]] := rfl

theorem length_frameEncode (b : Byte) : (frameEncode b).length = 10 := by
  rw [frameEncode, bitsOf_eq]; rfl

theorem frameDecode_frameEncode (b : Byte) : frameDecode (frameEncode b) = b := by
  have hmiddle : ((frameEncode b).drop 1).take 8 = bitsOf b := List.take_left' (length_bitsOf b)
  rw [frameDecode, hmiddle, ofNat_natOfBits_bitsOf]

/-- Settles O56: the middle eight values are the bits of the byte, in both directions. -/
theorem characterCodec : Obligations.CharacterCodec := by
  refine ⟨fun b s => exec_frameEncode b s, fun w1 w2 w3 w4 w5 w6 w7 w8 w9 s => ?start,
    fun w1 w2 w3 w4 w5 w6 w7 w8 w9 s => ?noStart, fun b w s t hx hw => ?roundTrip⟩
  case start =>
    exact ⟨_, exec_frameDecode s rfl, bitsOf_ofNat_natOfBits (l := [w1, w2, w3, w4, w5, w6, w7, w8]) rfl,
      lineIn_of_character rfl rfl⟩
  case noStart =>
    exact ⟨_, exec_frameDecode s rfl, bitsOf_ofNat_natOfBits (l := [w1, w2, w3, w4, w5, w6, w7, w8]) rfl⟩
  case roundTrip =>
    cases hx
    cases hw
    rw [exec_frameDecode s (length_frameEncode b), lineIn_of_character (length_frameEncode b) rfl, frameDecode_frameEncode]
    exact ⟨rfl, rfl⟩

/-! ## The frame of the HostBridge (R210, R213) -/

theorem upperHexDigits_hexDigit {v : Nat} (h : v < 16) : upperHexDigits[v]? = some (hexDigit v) := by
  have hall : ∀ n < 16, upperHexDigits[n]? = some (hexDigit n) := by decide
  exact hall v h

theorem hexVal_hexDigit {v : Nat} (h : v < 16) : hexVal (hexDigit v) = some v := by
  have hall : ∀ n < 16, hexVal (hexDigit n) = some n := by decide
  exact hall v h

/-- The high half of a byte. -/
theorem toNat_extractLsb_high (b : Byte) : (b.extractLsb 7 4).toNat = b.toNat / 16 := by
  have h8 := b.isLt
  rw [BitVec.extractLsb_toNat, Nat.shiftRight_eq_div_pow]
  omega

/-- The low half of a byte. -/
theorem toNat_extractLsb_low (b : Byte) : (b.extractLsb 3 0).toNat = b.toNat % 16 := by
  rw [BitVec.extractLsb_toNat, Nat.shiftRight_zero]

theorem length_flatMap_hex2 (m : ByteSeq) : (m.flatMap hex2).length = 2 * m.length := by
  induction m with
  | nil => rfl
  | cons b m ih => rw [List.flatMap_cons, List.length_append, ih, List.length_cons, hex2]; simp; omega

/-- Byte `j` stands in the digits `2j` and `2j + 1`. -/
theorem getElem?_flatMap_hex2 {m : ByteSeq} {j : Nat} {b : Byte} (h : m[j]? = some b) :
    (m.flatMap hex2)[2 * j]? = some (hexDigit (b.toNat / 16)) ∧
      (m.flatMap hex2)[2 * j + 1]? = some (hexDigit (b.toNat % 16)) := by
  induction m generalizing j with
  | nil => cases h
  | cons a m ih =>
    cases j with
    | zero => cases h; exact ⟨rfl, rfl⟩
    | succ j => exact ih h

/-- The interior of an encoded frame is read back digit by digit. -/
theorem hexBody_flatMap_hex2 (m : ByteSeq) : hexBody (m.flatMap hex2) = some m := by
  induction m with
  | nil => rfl
  | cons b m ih =>
    have h8 := b.isLt
    refine hexBody_cons_cons_eq_some_iff.mpr
      ⟨_, _, m, hexVal_hexDigit (by omega), hexVal_hexDigit (Nat.mod_lt _ (by decide)), ih, ?_⟩
    rw [Nat.div_add_mod, BitVec.ofNat_toNat, BitVec.setWidth_eq]

theorem hexEncode_getLast? (m : ByteSeq) : (hexEncode m).getLast? = some '*' := by
  rw [hexEncode, ← List.cons_append, List.getLast?_concat]

theorem length_hexEncode (m : ByteSeq) : (hexEncode m).length = 2 * m.length + 2 := by
  rw [hexEncode, List.length_cons, List.length_append, length_flatMap_hex2]; rfl

/-- What lies before the digits and behind them does not move them. -/
theorem getElem?_hexEncode_succ {m : ByteSeq} {i : Nat} {c : Char} (h : (m.flatMap hex2)[i]? = some c) :
    (hexEncode m)[i + 1]? = some c := by
  rw [hexEncode, List.getElem?_cons_succ, List.getElem?_append_left (List.getElem?_eq_some_iff.mp h).1, h]

theorem hexDecode_hexEncode (m : ByteSeq) : hexDecode (hexEncode m) = some m := by
  have hinterior : ((hexEncode m).drop 1).dropLast = m.flatMap hex2 := List.dropLast_concat
  have hframe : ¬ ((hexEncode m).length < 2 ∨ (hexEncode m).head? ≠ some '$' ∨ (hexEncode m).getLast? ≠ some '*') := by
    rw [length_hexEncode, hexEncode_getLast?]
    simp [hexEncode]
  rw [hexDecode, if_neg hframe, hinterior, hexBody_flatMap_hex2]

/-- Settles O57, by the digits of one byte and induction on the bytes. -/
theorem hexRoundTrip : Obligations.HexRoundTrip := by
  intro m s
  refine ⟨hexEncode m, exec_hexEncode m s, length_hexEncode m, rfl, hexEncode_getLast? m, fun j b hb => ?digits, ?decode⟩
  case digits =>
    have h8 := b.isLt
    obtain ⟨hhigh, hlow⟩ := getElem?_flatMap_hex2 hb
    rw [getElem?_hexEncode_succ hhigh, getElem?_hexEncode_succ hlow, toNat_extractLsb_high, toNat_extractLsb_low]
    exact ⟨(upperHexDigits_hexDigit (by omega)).symm, (upperHexDigits_hexDigit (Nat.mod_lt _ (by decide))).symm⟩
  case decode => rw [exec_hexDecode, hexDecode_hexEncode]

end Sys2Proof.Machine

end
